-- ==== Sys2Proof/Word.lean ====
section
/-! DEFINITION. The widths of 00_scope.md rule R8: `u8`, `u16`, `u32`. -/

namespace Sys2Proof

/-- `u8` (R8): one byte of a link, a FIFO, a bus transfer or a device register. -/
abbrev Byte := BitVec 8

/-- `u16` (R8): a sub-command, or a 16-bit value read from the device. -/
abbrev U16 := BitVec 16

/-- `u32` (R8): the scalar operand of `FG_WRITE_EXT` (R111). -/
abbrev U32 := BitVec 32

end Sys2Proof
end

