-- ==== Sys2Proof/Config.lean ====
section
/-! DEFINITION. The constants and parameters of 00_scope.md section 5 (rules R4, R5, R43), and the free values:
constants with no body, of which nothing can be proved. -/

namespace Sys2Proof

/-! ### Constants fixed by the spec (R4) -/

/-- `ADDR_MAX` (R4): largest channel id a frame may carry. -/
def addrMax : Nat := 61

/-- `LEN_FIELD_MAX` (R4): largest information length the length field can carry. -/
def lenFieldMax : Nat := 32767

/-- `MAX_OVERHEAD` (R4): the stated bound on encoded length minus information length. -/
def maxOverhead : Nat := 8

/-- `FLAG` (R91): the frame delimiter. -/
def flagByte : Byte := 0xF9

/-- `FG_BLOCK_LEN` (R4): bytes per standard-register block read. -/
def fgBlockLen : Nat := 32

/-- `FG_MAC_LEN` (R4): size of the extended-memory data buffer. -/
def fgMacLen : Nat := 32

/-- `FG_SENTINEL` (R4): completion pattern, as a value of `Rd16`. -/
def fgSentinel : U16 := 0xA5FF

/-- `FG_POLL_MAX` (R4): poll attempts. -/
def fgPollMax : Nat := 100

/-- `FG_POLL_MS` (R4): milliseconds between polls. -/
def fgPollMs : Nat := 1

/-- `FG_CS_OFFSET` (R4, R238): fixed corrective offset of the transmit checksum, of empirical origin. -/
def fgCsOffset : Byte := 0x20

/-- `FG_CS_EXTRA` (R4, R238): further correction in the special sub-command range, of empirical origin. -/
def fgCsExtra : Byte := 1

/-! ### Parameters -/

/-- Names of the snapshot fields the document lists (R37, R228). Both of its lists end in "etc.":
`other` stands for the names it does not give. -/
inductive FieldName where
  | control | voltage | current | temperature | flags | status
  | remainingCapacity | fullChargeCapacity | timeToEmpty | cycleCount
  | stateOfCharge | stateOfHealth
  | rawAdc (index : Nat)
  | other (index : Nat)
deriving DecidableEq, Repr

/-- Byte order of a snapshot field (R71). -/
inductive ByteOrder where
  | lowFirst | highFirst
deriving DecidableEq, Repr

/-- One row of `FG_FIELD_MAP` (R4, R37): byte offset in the 128-byte snapshot, width in bytes, byte order. -/
structure FieldEntry where
  name : FieldName
  offset : Nat
  width : Nat
  order : ByteOrder
deriving DecidableEq, Repr

/-- The parameters of R4, as plain data. A predicate on 16-bit values (`FgCsExtraRange`) is a list of
inclusive ranges, which can say any such predicate (log 17). -/
structure Params where
  maxInfoLen : Nat
  maxChannels : Nat
  chRxbufCap : Nat
  muxRxbufCap : Nat
  holdCap : Nat
  fcHighPct : Nat
  fcLowPct : Nat
  discardOnOverflow : Bool
  lenAllTypes : Bool
  mscEcho : Bool
  fgDevAddr : Byte
  fgRegControl : Byte
  fgRegMacCmd : Byte
  fgRegMacData : Byte
  fgRegMacSum : Byte
  fgRegMacLen : Byte
  fgBlockBase0 : Byte
  fgBlockBase1 : Byte
  fgBlockBase2 : Byte
  fgBlockBase3 : Byte
  fgTSettle : Nat
  fgTMac : Nat
  fgTMode : Nat
  fgLenOverhead : Nat
  fgCsExtraRange : List (U16 × U16)
  fgSealSeq : List U16
  fgUnsealSeq : List U16
  fgEnterCfgUpdateSeq : List U16
  fgResetSeq : List U16
  fgFieldMap : List FieldEntry
deriving DecidableEq, Repr

/-- The inequalities of R5, and the ranges that R4's tables give the delays. -/
def Params.ok (p : Params) : Bool :=
  decide (1 ≤ p.maxChannels ∧ p.maxChannels ≤ addrMax) &&
  decide (p.maxInfoLen ≤ lenFieldMax) &&
  decide (p.fcLowPct < p.fcHighPct ∧ p.fcHighPct ≤ 100) &&
  decide (p.maxInfoLen + 7 ≤ p.muxRxbufCap) &&
  decide (4 ≤ p.holdCap) &&
  decide (1 ≤ p.chRxbufCap) &&
  (p.discardOnOverflow || decide (p.maxInfoLen ≤ p.chRxbufCap)) &&
  decide (p.fgRegMacData.toNat + 31 ≤ 255) &&
  decide (p.fgBlockBase0.toNat + 31 ≤ 255 ∧ p.fgBlockBase1.toNat + 31 ≤ 255 ∧
    p.fgBlockBase2.toNat + 31 ≤ 255 ∧ p.fgBlockBase3.toNat + 31 ≤ 255) &&
  decide (1 ≤ p.fgTSettle ∧ p.fgTSettle ≤ 5) &&
  decide (1 ≤ p.fgTMac ∧ p.fgTMac ≤ 5) &&
  decide (p.fgTMode ≤ 2000)

/-- The configuration record (R43). A parameter set that breaks R5 cannot be built: R5's "a model refuses
a configuration that breaks one", R324 (b). -/
structure Config where
  params : Params
  legal : params.ok = true
deriving DecidableEq, Repr

/-- The suggested `FG_FIELD_MAP` of 93_implementation_defined.md G9; a "suggested value", no rule depends on it. -/
def suggestedFieldMap : List FieldEntry :=
  [⟨.control, 0x00, 2, .lowFirst⟩, ⟨.temperature, 0x06, 2, .lowFirst⟩, ⟨.voltage, 0x08, 2, .lowFirst⟩,
   ⟨.flags, 0x0A, 2, .lowFirst⟩, ⟨.current, 0x0C, 2, .lowFirst⟩, ⟨.remainingCapacity, 0x10, 2, .lowFirst⟩,
   ⟨.fullChargeCapacity, 0x12, 2, .lowFirst⟩, ⟨.timeToEmpty, 0x16, 2, .lowFirst⟩] ++
  [⟨.cycleCount, 0x2A, 2, .lowFirst⟩, ⟨.stateOfCharge, 0x2C, 2, .lowFirst⟩, ⟨.stateOfHealth, 0x2E, 2, .lowFirst⟩,
   ⟨.status, 0x3A, 2, .lowFirst⟩, ⟨.rawAdc 0, 0x62, 2, .lowFirst⟩, ⟨.rawAdc 1, 0x64, 2, .lowFirst⟩,
   ⟨.rawAdc 2, 0x66, 2, .lowFirst⟩, ⟨.rawAdc 3, 0x68, 2, .lowFirst⟩]

/-- Parameter values after reset. The defaults the spec states (`MAX_INFO_LEN`, the watermarks,
`P_LEN_ALL_TYPES`, `P_MSC_ECHO`) are R4's; the OPEN ones are DESIGN CHOICE: the suggestions of R4 and
R241 to R244, and the sizes of the vectors of 95_test_vectors.md part 2.5 (log 5). -/
def Params.atReset : Params where
  maxInfoLen := 128
  maxChannels := 4
  chRxbufCap := 10
  muxRxbufCap := 300
  holdCap := 32
  fcHighPct := 60
  fcLowPct := 40
  discardOnOverflow := true
  lenAllTypes := false
  mscEcho := true
  fgDevAddr := 0x55
  fgRegControl := 0x00
  fgRegMacCmd := 0x3E
  fgRegMacData := 0x40
  fgRegMacSum := 0x60
  fgRegMacLen := 0x61
  fgBlockBase0 := 0x00
  fgBlockBase1 := 0x20
  fgBlockBase2 := 0x40
  fgBlockBase3 := 0x60
  fgTSettle := 1
  fgTMac := 5
  fgTMode := 2000
  fgLenOverhead := 4
  fgCsExtraRange := []
  fgSealSeq := [0x0030]
  fgUnsealSeq := [0x0414, 0x3672]
  fgEnterCfgUpdateSeq := [0x0090]
  fgResetSeq := [0x0041]
  fgFieldMap := suggestedFieldMap

/-- The configuration after reset (log 5). -/
def Config.atReset : Config := ⟨Params.atReset, by decide⟩

/-! ### Free values

Constants with no body: the answers of the environment past the end of `State.env`'s lists (R7, R84; log 8), the
unspecified bytes of `fg.raw` (R36; log 7), and the one choice two rules leave open (log 10). The index is the number of
free values drawn before. -/

/-- A free yes or no: a transport or bus answer (R84), or the choice of log 10. -/
opaque Config.freeBool : Nat → Bool

/-- A free byte: a byte the device returns (R324 d), or an unspecified byte of the snapshot (R36). -/
opaque Config.freeByte : Nat → Byte

/-- A free count: how many bytes a link write transferred (R176). -/
opaque Config.freeCount : Nat → Nat

end Sys2Proof
end

