-- ==== Sys2Proof/Syntax.lean ====
section
/-! DEFINITION. The 28 "instructions" of 30_encoding.md rule R110: the 22 host operations of R112 and the six frame types
of R93, with the operands R111 gives them. One constructor per row of spec/opcode_table.json. -/

namespace Sys2Proof

/-- The six frame types (R93). -/
inductive FrameType where
  | sabm | ua | dm | disc | uih | ui
deriving DecidableEq, Repr

/-- The `type` operand of `ENCODE` and `SEND_FRAME` (R111): one of the six, or a value outside them
(93_implementation_defined.md U16). -/
inductive TypeOperand where
  | legal (t : FrameType)
  | illegal
deriving DecidableEq, Repr

/-- The `wanted` operand of `SEND_FRAME` (R111): `None`, one of the six, or a value outside them (U16). -/
inductive WantedOperand where
  | none
  | type (t : FrameType)
  | illegal
deriving DecidableEq, Repr

/-- The `wantedAddress` operand of `PARSE` (R111): the wildcard `Any` or a channel id. -/
inductive AddrFilter where
  | any
  | id (n : Nat)
deriving DecidableEq, Repr

/-- Where a code is read: the op-select code of the command interface (R112), or the control byte of a frame (R93). The two
code spaces are separate in the spec and share the numbers 0x03 and 0x13 (log 3). -/
inductive Port where
  | command
  | frame
deriving DecidableEq, Repr

/-- The instructions (R110). -/
inductive Instr where
  | sabm (address : Nat) (pollFinal : Bool) (information : List Byte)
  | ua (address : Nat) (pollFinal : Bool) (information : List Byte)
  | dm (address : Nat) (pollFinal : Bool) (information : List Byte)
  | disc (address : Nat) (pollFinal : Bool) (information : List Byte)
  | uih (address : Nat) (pollFinal : Bool) (information : List Byte)
  | ui (address : Nat) (pollFinal : Bool) (information : List Byte)
  | muxEnable
  | muxDisable
  | encode (address : Nat) (type : TypeOperand) (pollFinal : Bool) (information : List Byte)
  | parse (buffer : List Byte) (wantedAddress : AddrFilter)
  | openChannel (channelId : Nat) (handshakeOk : Bool)
  | closeChannel (handle : Nat)
  | write (handle : Nat) (bytes : List Byte)
  | onBytesReceived (bytes : List Byte)
  | channelRead (handle : Nat) (maxLen : Nat)
  | sendFrame (channelId : Nat) (type : TypeOperand) (pollFinal : Bool) (information : List Byte)
      (wanted : WantedOperand)
  | fgRegRead (reg : Byte) (n : Nat)
  | fgRegWrite (reg : Byte) (data : List Byte)
  | fgSumlenRead
  | fgSumlenWrite (sum : Byte) (len : Byte)
  | fgSendSubcommand (cmd : U16)
  | fgReadStd
  | fgReadExt (subCmd : U16) (length : Nat)
  | fgWriteExt (subCmd : U16) (data : U32) (quantity : Nat) (preserve : Bool)
  | fgSeal
  | fgUnseal
  | fgEnterCfgUpdate
  | fgReset
deriving DecidableEq, Repr

/-- The code space an instruction's row stands in ("match_applies_to" of spec/opcode_table.json). -/
def Instr.port : Instr → Port
  | .sabm _ _ _ => .frame
  | .ua _ _ _ => .frame
  | .dm _ _ _ => .frame
  | .disc _ _ _ => .frame
  | .uih _ _ _ => .frame
  | .ui _ _ _ => .frame
  | .muxEnable => .command
  | .muxDisable => .command
  | .encode _ _ _ _ => .command
  | .parse _ _ => .command
  | .openChannel _ _ => .command
  | .closeChannel _ => .command
  | .write _ _ => .command
  | .onBytesReceived _ => .command
  | .channelRead _ _ => .command
  | .sendFrame _ _ _ _ _ => .command
  | .fgRegRead _ _ => .command
  | .fgRegWrite _ _ => .command
  | .fgSumlenRead => .command
  | .fgSumlenWrite _ _ => .command
  | .fgSendSubcommand _ => .command
  | .fgReadStd => .command
  | .fgReadExt _ _ => .command
  | .fgWriteExt _ _ _ _ => .command
  | .fgSeal => .command
  | .fgUnseal => .command
  | .fgEnterCfgUpdate => .command
  | .fgReset => .command

end Sys2Proof
end

