-- ==== Sys2Proof/WellFormed.lean ====
section
/-! DEFINITION. Which operands the request layout of Decode.lean can carry (log 2). The spec puts no bound on natural operands
and byte sequences (R111) and lets each operation check its own; these bounds are the layout's alone. -/

namespace Sys2Proof

/-- A natural operand fits its four bytes. -/
def natFits (n : Nat) : Bool := decide (n < 2 ^ 32)

/-- A byte sequence's length fits its four bytes. -/
def bytesFit (s : List Byte) : Bool := natFits s.length

/-- `wantedAddress` fits its one byte, in which 0xFF is `Any` (R111). -/
def AddrFilter.fits : AddrFilter → Bool
  | .any => true
  | .id n => decide (n < 255)

/-- The instruction can be written as a request. -/
def Instr.wf : Instr → Bool
  | .sabm a _ info => natFits a && bytesFit info
  | .ua a _ info => natFits a && bytesFit info
  | .dm a _ info => natFits a && bytesFit info
  | .disc a _ info => natFits a && bytesFit info
  | .uih a _ info => natFits a && bytesFit info
  | .ui a _ info => natFits a && bytesFit info
  | .muxEnable => true
  | .muxDisable => true
  | .encode a _ _ info => natFits a && bytesFit info
  | .parse buf w => bytesFit buf && w.fits
  | .openChannel n _ => natFits n
  | .closeChannel h => natFits h
  | .write h s => natFits h && bytesFit s
  | .onBytesReceived s => bytesFit s
  | .channelRead h m => natFits h && natFits m
  | .sendFrame n _ _ info _ => natFits n && bytesFit info
  | .fgRegRead _ n => natFits n
  | .fgRegWrite _ d => bytesFit d
  | .fgSumlenRead => true
  | .fgSumlenWrite _ _ => true
  | .fgSendSubcommand _ => true
  | .fgReadStd => true
  | .fgReadExt _ n => natFits n
  | .fgWriteExt _ _ q _ => natFits q
  | .fgSeal => true
  | .fgUnseal => true
  | .fgEnterCfgUpdate => true
  | .fgReset => true

end Sys2Proof
end

