-- ==== Sys2Proof/Decode.lean ====
section
/-! DEFINITION. Op-select codes (30_encoding.md R112), control codes (R93), the decoder of a request and its encoder.

The codes are the spec's. How operands lie behind the code in bytes the spec does not say (operands are passed "by name",
R112): the layout here is a DESIGN CHOICE (log 2): operands in the order of R112's table, naturals in four bytes low byte
first, `u16` and `u32` low byte first, one-bit operands in one byte (0 or 1), a byte sequence as its length (a natural) and
then its bytes, `type` and `wanted` as R111's numbers, `wantedAddress` as R111's number. A frame-type row has its control byte
first (P/F in bit 4, R93), then the channel id and the information. Bytes behind the last operand are not read. -/

namespace Sys2Proof

/-! ### Codes -/

/-- `TypeCode` (R93): the control byte with P/F = 0. -/
def FrameType.code : FrameType → Byte
  | .sabm => 0x2F
  | .ua => 0x63
  | .dm => 0x0F
  | .disc => 0x43
  | .uih => 0xEF
  | .ui => 0x03

/-- `TypeOf` (R93): the row whose code equals the given value, if there is one. -/
def FrameType.ofCode (t : Byte) : Option FrameType :=
  if t = 0x2F then some .sabm
  else if t = 0x63 then some .ua
  else if t = 0x0F then some .dm
  else if t = 0x43 then some .disc
  else if t = 0xEF then some .uih
  else if t = 0x03 then some .ui
  else none

/-- The poll/final bit in its place, bit 4 (R93). -/
def pfBit (pf : Bool) : Byte := if pf then 0x10 else 0x00

/-- `control_byte = TypeCode(type) | (pollFinal << 4)` (R93). -/
def controlByte (t : FrameType) (pf : Bool) : Byte := t.code ||| pfBit pf

/-- The code an instruction's row is known by: the op-select code (R112), or the control byte (R93). -/
def Instr.selector : Instr → Byte
  | .sabm _ pf _ => controlByte .sabm pf
  | .ua _ pf _ => controlByte .ua pf
  | .dm _ pf _ => controlByte .dm pf
  | .disc _ pf _ => controlByte .disc pf
  | .uih _ pf _ => controlByte .uih pf
  | .ui _ pf _ => controlByte .ui pf
  | .muxEnable => 0x00
  | .muxDisable => 0x01
  | .encode _ _ _ _ => 0x02
  | .parse _ _ => 0x03
  | .openChannel _ _ => 0x04
  | .closeChannel _ => 0x05
  | .write _ _ => 0x06
  | .onBytesReceived _ => 0x07
  | .channelRead _ _ => 0x08
  | .sendFrame _ _ _ _ _ => 0x09
  | .fgRegRead _ _ => 0x10
  | .fgRegWrite _ _ => 0x11
  | .fgSumlenRead => 0x12
  | .fgSumlenWrite _ _ => 0x13
  | .fgSendSubcommand _ => 0x14
  | .fgReadStd => 0x15
  | .fgReadExt _ _ => 0x16
  | .fgWriteExt _ _ _ _ => 0x17
  | .fgSeal => 0x18
  | .fgUnseal => 0x19
  | .fgEnterCfgUpdate => 0x1A
  | .fgReset => 0x1B

/-! ### Reading a request -/

/-- Why a request is no instruction. -/
inductive DecodeError where
  /-- the op-select code is not one of R112's -/
  | unassignedOpSelect (code : Byte)
  /-- the control byte is none of the six types (R93) -/
  | unknownFrameType (control : Byte)
  /-- the bytes end before the operands do -/
  | truncated
  /-- a one-bit operand is neither 0 nor 1 -/
  | notABit
deriving DecidableEq, Repr

/-- A `u8` operand. -/
def readU8 : List Byte → Except DecodeError (Byte × List Byte)
  | [] => .error .truncated
  | b :: r => .ok (b, r)

/-- A `u16` operand, low byte first. -/
def readU16 : List Byte → Except DecodeError (U16 × List Byte)
  | b0 :: b1 :: r => .ok (BitVec.ofNat 16 (b0.toNat + 256 * b1.toNat), r)
  | _ => .error .truncated

/-- A natural operand: four bytes, low byte first. -/
def readNat : List Byte → Except DecodeError (Nat × List Byte)
  | b0 :: b1 :: b2 :: b3 :: r =>
      .ok (b0.toNat + 256 * (b1.toNat + 256 * (b2.toNat + 256 * b3.toNat)), r)
  | _ => .error .truncated

/-- A `u32` operand: four bytes, low byte first. -/
def readU32 (s : List Byte) : Except DecodeError (U32 × List Byte) :=
  match readNat s with
  | .ok (n, r) => .ok (BitVec.ofNat 32 n, r)
  | .error e => .error e

/-- A one-bit operand. -/
def readBit : List Byte → Except DecodeError (Bool × List Byte)
  | [] => .error .truncated
  | b :: r => if b = 0 then .ok (false, r) else if b = 1 then .ok (true, r) else .error .notABit

/-- A byte sequence: its length, then its bytes. -/
def readBytes (s : List Byte) : Except DecodeError (List Byte × List Byte) :=
  match readNat s with
  | .ok (n, r) => if n ≤ r.length then .ok (r.take n, r.drop n) else .error .truncated
  | .error e => .error e

/-- A `type` operand (R111); a value outside the six is kept as `illegal` (U16). -/
def readType : List Byte → Except DecodeError (TypeOperand × List Byte)
  | [] => .error .truncated
  | b :: r =>
    match FrameType.ofCode b with
    | some t => .ok (.legal t, r)
    | none => .ok (.illegal, r)

/-- A `wanted` operand (R111): `None` is 0x00. -/
def readWanted : List Byte → Except DecodeError (WantedOperand × List Byte)
  | [] => .error .truncated
  | b :: r =>
    if b = 0 then .ok (.none, r)
    else match FrameType.ofCode b with
      | some t => .ok (.type t, r)
      | none => .ok (.illegal, r)

/-- A `wantedAddress` operand (R111): `Any` is 0xFF. -/
def readFilter : List Byte → Except DecodeError (AddrFilter × List Byte)
  | [] => .error .truncated
  | b :: r => if b = 0xFF then .ok (.any, r) else .ok (.id b.toNat, r)

/-- The operands of the host operation with the given op-select code (R112). -/
def decodeCommand (code : Byte) (s : List Byte) : Except DecodeError Instr :=
  match code.toNat with
  | 0x00 => .ok .muxEnable
  | 0x01 => .ok .muxDisable
  | 0x02 => do
    let (a, s) ← readNat s
    let (t, s) ← readType s
    let (pf, s) ← readBit s
    let (info, _) ← readBytes s
    .ok (.encode a t pf info)
  | 0x03 => do
    let (buf, s) ← readBytes s
    let (w, _) ← readFilter s
    .ok (.parse buf w)
  | 0x04 => do
    let (n, s) ← readNat s
    let (h, _) ← readBit s
    .ok (.openChannel n h)
  | 0x05 => do
    let (h, _) ← readNat s
    .ok (.closeChannel h)
  | 0x06 => do
    let (h, s) ← readNat s
    let (b, _) ← readBytes s
    .ok (.write h b)
  | 0x07 => do
    let (b, _) ← readBytes s
    .ok (.onBytesReceived b)
  | 0x08 => do
    let (h, s) ← readNat s
    let (m, _) ← readNat s
    .ok (.channelRead h m)
  | 0x09 => do
    let (n, s) ← readNat s
    let (t, s) ← readType s
    let (pf, s) ← readBit s
    let (info, s) ← readBytes s
    let (w, _) ← readWanted s
    .ok (.sendFrame n t pf info w)
  | 0x10 => do
    let (r, s) ← readU8 s
    let (n, _) ← readNat s
    .ok (.fgRegRead r n)
  | 0x11 => do
    let (r, s) ← readU8 s
    let (d, _) ← readBytes s
    .ok (.fgRegWrite r d)
  | 0x12 => .ok .fgSumlenRead
  | 0x13 => do
    let (a, s) ← readU8 s
    let (b, _) ← readU8 s
    .ok (.fgSumlenWrite a b)
  | 0x14 => do
    let (c, _) ← readU16 s
    .ok (.fgSendSubcommand c)
  | 0x15 => .ok .fgReadStd
  | 0x16 => do
    let (c, s) ← readU16 s
    let (n, _) ← readNat s
    .ok (.fgReadExt c n)
  | 0x17 => do
    let (c, s) ← readU16 s
    let (d, s) ← readU32 s
    let (q, s) ← readNat s
    let (p, _) ← readBit s
    .ok (.fgWriteExt c d q p)
  | 0x18 => .ok .fgSeal
  | 0x19 => .ok .fgUnseal
  | 0x1A => .ok .fgEnterCfgUpdate
  | 0x1B => .ok .fgReset
  | _ => .error (.unassignedOpSelect code)

/-- The frame-type row with a given type and its operands. -/
def frameInstr (t : FrameType) (a : Nat) (pf : Bool) (info : List Byte) : Instr :=
  match t with
  | .sabm => .sabm a pf info
  | .ua => .ua a pf info
  | .dm => .dm a pf info
  | .disc => .disc a pf info
  | .uih => .uih a pf info
  | .ui => .ui a pf info

/-- The frame-type row with the given control byte: the type from `c & 0xEF`, P/F from bit 4 (R93). -/
def decodeFrameRow (c : Byte) (s : List Byte) : Except DecodeError Instr :=
  match FrameType.ofCode (c &&& 0xEF) with
  | none => .error (.unknownFrameType c)
  | some t => do
    let (a, s) ← readNat s
    let (info, _) ← readBytes s
    .ok (frameInstr t a (c.getLsbD 4) info)

/-- The decoder: total on any bytes, refusing by name. -/
def decode (p : Port) : List Byte → Except DecodeError Instr
  | [] => .error .truncated
  | c :: s =>
    match p with
    | .command => decodeCommand c s
    | .frame => decodeFrameRow c s

/-! ### Writing a request -/

/-- A natural operand in four bytes, low byte first. -/
def writeNat (n : Nat) : List Byte :=
  [BitVec.ofNat 8 n, BitVec.ofNat 8 (n / 256), BitVec.ofNat 8 (n / 65536), BitVec.ofNat 8 (n / 16777216)]

/-- A `u16` operand, low byte first. -/
def writeU16 (v : U16) : List Byte := [BitVec.ofNat 8 v.toNat, BitVec.ofNat 8 (v.toNat / 256)]

/-- A one-bit operand. -/
def writeBit (b : Bool) : List Byte := [if b then 1 else 0]

/-- A byte sequence: its length, then its bytes. -/
def writeBytes (s : List Byte) : List Byte := writeNat s.length ++ s

/-- A `type` operand (R111); 0x00 stands for every value outside the six. -/
def writeType : TypeOperand → List Byte
  | .legal t => [t.code]
  | .illegal => [0x00]

/-- A `wanted` operand (R111); 0x01 stands for every value outside the six and `None`. -/
def writeWanted : WantedOperand → List Byte
  | .none => [0x00]
  | .type t => [t.code]
  | .illegal => [0x01]

/-- A `wantedAddress` operand (R111). -/
def writeFilter : AddrFilter → List Byte
  | .any => [0xFF]
  | .id n => [BitVec.ofNat 8 n]

/-- The operand bytes of an instruction, in the order of R112's table. -/
def encodeOperands : Instr → List Byte
  | .sabm a _ info => writeNat a ++ writeBytes info
  | .ua a _ info => writeNat a ++ writeBytes info
  | .dm a _ info => writeNat a ++ writeBytes info
  | .disc a _ info => writeNat a ++ writeBytes info
  | .uih a _ info => writeNat a ++ writeBytes info
  | .ui a _ info => writeNat a ++ writeBytes info
  | .muxEnable => []
  | .muxDisable => []
  | .encode a t pf info => writeNat a ++ writeType t ++ writeBit pf ++ writeBytes info
  | .parse buf w => writeBytes buf ++ writeFilter w
  | .openChannel n h => writeNat n ++ writeBit h
  | .closeChannel h => writeNat h
  | .write h s => writeNat h ++ writeBytes s
  | .onBytesReceived s => writeBytes s
  | .channelRead h m => writeNat h ++ writeNat m
  | .sendFrame n t pf info w => writeNat n ++ writeType t ++ writeBit pf ++ writeBytes info ++ writeWanted w
  | .fgRegRead r n => [r] ++ writeNat n
  | .fgRegWrite r d => [r] ++ writeBytes d
  | .fgSumlenRead => []
  | .fgSumlenWrite a b => [a, b]
  | .fgSendSubcommand c => writeU16 c
  | .fgReadStd => []
  | .fgReadExt c n => writeU16 c ++ writeNat n
  | .fgWriteExt c d q p => writeU16 c ++ writeNat d.toNat ++ writeNat q ++ writeBit p
  | .fgSeal => []
  | .fgUnseal => []
  | .fgEnterCfgUpdate => []
  | .fgReset => []

/-- The bytes of a request: the code, then the operands. Defined for every instruction; they decode to it when it is
well formed. -/
def encode (i : Instr) : List Byte := i.selector :: encodeOperands i

/-! ### One word of the opcode table -/

/-- The bytes of a table word, first byte in its lowest bits, and the zero operand bytes behind it: sixteen, which no
operation with empty byte sequences exceeds (`SEND_FRAME` and `FG_WRITE_EXT`, the longest, take eleven). -/
def wordBytes (nbits w : Nat) : List Byte :=
  (List.range ((nbits + 7) / 8)).map (fun k => BitVec.ofNat 8 (w >>> (8 * k))) ++ List.replicate 16 0

/-- The code space a table word belongs to: the op-select codes where R112 assigns the code, else the control bytes. The
words 0x03 and 0x13 stand in both; there the op-select code wins (log 3). -/
def portOfBytes (s : List Byte) : Port :=
  match s with
  | [] => .command
  | c :: _ => if c.toNat ≤ 0x09 ∨ (0x10 ≤ c.toNat ∧ c.toNat ≤ 0x1B) then .command else .frame

/-- The instruction the decoder reads from a word of spec/opcode_table.json with zero operands behind it. -/
def decodeTableWord (nbits w : Nat) : Option Instr :=
  match decode (portOfBytes (wordBytes nbits w)) (wordBytes nbits w) with
  | .ok i => some i
  | .error _ => none

end Sys2Proof
end

