-- ==== Sys2Proof/Machine/State.lean ====
section
/-! DEFINITION. The state of X2E-CORE (10_state.md), the values its operations answer with (60_exceptions.md R270), the entries
of the output trace (00_scope.md R7), and reset (R46). INVENTORY.md lists every field with its rule. -/

namespace Sys2Proof.Machine

open Sys2Proof

/-! ### Storage -/

/-- A byte FIFO (R61): its capacity and its content, oldest byte first. -/
structure Fifo where
  cap : Nat
  data : List Byte
deriving DecidableEq, Repr

/-- The three channel states (R28). -/
inductive ChanState where
  | null
  | opened
  | openDisconnected
deriving DecidableEq, Repr

/-- One entry of the channel table (R27 to R33). -/
structure Channel where
  id : Nat
  state : ChanState
  rx : Fifo
  txIsFlowControlledOff : Bool
  rxIsFlowControlledOff : Bool
  wanted : Option FrameType
  overflowCount : Nat
deriving DecidableEq, Repr

/-- The multiplexer context (R22 to R26). It exists exactly while `mux.enabled` = 1. -/
structure Mux where
  rx : Fifo
  hold : Fifo
  ch : List Channel
deriving DecidableEq, Repr

/-- The fuel-gauge device state (R36 to R41). -/
structure Fg where
  raw : Vector Byte 128
  macBuf : Vector Byte 32
  lastReg : Byte
  lastSubCmd : U16
  lastChecksum : Byte
  lastCtrl : U16
deriving DecidableEq, Repr

/-! ### Values -/

/-- A frame descriptor (R34): a value, never kept in state. -/
structure Frame where
  address : Nat
  cr : Bool
  type : FrameType
  pollFinal : Bool
  information : List Byte
deriving DecidableEq, Repr

/-- The status codes (R270). `ok` is also `PARSE`'s `Frame`; `transportError` is the FG unit's `BusError`. -/
inductive Status where
  | ok
  | transportError
  | protocolError
  | timeout
  | flowControlled
  | invalidArgument
  | resourceExhausted
  | alreadyOpen
  | invalidLength
  | fcsError
  | notFound
  | incomplete
  | malformed
  | stalled
deriving DecidableEq, Repr

/-- The tagged value of `FG_SEND_SUBCOMMAND` (R226). -/
inductive TaggedValue where
  | sentinel
  | directValue (v : U16)
deriving DecidableEq, Repr

/-- The result operands of an operation (R112). -/
inductive Output where
  | none
  | bytes (s : List Byte)
  | handle (n : Nat)
  | bytesWritten (n : Nat)
  | accepted (n : Nat)
  | parsed (consumed : Nat) (frame : Option Frame)
  | sumLen (sum len : Byte)
  | polled (value : TaggedValue) (polls : Nat)
  | snapshot (raw : Vector Byte 128)
deriving DecidableEq, Repr

/-- What the command interface hands back (R6): one status and the result operands. -/
structure Result where
  status : Status
  output : Output
deriving DecidableEq, Repr

/-! ### The environment's answers and the output trace -/

/-- The transport's answer to a `LinkWrite` (R176): bytes transferred, or error. -/
inductive LinkReply where
  | sent (n : Nat)
  | error
deriving DecidableEq, Repr

/-- The device's answer to a bus transfer (R63). The bytes of `ok` answer a `BusRead`; a `BusWrite` ignores them. -/
inductive BusReply where
  | ok (bytes : List Byte)
  | error
deriving DecidableEq, Repr

/-- The answers the environment will give (R7, R84), and how many free values have been drawn (log 8, 9). The model's own. -/
structure Env where
  link : List LinkReply
  bus : List BusReply
  draws : Nat
deriving DecidableEq, Repr

/-- The log entries: the complete list of R279, in its order. -/
inductive LogEntry where
  | protocolFcsError
  | protocolMalformed
  | unknownChannel (n : Nat)
  | notOpen (n : Nat)
  | unexpectedFrame (n : Nat) (type : FrameType)
  | holdOverflow
  | ctrlFormat
  | ctrlUnsupported (t : Byte)
  | ctrlChannelId (d : Nat)
  | overflow (n lost : Nat)
  | transportMsc (n : Nat)
  | transportMscEcho
  | timeoutSubCommand (cmd v : U16)
  | invalidQuantity (q : Nat)
  | invalidLength (n : Nat)
  | checksumMismatch (expected got : Byte)
  | lengthMismatch (expected got : Byte)
  | confirmMismatch (subCmd : U16)
deriving DecidableEq, Repr

/-- An entry of the output trace (R7, R113): a request with its answer. A `BusRead`'s answer is its bytes, or `none` for error. -/
inductive TraceEntry where
  | linkWrite (bytes : List Byte) (reply : LinkReply)
  | busWrite (dev : Byte) (bytes : List Byte) (ok : Bool)
  | busRead (dev : Byte) (n : Nat) (reply : Option (List Byte))
  | delay (ms : Nat)
  | event (n : Nat) (mask : Byte)
  | log (entry : LogEntry)
deriving DecidableEq, Repr

/-! ### The state -/

/-- A request at the command interface or a frame-type row, as bytes (R112; log 1, 2, 3). The model's own. -/
structure Request where
  port : Port
  bytes : List Byte
deriving DecidableEq, Repr

/-- The whole state. `cfg` holds the parameters (R43), `mux` the context while there is one (R22), `fg` the gauge's
state (R36 to R41), `result` what the last operation answered (R6), `out` the output trace (R7), `env` and `requests` the
model's own inputs. -/
structure State where
  cfg : Config
  mux : Option Mux
  fg : Fg
  env : Env
  requests : List Request
  result : Option Result
  out : List TraceEntry
deriving DecidableEq, Repr

/-- Why the machine stops. The block itself raises no fault (93_implementation_defined.md): this one is the model's. -/
inductive Fault where
  /-- Raised by `step` when the bytes of a request end before its operands do, or a one-bit operand is neither 0 nor 1: no
  operation of the spec, whose host passes operands by name. Safe: the machine stops (log 16). -/
  | malformedRequest
deriving DecidableEq, Repr

/-- Why an instruction has no meaning. -/
inductive Refusal where
  /-- Raised by an arm of `exec` whose instruction is not modelled yet; no arm raises it. Safe. -/
  | notModelled (mnemonic : String)
deriving DecidableEq, Repr

namespace State

/-- `mux.enabled` (R22). -/
def enabled (s : State) : Bool := s.mux.isSome

/-- The FG unit after power-on (R46). `raw` is unspecified there; zero is DESIGN CHOICE (log 6). -/
def fgAtReset : Fg where
  raw := Vector.replicate 128 0
  macBuf := Vector.replicate 32 0
  lastReg := 0
  lastSubCmd := 0
  lastChecksum := 0
  lastCtrl := 0

/-- Power-on with the given parameters (R46, R310): no context, the FG state at its reset values, nothing requested. -/
def powerOn (c : Config) : State where
  cfg := c
  mux := none
  fg := fgAtReset
  env := ⟨[], [], 0⟩
  requests := []
  result := none
  out := []

/-- The machine right after reset (R46, R310), with the parameters of log 5. -/
def reset : State := powerOn Config.atReset

end State

end Sys2Proof.Machine
end

