-- ==== Sys2Proof/Machine/Ops.lean ====
section
/-! DEFINITION. The named operations over state: the FIFO primitives (20_memory.md R61), the channel table (R26), the requests to
the collaborators and their trace (00_scope.md R6, R7), the bus primitives (R63 to R65), and returning a status, which is this
block's exception entry (60_exceptions.md R283). -/

namespace Sys2Proof.Machine

open Sys2Proof

/-! ### FIFO primitives (R61) -/

namespace Fifo

/-- `Used(q)`. -/
def used (q : Fifo) : Nat := q.data.length

/-- `Free(q)`. -/
def free (q : Fifo) : Nat := q.cap - q.used

/-- `Peek(q, i)`; the rules use it for `i < Used(q)` only. -/
def peek (q : Fifo) (i : Nat) : Byte := q.data.getD i 0

/-- `Advance(q, n)`: removes the first `n` bytes. -/
def advance (q : Fifo) (n : Nat) : Fifo := { q with data := q.data.drop n }

/-- `Push(q, s)`: appends at the tail; the rules use it for `len(s) ≤ Free(q)` only. -/
def push (q : Fifo) (s : List Byte) : Fifo := { q with data := q.data ++ s }

/-- The bytes `Pop(q, n)` returns: the first `min(n, Used(q))`. -/
def popped (q : Fifo) (n : Nat) : List Byte := q.data.take n

/-- A FIFO with the given capacity and no content. -/
def empty (cap : Nat) : Fifo := ⟨cap, []⟩

/-- `len(q.data) ≤ cap(q)` (R61): the canonical form of the block's storage (log 18). -/
def wf (q : Fifo) : Bool := decide (q.used ≤ q.cap)

end Fifo

/-! ### The channel table (R26) -/

/-- A fresh entry (R46, R170): `NULL`, capacity 0. -/
def Channel.fresh (n : Nat) : Channel where
  id := n
  state := .null
  rx := Fifo.empty 0
  txIsFlowControlledOff := false
  rxIsFlowControlledOff := false
  wanted := none
  overflowCount := 0

/-- The table after `MUX_ENABLE` (R170): entries 0 to `MAX_CHANNELS`. -/
def freshTable (maxChannels : Nat) : List Channel := (List.range (maxChannels + 1)).map Channel.fresh

/-- Writes entry `n` of a table; `k` is the index of the list's first element. A table shorter than that is filled up with fresh
entries first, so that the entry reads back as written in every state (log 22). -/
def setEntry : List Channel → Nat → Nat → Channel → List Channel
  | [], _, 0, c => [c]
  | [], k, n + 1, c => Channel.fresh k :: setEntry [] (k + 1) n c
  | _ :: t, _, 0, c => c :: t
  | x :: t, k, n + 1, c => x :: setEntry t (k + 1) n c

namespace Mux

/-- `ch[n]`. -/
def chan (m : Mux) (n : Nat) : Channel := m.ch.getD n (Channel.fresh n)

/-- `ch[n] <- c`. -/
def setChan (m : Mux) (n : Nat) (c : Channel) : Mux := { m with ch := setEntry m.ch 0 n c }

end Mux

namespace State

/-- The parameters (R43). -/
abbrev par (s : State) : Params := s.cfg.params

/-- `ch[n]`, a fresh entry where there is no context. -/
def chan (s : State) (n : Nat) : Channel :=
  match s.mux with
  | some m => m.chan n
  | none => Channel.fresh n

/-- `mux.rx`, an empty FIFO where there is no context. -/
def muxRx (s : State) : Fifo :=
  match s.mux with
  | some m => m.rx
  | none => Fifo.empty 0

/-- `mux.hold`, an empty FIFO where there is no context. -/
def muxHold (s : State) : Fifo :=
  match s.mux with
  | some m => m.hold
  | none => Fifo.empty 0

/-- A change of the context, where there is one. -/
def modMux (s : State) (f : Mux → Mux) : State := { s with mux := s.mux.map f }

/-- `ch[n] <- c`. -/
def setChan (s : State) (n : Nat) (c : Channel) : State := s.modMux fun m => m.setChan n c

/-- `mux.rx <- q`. -/
def setMuxRx (s : State) (q : Fifo) : State := s.modMux fun m => { m with rx := q }

/-- `mux.hold <- q`. -/
def setMuxHold (s : State) (q : Fifo) : State := s.modMux fun m => { m with hold := q }

/-! ### Trace (R7) -/

/-- Appends an entry to the output trace. -/
def emit (s : State) (e : TraceEntry) : State := { s with out := s.out ++ [e] }

/-- `Delay(t)`: a trace entry with no effect on state (R246). -/
def delay (s : State) (t : Nat) : State := s.emit (.delay t)

/-- `Event(n, mask)` (R194). -/
def event (s : State) (n : Nat) (mask : Byte) : State := s.emit (.event n mask)

/-- `Log(code, details)` (R279). -/
def log (s : State) (e : LogEntry) : State := s.emit (.log e)

/-! ### Free values and the environment's answers (R84; log 8) -/

/-- The next free yes or no. -/
def drawBool (s : State) : Bool × State :=
  (Config.freeBool s.env.draws, { s with env := { s.env with draws := s.env.draws + 1 } })

/-- The next `n` free bytes. -/
def drawBytes (s : State) (n : Nat) : List Byte × State :=
  ((List.range n).map fun i => Config.freeByte (s.env.draws + i),
    { s with env := { s.env with draws := s.env.draws + n } })

/-- The next free count. -/
def drawCount (s : State) : Nat × State :=
  (Config.freeCount s.env.draws, { s with env := { s.env with draws := s.env.draws + 1 } })

/-- The transport's next answer: the next of `env.link`, and any answer at all past its end. -/
def takeLinkReply (s : State) : LinkReply × State :=
  match s.env.link with
  | r :: rest => (r, { s with env := { s.env with link := rest } })
  | [] =>
    match s.drawBool with
    | (true, s1) =>
      match s1.drawCount with
      | (n, s2) => (.sent n, s2)
    | (false, s1) => (.error, s1)

/-- The device's next answer to a transfer that asks for `n` bytes: the next of `env.bus`, and any answer at all past its
end. -/
def takeBusReply (s : State) (n : Nat) : BusReply × State :=
  match s.env.bus with
  | r :: rest => (r, { s with env := { s.env with bus := rest } })
  | [] =>
    match s.drawBool with
    | (true, s1) =>
      match s1.drawBytes n with
      | (d, s2) => (.ok d, s2)
    | (false, s1) => (.error, s1)

/-- `LinkWrite(b)`. -/
def linkWrite (s : State) (b : List Byte) : LinkReply × State :=
  match s.takeLinkReply with
  | (r, s1) => (r, s1.emit (.linkWrite b r))

/-- `LinkSend(b)` (R176): `true` is `ok`. An error, or fewer bytes than asked, is `fail`. -/
def linkSend (s : State) (b : List Byte) : Bool × State :=
  match s.linkWrite b with
  | (.error, s1) => (false, s1)
  | (.sent r, s1) => (decide (b.length ≤ r), s1)

/-- `BusWrite(FG_DEV_ADDR, b)` (R63): `true` is `ok`. -/
def busWrite (s : State) (b : List Byte) : Bool × State :=
  match s.takeBusReply 0 with
  | (.ok _, s1) => (true, s1.emit (.busWrite s.par.fgDevAddr b true))
  | (.error, s1) => (false, s1.emit (.busWrite s.par.fgDevAddr b false))

/-- `BusRead(FG_DEV_ADDR, n)` (R63): `n` bytes, or `none` for error. Fewer bytes than asked is an error; an answer listed with
more is cut to `n` (log 8). -/
def busRead (s : State) (n : Nat) : Option (List Byte) × State :=
  match s.takeBusReply n with
  | (.ok d, s1) =>
    if n ≤ d.length then (some (d.take n), s1.emit (.busRead s.par.fgDevAddr n (some (d.take n))))
    else (none, s1.emit (.busRead s.par.fgDevAddr n none))
  | (.error, s1) => (none, s1.emit (.busRead s.par.fgDevAddr n none))

/-! ### Device state (R36 to R41) -/

/-- A change of the FG unit's state. -/
def modFg (s : State) (f : Fg → Fg) : State := { s with fg := f s.fg }

/-- `fg.lastReg <- reg`. -/
def setLastReg (s : State) (reg : Byte) : State := s.modFg fun g => { g with lastReg := reg }

/-- `fg.lastSubCmd <- cmd`. -/
def setLastSubCmd (s : State) (cmd : U16) : State := s.modFg fun g => { g with lastSubCmd := cmd }

/-- `fg.lastChecksum <- cs`. -/
def setLastChecksum (s : State) (cs : Byte) : State := s.modFg fun g => { g with lastChecksum := cs }

/-- `fg.lastCtrl <- v`. -/
def setLastCtrl (s : State) (v : U16) : State := s.modFg fun g => { g with lastCtrl := v }

/-- `fg.macBuf[0 .. len(d)-1] <- d`; the rest keeps its content. -/
def setMacBuf (s : State) (d : List Byte) : State :=
  s.modFg fun g => { g with macBuf := Vector.ofFn fun i => if i.val < d.length then d.getD i.val 0 else g.macBuf[i] }

/-- `fg.raw[0..127] <- t`. -/
def setRaw (s : State) (t : List Byte) : State :=
  s.modFg fun g => { g with raw := Vector.ofFn fun i => t.getD i.val 0 }

/-- `fg.raw[0..127] <- draw` (R36, R227): every byte a free value. -/
def scrambleRaw (s : State) : State :=
  match s.drawBytes 128 with
  | (t, s1) => s1.setRaw t

/-! ### Register access (R64, R65) -/

/-- `RegWrite(reg, d, t)` (R64): `true` is `ok`; no delay after an error. -/
def regWrite (s : State) (reg : Byte) (d : List Byte) (t : Nat) : Bool × State :=
  match (s.setLastReg reg).busWrite (reg :: d) with
  | (true, s1) => (true, s1.delay t)
  | (false, s1) => (false, s1)

/-- `RegRead(reg, n, t)` (R65): the `n` bytes, or `none` for `BusError`; no delay after an error. -/
def regRead (s : State) (reg : Byte) (n t : Nat) : Option (List Byte) × State :=
  match (s.setLastReg reg).busWrite [reg] with
  | (false, s1) => (none, s1)
  | (true, s1) =>
    match s1.busRead n with
    | (some d, s2) => (some d, s2.delay t)
    | (none, s2) => (none, s2)

/-! ### Returning (R270, R283) -/

/-- `return <status>(results)`: the only thing an error does is to be returned (R283); state changed before it stands
(R286). -/
def finish (s : State) (st : Status) (o : Output) : State := { s with result := some ⟨st, o⟩ }

/-- `return <status>` with no result operand. -/
def fail (s : State) (st : Status) : State := s.finish st .none

end State

/-! ### Status codes (R270) -/

/-- The number of a status. -/
def Status.code : Status → Nat
  | .ok => 0
  | .transportError => 1
  | .protocolError => 2
  | .timeout => 3
  | .flowControlled => 4
  | .invalidArgument => 5
  | .resourceExhausted => 6
  | .alreadyOpen => 7
  | .invalidLength => 8
  | .fcsError => 9
  | .notFound => 10
  | .incomplete => 11
  | .malformed => 12
  | .stalled => 13

/-- The class of a status in the document's taxonomy (R270, third column); `none` for success and for what is not an error. -/
def Status.errorClass : Status → Option Status
  | .ok => none
  | .transportError => some .transportError
  | .protocolError => some .protocolError
  | .timeout => some .timeout
  | .flowControlled => some .flowControlled
  | .invalidArgument => some .invalidArgument
  | .resourceExhausted => some .resourceExhausted
  | .alreadyOpen => some .invalidArgument
  | .invalidLength => some .invalidArgument
  | .fcsError => some .protocolError
  | .notFound => none
  | .incomplete => none
  | .malformed => some .protocolError
  | .stalled => none

end Sys2Proof.Machine
end

