-- ==== Sys2Proof/Machine/Operands.lean ====
section
/-! DEFINITION. Operand forms: byte orders (20_memory.md R68 to R71), operand ranges (R111, R275), the value written to the device's
length register (R239), the views of the snapshot (R37, R228). -/

namespace Sys2Proof.Machine

/-! ### Byte orders -/

/-- `Le16(v)` (R68): low byte first. -/
def le16 (v : U16) : List Byte := [v.setWidth 8, (v >>> 8).setWidth 8]

/-- `Rd16(d)` (R69): the first byte received is the high byte. -/
def rd16 (d : List Byte) : U16 := ((d.getD 0 0).setWidth 16 <<< 8) ||| (d.getD 1 0).setWidth 16

/-- A scalar of `quantity` bytes, most significant byte first (R70, R235); bits of `data` above them are ignored (R233). -/
def scalarBytes (data : U32) (quantity : Nat) : List Byte :=
  (List.range quantity).map fun i => (data >>> (8 * (quantity - 1 - i))).setWidth 8

/-! ### Ranges -/

/-- Legal scalar sizes (R233). -/
def legalQuantity (q : Nat) : Bool := q == 1 || q == 2 || q == 4

/-- Legal lengths of a register or extended-memory read (R220, R229). -/
def legalReadLength (n : Nat) : Bool := decide (1 ≤ n ∧ n ≤ 32)

/-- Legal lengths of a register write (R221). -/
def legalWriteLength (n : Nat) : Bool := decide (1 ≤ n ∧ n ≤ 34)

/-- A context exists and the handle names an entry of its table (R173, R275). -/
def State.handleOk (s : State) (h : Nat) : Bool := s.enabled && decide (h ≤ s.par.maxChannels)

/-- The same for a data channel: not 0 (R174, R190, R275). -/
def State.dataHandleOk (s : State) (h : Nat) : Bool := s.handleOk h && decide (1 ≤ h)

/-- The `type` operand as one of the six, or nothing (R111, U16). -/
def legalType : TypeOperand → Option FrameType
  | .legal t => some t
  | .illegal => none

/-! ### Device constants that depend on parameters -/

/-- `(FG_MAC_LEN + FG_LEN_OVERHEAD) mod 256` (R231, R239). -/
def lengthRegister (p : Params) : Byte := BitVec.ofNat 8 (fgMacLen + p.fgLenOverhead)

/-- `FgCsExtraRange(subCmd)` (R4): the sub-command lies in one of the listed ranges (log 17). -/
def csExtraRange (p : Params) (sub : U16) : Bool :=
  p.fgCsExtraRange.any fun r => decide (r.1 ≤ sub ∧ sub ≤ r.2)

/-! ### Views of the snapshot (R37, R228) -/

/-- Bytes assembled low byte first. -/
def lowFirstValue : List Byte → Nat
  | [] => 0
  | b :: r => b.toNat + 256 * lowFirstValue r

/-- Bytes assembled in the given order (R71). -/
def orderedValue (o : ByteOrder) (s : List Byte) : Nat :=
  match o with
  | .lowFirst => lowFirstValue s
  | .highFirst => lowFirstValue s.reverse

/-- `Field(name)` (R37, R228): the bytes of `fg.raw` at the offset and width `FG_FIELD_MAP` gives, in its byte order; nothing for
a name the map lacks or a place outside the snapshot. -/
def State.field (s : State) (name : FieldName) : Option Nat :=
  match s.par.fgFieldMap.find? fun e => decide (e.name = name) with
  | some e =>
    if e.offset + e.width ≤ 128 then
      some (orderedValue e.order ((s.fg.raw.toList.drop e.offset).take e.width))
    else none
  | none => none

end Sys2Proof.Machine
end

