-- ==== Sys2Proof/Machine/Codec.lean ====
section
/-! DEFINITION. The Frame Codec (40_frame_codec.md): the frame check sequence, `ENCODE`, `PARSE`, and the six frame-type rows. -/

namespace Sys2Proof.Machine

/-! ### Frame check sequence (30_encoding.md R100 to R102) -/

/-- One of the eight shift steps of R101. -/
def crcShift (c : Byte) : Byte := if c.getLsbD 0 then (c >>> 1) ^^^ 0xE0 else c >>> 1

/-- The eight shift steps: `T[c]` of R102. -/
def crcTable (c : Byte) : Byte :=
  crcShift (crcShift (crcShift (crcShift (crcShift (crcShift (crcShift (crcShift c)))))))

/-- The register after the bytes `s`, started at `c`. -/
def crcRun (c : Byte) (s : List Byte) : Byte := s.foldl (fun c b => crcTable (c ^^^ b)) c

/-- `Crc8(s)` (R101). -/
def crc8 (s : List Byte) : Byte := crcRun 0xFF s

/-- `Fcs(s)` (R101). -/
def fcs (s : List Byte) : Byte := 0xFF - crc8 s

/-! ### ENCODE -/

/-- The C/R bit a frame built by this block carries (R104). -/
def sentCr : FrameType → Bool
  | .sabm => true
  | .ua => false
  | .dm => false
  | .disc => true
  | .uih => true
  | .ui => true

/-- The types that carry an information field (R98). -/
def carriesInfo : FrameType → Bool
  | .sabm => false
  | .ua => false
  | .dm => false
  | .disc => false
  | .uih => true
  | .ui => true

/-- `(address << 2) | (cr << 1) | 1` (R92). -/
def addressByte (address : Nat) (cr : Bool) : Byte :=
  (BitVec.ofNat 8 address <<< 2) ||| (if cr then 0x02 else 0x00) ||| 0x01

/-- The one- or two-byte length field of `n` (R95, R96). -/
def lengthField (n : Nat) : List Byte :=
  if n < 128 then [(BitVec.ofNat 8 n <<< 1) ||| 0x01]
  else [(BitVec.ofNat 8 n <<< 1) &&& 0xFE, BitVec.ofNat 8 (n >>> 7)]

/-- Address, control and length bytes: what the FCS covers (R100). -/
def headerBytes (p : Params) (address : Nat) (t : FrameType) (pf : Bool) (len : Nat) : List Byte :=
  [addressByte address (sentCr t), controlByte t pf] ++
    (if carriesInfo t || p.lenAllTypes then lengthField len else [])

/-- The wire form of a frame (R90), with no check of its operands. -/
def frameBytes (p : Params) (address : Nat) (t : FrameType) (pf : Bool) (info : List Byte) : List Byte :=
  let hdr := headerBytes p address t pf info.length
  [flagByte] ++ hdr ++ info ++ [fcs hdr] ++ [flagByte]

/-- `ENCODE` with a legal type (R130), its checks in the order of R137. -/
def encodeFrame (p : Params) (address : Nat) (t : FrameType) (pf : Bool) (info : List Byte) :
    Except Status (List Byte) :=
  if p.maxInfoLen < info.length then .error .invalidLength
  else if addrMax < address then .error .invalidArgument
  else if !(carriesInfo t) && decide (0 < info.length) then .error .invalidArgument
  else .ok (frameBytes p address t pf info)

/-- `ENCODE` with any `type` operand: one outside the six is `InvalidArgument` (U16), after the length check (log 12). -/
def encodeOperand (p : Params) (address : Nat) (t : TypeOperand) (pf : Bool) (info : List Byte) :
    Except Status (List Byte) :=
  match legalType t with
  | some t => encodeFrame p address t pf info
  | none => if p.maxInfoLen < info.length then .error .invalidLength else .error .invalidArgument

/-! ### PARSE -/

/-- What `PARSE` answers (R138): the kind, `consumed`, and the descriptor of a `Frame`. -/
inductive ParseResult where
  | frame (consumed : Nat) (f : Frame)
  | notFound (consumed : Nat)
  | incomplete (consumed : Nat)
  | fcsError (consumed : Nat)
  | malformed (consumed : Nat)
deriving DecidableEq, Repr

/-- `consumed` (R138). -/
def ParseResult.consumed : ParseResult → Nat
  | .frame n _ => n
  | .notFound n => n
  | .incomplete n => n
  | .fcsError n => n
  | .malformed n => n

/-- The kind as a status (R270). -/
def ParseResult.status : ParseResult → Status
  | .frame _ _ => .ok
  | .notFound _ => .notFound
  | .incomplete _ => .incomplete
  | .fcsError _ => .fcsError
  | .malformed _ => .malformed

/-- The descriptor, where there is one. -/
def ParseResult.descriptor : ParseResult → Option Frame
  | .frame _ f => some f
  | .notFound _ => none
  | .incomplete _ => none
  | .fcsError _ => none
  | .malformed _ => none

/-- Flag scan (R139): the first index from `i` on, among the next `k`, that holds `FLAG`; `i + k` if none does. -/
def findFlag (peek : Nat → Byte) : Nat → Nat → Nat
  | 0, i => i
  | k + 1, i => if peek i = flagByte then i else findFlag peek k (i + 1)

/-- Flag run (R140): the last flag of the run that starts at `i`, with `k` bytes behind it in the buffer. -/
def lastOfRun (peek : Nat → Byte) : Nat → Nat → Nat
  | 0, i => i
  | k + 1, i => if peek (i + 1) = flagByte then lastOfRun peek k (i + 1) else i

/-- Whether a length field is present is decided from `t = c & 0xEF` alone (R142). -/
def lengthPresent (p : Params) (t : Byte) : Bool := p.lenAllTypes || t == 0xEF || t == 0x03

/-- The header behind an opening flag: too short yet (R141), or the number of bytes up to the information, the length, and the
length bytes as received (R142). -/
inductive Header where
  | short
  | read (hdr ln : Nat) (lf : List Byte)
deriving DecidableEq, Repr

/-- Steps 3 and 4 (R141, R142), with the opening flag at `o` in a buffer of `n` bytes. -/
def readHeader (p : Params) (n : Nat) (peek : Nat → Byte) (o : Nat) : Header :=
  if n - o < 3 then .short
  else if lengthPresent p (peek (o + 2) &&& 0xEF) then
    if n - o < 4 then .short
    else if (peek (o + 3)).getLsbD 0 then .read 4 ((peek (o + 3)).toNat / 2) [peek (o + 3)]
    else if n - o < 5 then .short
    else .read 5 ((peek (o + 3)).toNat / 2 + 128 * (peek (o + 4)).toNat) [peek (o + 3), peek (o + 4)]
  else .read 3 0 []

/-- Step 10 (R148): the address filter. -/
def admits : AddrFilter → Nat → Bool
  | .any, _ => true
  | .id w, a => decide (w = a)

/-- Steps 9 to 11 (R147 to R149) on a delimited frame with a good FCS: `a` and `c` are its address and control bytes, `done` what
consuming it consumes. -/
def judgeFields (a c : Byte) (info : List Byte) (wanted : AddrFilter) (done : Nat) : ParseResult :=
  match FrameType.ofCode (c &&& 0xEF) with
  | none => .malformed done
  | some t =>
    if a.getLsbD 0 = false ∨ addrMax < (a >>> 2).toNat ∨ (carriesInfo t = false ∧ info ≠ []) then .malformed done
    else if admits wanted (a >>> 2).toNat then
      .frame done ⟨(a >>> 2).toNat, a.getLsbD 1, t, c.getLsbD 4, info⟩
    else .notFound done

/-- Steps 5 to 11 (R143 to R149). -/
def judgeFrame (p : Params) (n : Nat) (peek : Nat → Byte) (wanted : AddrFilter) (o hdr ln : Nat) (lf : List Byte) :
    ParseResult :=
  if p.maxInfoLen < ln then .malformed (o + 1)
  else if n - o < hdr + ln + 2 then .incomplete o
  else if peek (o + (hdr + ln + 2) - 1) ≠ flagByte then .malformed (o + 1)
  else if peek (o + hdr + ln) ≠ fcs ([peek (o + 1), peek (o + 2)] ++ lf) then .fcsError (o + (hdr + ln + 2))
  else judgeFields (peek (o + 1)) (peek (o + 2)) ((List.range ln).map fun k => peek (o + hdr + k)) wanted
    (o + (hdr + ln + 2))

/-- The index of the opening flag (R139, R140) in a buffer of `n` bytes; `n` where it holds no flag. -/
def openingFlag (n : Nat) (peek : Nat → Byte) : Nat := lastOfRun peek (n - 1 - findFlag peek n 0) (findFlag peek n 0)

/-- `PARSE` (R138) over a byte source that offers `Used` (`n`) and `Peek` only (R151). -/
def parseSource (p : Params) (n : Nat) (peek : Nat → Byte) (wanted : AddrFilter) : ParseResult :=
  if findFlag peek n 0 = n then .notFound n
  else
    let o := openingFlag n peek
    match readHeader p n peek o with
    | .short => .incomplete o
    | .read hdr ln lf => judgeFrame p n peek wanted o hdr ln lf

/-- `PARSE` on a byte FIFO (R61, R151). -/
def parseFifo (p : Params) (q : Fifo) (wanted : AddrFilter) : ParseResult := parseSource p q.used q.peek wanted

/-- `PARSE` on a contiguous buffer (R138). -/
def parseBytes (p : Params) (s : List Byte) (wanted : AddrFilter) : ParseResult :=
  parseSource p s.length (fun i => s.getD i 0) wanted

/-! ### Meanings: the codec's two operations -/

/-- Returns what an `ENCODE` answered. -/
def State.finishEncode (s : State) (r : Except Status (List Byte)) : State :=
  match r with
  | .ok b => s.finish .ok (.bytes b)
  | .error e => s.fail e

/-- `ENCODE` (R130). -/
def execEncode (address : Nat) (t : TypeOperand) (pf : Bool) (info : List Byte) (s : State) :
    Host.Outcome State Fault Refusal :=
  .next (s.finishEncode (encodeOperand s.par address t pf info))

/-- `PARSE` (R138). -/
def execParse (buffer : List Byte) (wanted : AddrFilter) (s : State) : Host.Outcome State Fault Refusal :=
  let r := parseBytes s.par buffer wanted
  .next (s.finish r.status (.parsed r.consumed r.descriptor))

/-! ### Meanings: the six frame-type rows (R131 to R136; log 4) -/

/-- SABM (R131): the frame `ENCODE n, SABM, pf, info` builds. -/
def execSabm (address : Nat) (pf : Bool) (info : List Byte) (s : State) : Host.Outcome State Fault Refusal :=
  .next (s.finishEncode (encodeFrame s.par address .sabm pf info))

/-- UA (R132): the frame `ENCODE n, UA, pf, info` builds. -/
def execUa (address : Nat) (pf : Bool) (info : List Byte) (s : State) : Host.Outcome State Fault Refusal :=
  .next (s.finishEncode (encodeFrame s.par address .ua pf info))

/-- DM (R133): the frame `ENCODE n, DM, pf, info` builds. -/
def execDm (address : Nat) (pf : Bool) (info : List Byte) (s : State) : Host.Outcome State Fault Refusal :=
  .next (s.finishEncode (encodeFrame s.par address .dm pf info))

/-- DISC (R134): the frame `ENCODE n, DISC, pf, info` builds. -/
def execDisc (address : Nat) (pf : Bool) (info : List Byte) (s : State) : Host.Outcome State Fault Refusal :=
  .next (s.finishEncode (encodeFrame s.par address .disc pf info))

/-- UIH (R135): the frame `ENCODE n, UIH, pf, info` builds. -/
def execUih (address : Nat) (pf : Bool) (info : List Byte) (s : State) : Host.Outcome State Fault Refusal :=
  .next (s.finishEncode (encodeFrame s.par address .uih pf info))

/-- UI (R136): the frame `ENCODE n, UI, pf, info` builds. -/
def execUi (address : Nat) (pf : Bool) (info : List Byte) (s : State) : Host.Outcome State Fault Refusal :=
  .next (s.finishEncode (encodeFrame s.par address .ui pf info))

end Sys2Proof.Machine
end

