-- ==== Sys2Proof/Machine/Flags.lean ====
section
/-! DEFINITION. The flags of 10_state.md section 4 (`mux.enabled` is `State.enabled`), the watermark comparisons that decide one of
them (41_channel_manager.md R182), and the event mask bits (R194). The block has no condition codes. -/

namespace Sys2Proof.Machine

/-- `EV_DATA` (R194). -/
def evData : Byte := 0x01

/-- `EV_FLOW` (R194). -/
def evFlow : Byte := 0x02

/-- `EV_DISCONNECTED` (R194). -/
def evDisconnected : Byte := 0x04

/-- `EV_RESPONSE` (R194). -/
def evResponse : Byte := 0x08

namespace State

/-- `ch[n].txIsFlowControlledOff <- b` (R30). -/
def setTxFlow (s : State) (n : Nat) (b : Bool) : State :=
  s.setChan n { s.chan n with txIsFlowControlledOff := b }

/-- `ch[n].rxIsFlowControlledOff <- b` (R31). -/
def setRxFlow (s : State) (n : Nat) (b : Bool) : State :=
  s.setChan n { s.chan n with rxIsFlowControlledOff := b }

/-- The fill of `ch[n].rx` is at or above `FC_HIGH_PCT` per cent, on exact products (R182). -/
def atHighMark (s : State) (n : Nat) : Bool :=
  decide (s.par.fcHighPct * s.par.chRxbufCap ≤ (s.chan n).rx.used * 100)

/-- The fill of `ch[n].rx` is at or below `FC_LOW_PCT` per cent, on exact products (R182). -/
def atLowMark (s : State) (n : Nat) : Bool :=
  decide ((s.chan n).rx.used * 100 ≤ s.par.fcLowPct * s.par.chRxbufCap)

end State

end Sys2Proof.Machine
end

