-- ==== Sys2Proof/Machine/Channel.lean ====
section
/-! DEFINITION. The Channel Manager (41_channel_manager.md): channel life cycle, sending, receiving, flow control, the control
channel, reading. -/

namespace Sys2Proof.Machine

namespace State

/-! ### Sending (R176, R183) -/

/-- Sends a frame of the block's own on the control channel, `ENCODE(0, UIH, 0, info)` then `LinkSend` (R183, R186). Where `info` is
longer than `MAX_INFO_LEN`, R137 refuses to encode what R183 and R186 say goes out: a free choice decides whether the
frame is sent or the send fails with nothing on the link (log 10). -/
def sendControl (s : State) (info : List Byte) : Bool × State :=
  if info.length ≤ s.par.maxInfoLen then s.linkSend (frameBytes s.par 0 .uih false info)
  else
    match s.drawBool with
    | (true, s1) => s1.linkSend (frameBytes s1.par 0 .uih false info)
    | (false, s1) => (false, s1)

end State

/-- `(n << 2) | 0x03`, the channel byte of an MSC message (R107). -/
def mscChannelByte (n : Nat) : Byte := (BitVec.ofNat 8 n <<< 2) ||| 0x03

/-- `MscInfo(n, off)` (R107): DV, RTR, RTC asserted, FC as asked, EA. -/
def mscInfo (n : Nat) (off : Bool) : List Byte :=
  [0xE3, 0x05, mscChannelByte n, 0x8D ||| (if off then 0x02 else 0x00)]

namespace State

/-- `EmitMsc(n, off)` (R183). -/
def emitMsc (s : State) (n : Nat) (off : Bool) : Bool × State :=
  match s.sendControl (mscInfo n off) with
  | (true, s1) => (true, s1)
  | (false, s1) => (false, s1.log (.transportMsc n))

/-! ### Receive flow control (R182) -/

/-- `EvalRxFlow(n)` (R182). -/
def evalRxFlow (s : State) (n : Nat) : Status × State :=
  if (s.chan n).rxIsFlowControlledOff = false ∧ s.atHighMark n then
    match s.emitMsc n true with
    | (true, s1) => (.ok, (s1.setRxFlow n true).event n evFlow)
    | (false, s1) => (.transportError, s1)
  else if (s.chan n).rxIsFlowControlledOff = true ∧ s.atLowMark n then
    match s.emitMsc n false with
    | (true, s1) => (.ok, (s1.setRxFlow n false).event n evFlow)
    | (false, s1) => (.transportError, s1)
  else (.ok, s)

/-! ### Delivery (R179 to R181) -/

/-- `Push(ch[n].rx, d)`. -/
def pushChan (s : State) (n : Nat) (d : List Byte) : State :=
  s.setChan n { s.chan n with rx := (s.chan n).rx.push d }

/-- `Overflow(n, lost)` (R180). -/
def overflow (s : State) (n lost : Nat) : State :=
  (s.setChan n { s.chan n with overflowCount := (s.chan n).overflowCount + 1 }).log (.overflow n lost)

/-- The number of information bytes that fit `ch[n].rx` (R179). -/
def fitting (s : State) (n : Nat) (info : List Byte) : Nat := min info.length (s.chan n).rx.free

/-- The part of `Deliver(n, info)` (R179) before flow control is evaluated: store what fits, count and log a loss, raise
DATA. -/
def store (s : State) (n : Nat) (info : List Byte) : State :=
  let w := s.fitting n info
  let s1 := s.pushChan n (info.take w)
  let s2 := if w < info.length then s1.overflow n (info.length - w) else s1
  if 0 < w then s2.event n evData else s2

/-- `Deliver(n, info)` (R179). -/
def deliver (s : State) (n : Nat) (info : List Byte) : Status × State := (s.store n info).evalRxFlow n

/-- `MustStall(f)` (R181). -/
def mustStall (s : State) (f : Frame) : Bool :=
  !s.par.discardOnOverflow && decide (f.type = .uih) && decide (1 ≤ f.address ∧ f.address ≤ s.par.maxChannels) &&
    decide ((s.chan f.address).state = .opened) && decide ((s.chan f.address).rx.free < f.information.length)

/-! ### Control channel (R184 to R186) -/

/-- `PeerMsc(v)` (R185). -/
def peerMsc (s : State) (v : List Byte) : State :=
  let d := ((v.getD 0 0) >>> 2).toNat
  let fc := (v.getD 1 0).getLsbD 1
  if 1 ≤ d ∧ d ≤ s.par.maxChannels then
    if (s.chan d).txIsFlowControlledOff = fc then s.setTxFlow d fc
    else (s.setTxFlow d fc).event d evFlow
  else s.log (.ctrlChannelId d)

/-- The MSC echo (R186): the same message as a response. -/
def mscEcho (s : State) (l : Byte) (v : List Byte) (st : Status) : Status × State :=
  if s.par.mscEcho then
    match s.sendControl ([0xE1, l] ++ v) with
    | (true, s1) => (st, s1)
    | (false, s1) => (.transportError, s1.log .transportMscEcho)
  else (st, s)

/-- One complete control message with type byte `t`, length byte `l` and value bytes `v` (R184). -/
def controlMessage (s : State) (t l : Byte) (v : List Byte) (st : Status) : Status × State :=
  if (t &&& 0xFD) = 0xE1 ∧ 2 ≤ v.length then
    if t = 0xE3 then (s.peerMsc v).mscEcho l v st else (st, s)
  else (st, s.log (.ctrlUnsupported t))

/-- The loop of `ControlData` (R184). Each round takes at least two bytes from `mux.hold`, so that as many rounds as it holds
bytes are enough. -/
def controlLoop : Nat → Status → State → Status × State
  | 0, st, s => (st, s)
  | k + 1, st, s =>
    let q := s.muxHold
    if q.used < 2 then (st, s)
    else
      let t := q.peek 0
      let l := q.peek 1
      if t.getLsbD 0 = false ∨ l.getLsbD 0 = false then
        (st, (s.setMuxHold { q with data := [] }).log .ctrlFormat)
      else
        let len := l.toNat / 2
        if q.used < 2 + len then (st, s)
        else
          let v := (q.data.drop 2).take len
          match (s.setMuxHold (q.advance (2 + len))).controlMessage t l v st with
          | (st1, s1) => controlLoop k st1 s1

/-- `ControlData(info)` (R184). -/
def controlData (s : State) (info : List Byte) : Status × State :=
  let q := s.muxHold
  if q.free < info.length then (.ok, (s.setMuxHold { q with data := [] }).log .holdOverflow)
  else controlLoop (q.push info).used .ok (s.setMuxHold (q.push info))

/-! ### Dispatch (R178, R187 to R189) -/

/-- A UIH frame (R178): dropped unless the channel is `OPEN`, else control data or delivery. -/
def dispatchUih (s : State) (f : Frame) : Status × State :=
  if (s.chan f.address).state ≠ .opened then (.ok, s.log (.notOpen f.address))
  else if f.address = 0 then s.controlData f.information
  else s.deliver f.address f.information

/-- The frame has the type the channel waits for (R187). -/
def matchesWanted (s : State) (f : Frame) : Bool := decide ((s.chan f.address).wanted = some f.type)

/-- The frame disconnects an `OPEN` channel (R188). -/
def disconnects (s : State) (f : Frame) : Bool :=
  decide ((f.type = .disc ∨ f.type = .dm) ∧ (s.chan f.address).state = .opened)

/-- The channel entry after a frame that is not UIH (R187, R188). -/
def answeredChan (s : State) (f : Frame) : Channel :=
  let c := s.chan f.address
  let c1 := if s.matchesWanted f then { c with wanted := none } else c
  if s.disconnects f then { c1 with state := .openDisconnected } else c1

/-- The event mask of a frame that is not UIH (R178). -/
def answerMask (s : State) (f : Frame) : Byte :=
  (if s.matchesWanted f then evResponse else 0) ||| (if s.disconnects f then evDisconnected else 0)

/-- A frame that is not UIH (R178): at most one event; with none, a log entry (R189). -/
def dispatchOther (s : State) (f : Frame) : State :=
  if s.matchesWanted f || s.disconnects f then
    (s.setChan f.address (s.answeredChan f)).event f.address (s.answerMask f)
  else s.log (.unexpectedFrame f.address f.type)

/-- `Dispatch(f)` (R178). -/
def dispatch (s : State) (f : Frame) : Status × State :=
  if s.par.maxChannels < f.address then (.ok, s.log (.unknownChannel f.address))
  else if f.type = .uih then s.dispatchUih f
  else (.ok, s.dispatchOther f)

/-! ### The parse loop (R177) -/

/-- `Advance(mux.rx, n)`. -/
def advanceRx (s : State) (n : Nat) : State := s.setMuxRx (s.muxRx.advance n)

/-- `st` with a new status folded in: the first that is not `Ok` is kept (R177). -/
def keepFirst (st r : Status) : Status := if st = .ok then r else st

/-- The loop of `ON_BYTES_RECEIVED` (R177). Each round that goes on takes at least one byte from `mux.rx` (R150), so that one
round more than it holds bytes is enough. A frame that must stall stays, with its opening flag at the head of `mux.rx` (R23, R181): the
noise in front of it, which is no part of it, is dropped (log 11). -/
def rxLoop : Nat → Status → State → Status × State
  | 0, st, s => (st, s)
  | k + 1, st, s =>
    match parseFifo s.par s.muxRx .any with
    | .incomplete n => (st, s.advanceRx n)
    | .notFound n => if (s.advanceRx n).muxRx.used = 0 then (st, s.advanceRx n) else rxLoop k st (s.advanceRx n)
    | .fcsError n => rxLoop k st ((s.advanceRx n).log .protocolFcsError)
    | .malformed n => rxLoop k st ((s.advanceRx n).log .protocolMalformed)
    | .frame n f =>
      if s.mustStall f then (keepFirst st .stalled, s.advanceRx (openingFlag s.muxRx.used s.muxRx.peek))
      else
        match (s.advanceRx n).dispatch f with
        | (r, s1) => rxLoop k (keepFirst st r) s1

/-- How many of the offered bytes are taken (R177). -/
def accepting (s : State) (bytes : List Byte) : Nat := min bytes.length s.muxRx.free

/-- `mux.rx` with the accepted bytes appended (R177). -/
def feed (s : State) (bytes : List Byte) : State := s.setMuxRx (s.muxRx.push (bytes.take (s.accepting bytes)))

/-- `ON_BYTES_RECEIVED` with a context (R177). -/
def receive (s : State) (bytes : List Byte) : Status × State :=
  rxLoop ((s.feed bytes).muxRx.used + 1) .ok (s.feed bytes)

end State

/-! ### Meanings: context life cycle -/

/-- The context `MUX_ENABLE` creates (R46, R170). -/
def freshMux (p : Params) : Mux where
  rx := Fifo.empty p.muxRxbufCap
  hold := Fifo.empty p.holdCap
  ch := freshTable p.maxChannels

/-- `MUX_ENABLE` (R170). -/
def execMuxEnable (s : State) : Host.Outcome State Fault Refusal := .next <|
  if s.enabled then s.fail .invalidArgument
  else { s with mux := some (freshMux s.par) }.finish .ok .none

/-- `MUX_DISABLE` (R171). -/
def execMuxDisable (s : State) : Host.Outcome State Fault Refusal := .next <|
  if s.enabled then { s with mux := none }.finish .ok .none
  else s.fail .invalidArgument

/-! ### Meanings: channel life cycle -/

/-- The traffic record `OPEN_CHANNEL` sets up (R47, R172): `wanted` and `id` stay. -/
def openedChannel (p : Params) (c : Channel) : Channel :=
  { c with
    state := .opened
    rx := Fifo.empty p.chRxbufCap
    txIsFlowControlledOff := false
    rxIsFlowControlledOff := false
    overflowCount := 0 }

/-- `OPEN_CHANNEL` (R172). -/
def execOpenChannel (channelId : Nat) (handshakeOk : Bool) (s : State) : Host.Outcome State Fault Refusal := .next <|
  if s.enabled = false then s.fail .invalidArgument
  else if addrMax < channelId then s.fail .invalidArgument
  else if s.par.maxChannels < channelId then s.fail .resourceExhausted
  else if (s.chan channelId).state ≠ .null then s.fail .alreadyOpen
  else if handshakeOk = false then s.fail .protocolError
  else (s.setChan channelId (openedChannel s.par (s.chan channelId))).finish .ok (.handle channelId)

/-- The entry after `CLOSE_CHANNEL` (R173). -/
def closedChannel (c : Channel) : Channel := { c with state := .openDisconnected, wanted := some .ua }

/-- `CLOSE_CHANNEL` (R173). -/
def execCloseChannel (handle : Nat) (s : State) : Host.Outcome State Fault Refusal := .next <|
  if s.handleOk handle = false then s.fail .invalidArgument
  else if (s.chan handle).state ≠ .opened then s.fail .invalidArgument
  else
    match s.linkSend (frameBytes s.par handle .disc true []) with
    | (true, s1) => (s1.setChan handle (closedChannel (s1.chan handle))).finish .ok .none
    | (false, s1) => s1.fail .transportError

/-! ### Meanings: sending -/

/-- `WRITE` (R174). With `InvalidArgument` and `FlowControlled` there is no `bytesWritten` (log 13). -/
def execWrite (handle : Nat) (bytes : List Byte) (s : State) : Host.Outcome State Fault Refusal := .next <|
  if s.dataHandleOk handle = false then s.fail .invalidArgument
  else if (s.chan handle).state ≠ .opened then s.fail .invalidArgument
  else if (s.chan handle).txIsFlowControlledOff then s.fail .flowControlled
  else
    let k := min bytes.length s.par.maxInfoLen
    if k = 0 then s.finish .ok (.bytesWritten 0)
    else
      match s.linkSend (frameBytes s.par handle .uih false (bytes.take k)) with
      | (true, s1) => s1.finish .ok (.bytesWritten k)
      | (false, s1) => s1.finish .transportError (.bytesWritten 0)

/-- The `wanted` operand as the value `ch[n].wanted` takes (R32), or nothing for one outside R111's values (U16). -/
def legalWanted : WantedOperand → Option (Option FrameType)
  | .none => some none
  | .type t => some (some t)
  | .illegal => none

/-- `SEND_FRAME` (R175). A `wanted` operand outside R111's values is `InvalidArgument` (U16), with the id check (log 12). -/
def execSendFrame (channelId : Nat) (t : TypeOperand) (pf : Bool) (info : List Byte) (wanted : WantedOperand)
    (s : State) : Host.Outcome State Fault Refusal := .next <|
  if s.handleOk channelId = false then s.fail .invalidArgument
  else
    match legalWanted wanted with
    | none => s.fail .invalidArgument
    | some w =>
      match encodeOperand s.par channelId t pf info with
      | .error e => s.fail e
      | .ok b =>
        match s.linkSend b with
        | (true, s1) => (s1.setChan channelId { s1.chan channelId with wanted := w }).finish .ok .none
        | (false, s1) => s1.fail .transportError

/-! ### Meanings: receiving and reading -/

/-- `ON_BYTES_RECEIVED` (R177). -/
def execOnBytesReceived (bytes : List Byte) (s : State) : Host.Outcome State Fault Refusal := .next <|
  if s.enabled = false then s.finish .invalidArgument (.accepted 0)
  else
    match s.receive bytes with
    | (st, s1) => s1.finish st (.accepted (s.accepting bytes))

/-- `Pop(ch[n].rx, maxLen)` (R190): what stays. -/
def State.popChan (s : State) (n maxLen : Nat) : State :=
  s.setChan n { s.chan n with rx := (s.chan n).rx.advance maxLen }

/-- `CHANNEL_READ` (R190). -/
def execChannelRead (handle maxLen : Nat) (s : State) : Host.Outcome State Fault Refusal := .next <|
  if s.dataHandleOk handle = false then s.fail .invalidArgument
  else if (s.chan handle).state = .null then s.fail .invalidArgument
  else
    let d := (s.chan handle).rx.popped maxLen
    if (s.chan handle).state = .opened then
      match (s.popChan handle maxLen).evalRxFlow handle with
      | (st, s1) => s1.finish st (.bytes d)
    else (s.popChan handle maxLen).finish .ok (.bytes d)

end Sys2Proof.Machine
end

