-- ==== Sys2Proof/Machine/FuelGauge.lean ====
section
/-! DEFINITION. The FG unit (42_fuel_gauge.md): register access, sub-commands with polling, the snapshot, extended memory, mode
commands. -/

namespace Sys2Proof.Machine

/-! ### Checksum (R237, R238) -/

/-- `base` (R237): the ones' complement of the 8-bit sum of the payload. -/
def checksumBase (pay : List Byte) : Byte := 0xFF - pay.sum

/-- `FgChecksum(subCmd, pay)` (R238). The corrections are of empirical origin and are kept as they are. -/
def fgChecksum (p : Params) (sub : U16) (pay : List Byte) : Byte :=
  checksumBase pay - fgCsOffset - (if csExtraRange p sub then fgCsExtra else 0)

/-! ### Meanings: register access (R220, R221) -/

/-- `FG_REG_READ` (R220). -/
def execFgRegRead (reg : Byte) (n : Nat) (s : State) : Host.Outcome State Fault Refusal := .next <|
  if legalReadLength n = false then (s.log (.invalidLength n)).fail .invalidArgument
  else
    match s.regRead reg n s.par.fgTSettle with
    | (some d, s1) => s1.finish .ok (.bytes d)
    | (none, s1) => s1.fail .transportError

/-- `FG_REG_WRITE` (R221). -/
def execFgRegWrite (reg : Byte) (data : List Byte) (s : State) : Host.Outcome State Fault Refusal := .next <|
  if legalWriteLength data.length = false then (s.log (.invalidLength data.length)).fail .invalidArgument
  else
    match s.regWrite reg data s.par.fgTSettle with
    | (true, s1) => s1.finish .ok .none
    | (false, s1) => s1.fail .transportError

/-! ### Checksum and length registers (R222, R223) -/

namespace State

/-- Reads the checksum register, then the length register (R222, R229). -/
def sumLenRead (s : State) : Option (Byte × Byte) × State :=
  match s.regRead s.par.fgRegMacSum 1 s.par.fgTSettle with
  | (none, s1) => (none, s1)
  | (some a, s1) =>
    match s1.regRead s1.par.fgRegMacLen 1 s1.par.fgTSettle with
    | (none, s2) => (none, s2)
    | (some b, s2) => (some (a.getD 0 0, b.getD 0 0), s2)

/-- Records and writes the checksum, then the length (R223). -/
def sumLenWrite (s : State) (sum len : Byte) : Bool × State :=
  match (s.setLastChecksum sum).regWrite s.par.fgRegMacSum [sum] s.par.fgTSettle with
  | (false, s1) => (false, s1)
  | (true, s1) => s1.regWrite s1.par.fgRegMacLen [len] s1.par.fgTSettle

end State

/-- `FG_SUMLEN_READ` (R222). -/
def execFgSumlenRead (s : State) : Host.Outcome State Fault Refusal := .next <|
  match s.sumLenRead with
  | (some v, s1) => s1.finish .ok (.sumLen v.1 v.2)
  | (none, s1) => s1.fail .transportError

/-- `FG_SUMLEN_WRITE` (R223). -/
def execFgSumlenWrite (sum len : Byte) (s : State) : Host.Outcome State Fault Refusal := .next <|
  match s.sumLenWrite sum len with
  | (true, s1) => s1.finish .ok .none
  | (false, s1) => s1.fail .transportError

/-! ### Sub-commands (R224 to R226) -/

/-- How the poll loop ends (R225). -/
inductive PollEnd where
  | busError
  | sentinel (k : Nat)
  | exhausted
deriving DecidableEq, Repr

/-- The poll loop (R225): attempt `k` next, `left` attempts left. -/
def pollLoop : Nat → Nat → State → PollEnd × State
  | 0, _, s => (.exhausted, s)
  | left + 1, k, s =>
    match s.regRead s.par.fgRegControl 2 fgPollMs with
    | (none, s1) => (.busError, s1)
    | (some d, s1) =>
      if rd16 d = fgSentinel then (.sentinel k, s1.setLastCtrl (rd16 d))
      else pollLoop left (k + 1) (s1.setLastCtrl (rd16 d))

/-- `FG_SEND_SUBCOMMAND` (R224). The value of an exhausted loop is the last one read, which `fg.lastCtrl` holds. -/
def execFgSendSubcommand (cmd : U16) (s : State) : Host.Outcome State Fault Refusal := .next <|
  match s.regWrite s.par.fgRegControl (le16 cmd) s.par.fgTSettle with
  | (false, s1) => s1.fail .transportError
  | (true, s1) =>
    match pollLoop fgPollMax 1 (s1.setLastSubCmd cmd) with
    | (.busError, s2) => s2.fail .transportError
    | (.sentinel k, s2) => s2.finish .ok (.polled .sentinel k)
    | (.exhausted, s2) =>
      (s2.log (.timeoutSubCommand cmd s2.fg.lastCtrl)).finish .ok
        (.polled (.directValue s2.fg.lastCtrl) fgPollMax)

/-! ### Standard registers (R227) -/

/-- The four base offsets (R76), in index order. -/
def blockBases (p : Params) : List Byte := [p.fgBlockBase0, p.fgBlockBase1, p.fgBlockBase2, p.fgBlockBase3]

/-- Reads 32-byte blocks at the given bases, in order (R227): their concatenation, or `none` for `BusError`. -/
def readBlocks : List Byte → State → Option (List Byte) × State
  | [], s => (some [], s)
  | b :: rest, s =>
    match s.regRead b fgBlockLen s.par.fgTSettle with
    | (none, s1) => (none, s1)
    | (some d, s1) =>
      match readBlocks rest s1 with
      | (none, s2) => (none, s2)
      | (some t, s2) => (some (d ++ t), s2)

/-- `FG_READ_STD` (R227). After `BusError` every byte of the snapshot is a free value (R36; log 7). -/
def execFgReadStd (s : State) : Host.Outcome State Fault Refusal := .next <|
  match readBlocks (blockBases s.par) s with
  | (none, s1) => s1.scrambleRaw.fail .transportError
  | (some t, s1) => (s1.setRaw t).finish .ok (.snapshot (s1.setRaw t).fg.raw)

/-! ### Extended memory (R229 to R240) -/

namespace State

/-- The two comparisons of an extended-memory read (R230, R231): logged, never an error. -/
def checkSumLen (s : State) (sum len : Byte) : State :=
  let s1 := if sum ≠ s.fg.lastChecksum then s.log (.checksumMismatch s.fg.lastChecksum sum) else s
  if len ≠ lengthRegister s.par then s1.log (.lengthMismatch (lengthRegister s.par) len) else s1

/-- `FG_READ_EXT` after its length check (R229): the bytes, or `none` for `BusError`. -/
def readExt (s : State) (sub : U16) (length : Nat) : Option (List Byte) × State :=
  match s.regWrite s.par.fgRegMacCmd (le16 sub) s.par.fgTMac with
  | (false, s1) => (none, s1)
  | (true, s1) =>
    match (s1.setLastSubCmd sub).sumLenRead with
    | (none, s2) => (none, s2)
    | (some v, s2) =>
      match (s2.checkSumLen v.1 v.2).regRead s2.par.fgRegMacData length s2.par.fgTSettle with
      | (none, s3) => (none, s3)
      | (some d, s3) => (some d, s3.setMacBuf d)

/-- `WritePayload(subCmd, pay)` (R236): one write where the data window follows the header, else two. -/
def writePayload (s : State) (sub : U16) (pay : List Byte) : Bool × State :=
  if s.par.fgRegMacData.toNat = s.par.fgRegMacCmd.toNat + 2 then
    s.regWrite s.par.fgRegMacCmd (le16 sub ++ pay) s.par.fgTSettle
  else
    match s.regWrite s.par.fgRegMacCmd (le16 sub) s.par.fgTSettle with
    | (false, s1) => (false, s1)
    | (true, s1) => s1.regWrite s1.par.fgRegMacData pay s1.par.fgTSettle

/-- The pre-read of `FG_WRITE_EXT` (R234): `true` unless it failed. -/
def preRead (s : State) (sub : U16) (preserve : Bool) : Bool × State :=
  if preserve then
    match s.readExt sub fgMacLen with
    | (some _, s1) => (true, s1)
    | (none, s1) => (false, s1)
  else (true, s)

/-- `FG_WRITE_EXT` from the payload write on (R236 to R240), with the payload in `fg.macBuf`. -/
def commitExt (s : State) (sub : U16) : Status × State :=
  let pay := s.fg.macBuf.toList
  match s.writePayload sub pay with
  | (false, s1) => (.transportError, s1)
  | (true, s1) =>
    match (s1.setLastSubCmd sub).sumLenWrite (fgChecksum s1.par sub pay) (lengthRegister s1.par) with
    | (false, s2) => (.transportError, s2)
    | (true, s2) =>
      match s2.readExt sub fgMacLen with
      | (none, s3) => (.transportError, s3)
      | (some d, s3) => if d ≠ pay then (.protocolError, s3.log (.confirmMismatch sub)) else (.ok, s3)

end State

/-- `FG_READ_EXT` (R229). -/
def execFgReadExt (sub : U16) (length : Nat) (s : State) : Host.Outcome State Fault Refusal := .next <|
  if legalReadLength length = false then (s.log (.invalidLength length)).fail .invalidArgument
  else
    match s.readExt sub length with
    | (some d, s1) => s1.finish .ok (.bytes d)
    | (none, s1) => s1.fail .transportError

/-- `FG_WRITE_EXT` (R232). -/
def execFgWriteExt (sub : U16) (data : U32) (quantity : Nat) (preserve : Bool) (s : State) :
    Host.Outcome State Fault Refusal := .next <|
  if legalQuantity quantity = false then (s.log (.invalidQuantity quantity)).fail .invalidArgument
  else
    match s.preRead sub preserve with
    | (false, s1) => s1.fail .transportError
    | (true, s1) =>
      match (s1.setMacBuf (scalarBytes data quantity)).commitExt sub with
      | (st, s2) => s2.fail st

/-! ### Mode commands (R241 to R245) -/

/-- The words of a mode command (R245): written to the control register one by one; `false` at the first that fails. -/
def writeModeWords : List U16 → State → Bool × State
  | [], s => (true, s)
  | w :: rest, s =>
    match s.regWrite s.par.fgRegControl (le16 w) s.par.fgTSettle with
    | (false, s1) => (false, s1)
    | (true, s1) => writeModeWords rest (s1.setLastSubCmd w)

/-- `ModeCommand(kind)` (R245) with `FgModeSeq(kind)` = `words`. -/
def modeCommand (words : List U16) (s : State) : State :=
  match writeModeWords words s with
  | (true, s1) => (s1.delay s1.par.fgTMode).finish .ok .none
  | (false, s1) => s1.fail .transportError

/-- `FG_SEAL` (R241). -/
def execFgSeal (s : State) : Host.Outcome State Fault Refusal := .next (modeCommand s.par.fgSealSeq s)

/-- `FG_UNSEAL` (R242). -/
def execFgUnseal (s : State) : Host.Outcome State Fault Refusal := .next (modeCommand s.par.fgUnsealSeq s)

/-- `FG_ENTER_CFG_UPDATE` (R243). -/
def execFgEnterCfgUpdate (s : State) : Host.Outcome State Fault Refusal :=
  .next (modeCommand s.par.fgEnterCfgUpdateSeq s)

/-- `FG_RESET` (R244): resets the device; the block's own state is not cleared. -/
def execFgReset (s : State) : Host.Outcome State Fault Refusal := .next (modeCommand s.par.fgResetSeq s)

end Sys2Proof.Machine
end

