-- ==== Sys2Proof/Machine/Dispatch.lean ====
section
/-! DEFINITION. One arm per instruction. -/

namespace Sys2Proof.Machine

def exec (i : Instr) (s : State) : Host.Outcome State Fault Refusal :=
  match i with
  | .sabm a pf info => Sys2Proof.Machine.execSabm a pf info s
  | .ua a pf info => Sys2Proof.Machine.execUa a pf info s
  | .dm a pf info => Sys2Proof.Machine.execDm a pf info s
  | .disc a pf info => Sys2Proof.Machine.execDisc a pf info s
  | .uih a pf info => Sys2Proof.Machine.execUih a pf info s
  | .ui a pf info => Sys2Proof.Machine.execUi a pf info s
  | .muxEnable => Sys2Proof.Machine.execMuxEnable s
  | .muxDisable => Sys2Proof.Machine.execMuxDisable s
  | .encode a t pf info => Sys2Proof.Machine.execEncode a t pf info s
  | .parse buf w => Sys2Proof.Machine.execParse buf w s
  | .openChannel n h => Sys2Proof.Machine.execOpenChannel n h s
  | .closeChannel h => Sys2Proof.Machine.execCloseChannel h s
  | .write h b => Sys2Proof.Machine.execWrite h b s
  | .onBytesReceived b => Sys2Proof.Machine.execOnBytesReceived b s
  | .channelRead h m => Sys2Proof.Machine.execChannelRead h m s
  | .sendFrame n t pf info w => Sys2Proof.Machine.execSendFrame n t pf info w s
  | .fgRegRead r n => Sys2Proof.Machine.execFgRegRead r n s
  | .fgRegWrite r d => Sys2Proof.Machine.execFgRegWrite r d s
  | .fgSumlenRead => Sys2Proof.Machine.execFgSumlenRead s
  | .fgSumlenWrite a b => Sys2Proof.Machine.execFgSumlenWrite a b s
  | .fgSendSubcommand c => Sys2Proof.Machine.execFgSendSubcommand c s
  | .fgReadStd => Sys2Proof.Machine.execFgReadStd s
  | .fgReadExt c n => Sys2Proof.Machine.execFgReadExt c n s
  | .fgWriteExt c d q p => Sys2Proof.Machine.execFgWriteExt c d q p s
  | .fgSeal => Sys2Proof.Machine.execFgSeal s
  | .fgUnseal => Sys2Proof.Machine.execFgUnseal s
  | .fgEnterCfgUpdate => Sys2Proof.Machine.execFgEnterCfgUpdate s
  | .fgReset => Sys2Proof.Machine.execFgReset s

end Sys2Proof.Machine
end

