-- ==== Sys2Proof/Machine/Fetch.lean ====
section
/-! DEFINITION. Taking a request (10_state.md R21; log 1, 3, 16). -/

namespace Sys2Proof.Machine

/-- The instruction a request's bytes decode to. -/
def Request.instr (r : Request) : Except DecodeError Instr := decode r.port r.bytes

/-- What a request that is no instruction does: an unassigned op-select code, or a control byte that is none of the six types,
returns `InvalidArgument` and changes nothing (R112, U15, U16); bytes that end early or a one-bit operand that is no bit are
no operation (log 16). -/
def answerUndecoded (e : DecodeError) (s : State) : Host.Outcome State Fault Refusal :=
  match e with
  | .unassignedOpSelect _ => .next (s.fail .invalidArgument)
  | .unknownFrameType _ => .next (s.fail .invalidArgument)
  | .truncated => .fault .malformedRequest
  | .notABit => .fault .malformedRequest

/-- The request whose bytes are a word of spec/opcode_table.json with zero operands behind it. -/
def wordRequest (nbits w : Nat) : Request := ⟨portOfBytes (wordBytes nbits w), wordBytes nbits w⟩

end Sys2Proof.Machine
end

