-- ==== Sys2Proof/Machine/Step.lean ====
section
/-! DEFINITION. One step: the next request is taken, decoded and run to its `return` (10_state.md R21, 20_memory.md R77). -/

namespace Sys2Proof.Machine

/-- One step. With no request the block waits (R46): nothing changes. -/
def step (s : State) : Host.Outcome State Fault Refusal :=
  match s.requests with
  | [] => .next s
  | r :: rest =>
    match r.instr with
    | .ok i => exec i { s with requests := rest }
    | .error e => answerUndecoded e { s with requests := rest }

/-- `s` with a word of spec/opcode_table.json, and zero operands behind it, as the next request (log 1, 3). -/
def State.withFetchWord (s : State) (nbits w : Nat) : State := { s with requests := wordRequest nbits w :: s.requests }

end Sys2Proof.Machine
end

