-- ==== Sys2Proof/Safety.lean ====
section
/-! DEFINITION. What the statements speak of: the invariant of 10_state.md R45, the order of channel states (R28), the delay
discipline of a register transaction (42_fuel_gauge.md R246), a settled receive buffer (R23, R177), and which part of the
state an operation leaves alone. -/

namespace Sys2Proof.Machine

/-! ### The invariant (R45) -/

/-- What R45 says of one channel entry, and R27, R29 on its id and capacity. -/
abbrev ChannelOk (p : Params) (n : Nat) (c : Channel) : Prop :=
  c.id = n ∧ c.rx.wf = true ∧
  (c.state = .null → c.rx = Fifo.empty 0 ∧ c.rxIsFlowControlledOff = false) ∧
  (c.state ≠ .null → c.rx.cap = p.chRxbufCap) ∧
  (n = 0 → c.rx.data = [])

/-- What R45 says of the context: every FIFO within its capacity (R23, R24), the table with its entries (R26). -/
abbrev MuxOk (p : Params) (m : Mux) : Prop :=
  m.rx.cap = p.muxRxbufCap ∧ m.rx.wf = true ∧ m.hold.cap = p.holdCap ∧ m.hold.wf = true ∧
  m.ch.length = p.maxChannels + 1 ∧ ∀ n < p.maxChannels + 1, ChannelOk p n (m.chan n)

/-- R45: holds of every state without a context, and of a context that is in order. -/
abbrev State.Inv (s : State) : Prop := ∀ m ∈ s.mux, MuxOk s.par m

/-- The order `NULL` → `OPEN` → `OPEN_DISCONNECTED` in which a channel moves (R45), by R28's numbers. -/
def ChanState.rank : ChanState → Nat
  | .null => 0
  | .opened => 1
  | .openDisconnected => 2

/-! ### The units (R2) -/

/-- The operations of the FG unit (codes 0x10 to 0x1B, R112). -/
def isFgInstr : Instr → Bool
  | .sabm _ _ _ => false
  | .ua _ _ _ => false
  | .dm _ _ _ => false
  | .disc _ _ _ => false
  | .uih _ _ _ => false
  | .ui _ _ _ => false
  | .muxEnable => false
  | .muxDisable => false
  | .encode _ _ _ _ => false
  | .parse _ _ => false
  | .openChannel _ _ => false
  | .closeChannel _ => false
  | .write _ _ => false
  | .onBytesReceived _ => false
  | .channelRead _ _ => false
  | .sendFrame _ _ _ _ _ => false
  | .fgRegRead _ _ => true
  | .fgRegWrite _ _ => true
  | .fgSumlenRead => true
  | .fgSumlenWrite _ _ => true
  | .fgSendSubcommand _ => true
  | .fgReadStd => true
  | .fgReadExt _ _ => true
  | .fgWriteExt _ _ _ _ => true
  | .fgSeal => true
  | .fgUnseal => true
  | .fgEnterCfgUpdate => true
  | .fgReset => true

/-- A trace entry the FG unit can make: a bus transfer, a delay or a log entry. -/
def TraceEntry.ofFg : TraceEntry → Bool
  | .linkWrite _ _ => false
  | .busWrite _ _ _ => true
  | .busRead _ _ _ => true
  | .delay _ => true
  | .event _ _ => false
  | .log _ => true

/-- A trace entry the CMUX unit can make: a link write, an event or a log entry. -/
def TraceEntry.ofCmux : TraceEntry → Bool
  | .linkWrite _ _ => true
  | .busWrite _ _ _ => false
  | .busRead _ _ _ => false
  | .delay _ => false
  | .event _ _ => true
  | .log _ => true

/-! ### Frames: what an operation leaves alone -/

/-- Parameters, the FG unit's state and the requests still to come are unchanged. -/
def State.SameOutsideCmux (s t : State) : Prop := t.cfg = s.cfg ∧ t.fg = s.fg ∧ t.requests = s.requests

/-- The context exists as before, its two buffers are unchanged, and so is every channel entry but `n`. -/
def State.SameButChannel (s t : State) (n : Nat) : Prop :=
  t.enabled = s.enabled ∧ t.muxRx = s.muxRx ∧ t.muxHold = s.muxHold ∧ ∀ k, k ≠ n → t.chan k = s.chan k

/-! ### The delay discipline (R246) -/

/-- The delays that may follow a register transaction (R246). -/
def settleDelays (p : Params) : List Nat := [p.fgTSettle, p.fgTMac, 1]

/-- The bus entries of one FG operation: every successful register write or read is followed by exactly one delay, a failed one
by nothing more, and the long delay of a mode command comes last (R246). -/
def disciplined (p : Params) : List TraceEntry → Bool
  | [] => true
  | .log _ :: r => disciplined p r
  | [.busWrite _ _ false] => true
  | .busWrite _ _ true :: .delay t :: r => (settleDelays p).contains t && disciplined p r
  | [.busWrite _ _ true, .busRead _ _ none] => true
  | .busWrite _ _ true :: .busRead _ _ (some _) :: .delay t :: r => (settleDelays p).contains t && disciplined p r
  | [.delay t] => t == p.fgTMode
  | _ => false

/-! ### A settled receive buffer (R23, R83, R177) -/

/-- What R181 says of a frame that must stall. -/
abbrev State.Stalls (s : State) (f : Frame) : Prop :=
  s.par.discardOnOverflow = false ∧ f.type = .uih ∧ 1 ≤ f.address ∧ f.address ≤ s.par.maxChannels ∧
  (s.chan f.address).state = .opened ∧ (s.chan f.address).rx.cap - (s.chan f.address).rx.data.length < f.information.length

/-- A buffer is empty, or starts with an opening flag: one that no other flag follows (R23, R140). -/
def StartsAtFlag (buf : List Byte) : Prop := buf = [] ∨ ∃ rest, buf = 0xF9 :: rest ∧ rest.head? ≠ some 0xF9

/-- Nothing more can be taken from `mux.rx` (R23): it is empty, or starts with the opening flag of a frame that is not yet complete
or that is stalled. -/
def State.RxSettled (s : State) : Prop :=
  StartsAtFlag s.muxRx.data ∧
  (s.muxRx.data = [] ∨ parseBytes s.par s.muxRx.data .any = .incomplete 0 ∨
    ∃ n f, parseBytes s.par s.muxRx.data .any = .frame n f ∧ s.Stalls f)

/-- A link answer that reports at least `n` bytes (R176). -/
def LinkReply.covers (n : Nat) : LinkReply → Bool
  | .sent r => decide (n ≤ r)
  | .error => false

/-- A bus answer that is no error (R63). -/
def BusReply.succeeds : BusReply → Bool
  | .ok _ => true
  | .error => false

/-- What a read of `n` bytes gets from a bus answer (R63): `n` bytes, or nothing for an error or too few. -/
def BusReply.bytesFor (n : Nat) : BusReply → Option (List Byte)
  | .ok d => if n ≤ d.length then some (d.take n) else none
  | .error => none

/-! ### Frames as they stand on the link -/

/-- A descriptor whose fields `ENCODE` accepts (R34, R137), with either C/R bit. -/
abbrev Frame.Sendable (p : Params) (f : Frame) : Prop :=
  f.address ≤ addrMax ∧ f.information.length ≤ p.maxInfoLen ∧ (carriesInfo f.type = false → f.information = [])

/-- The bytes of a frame that its FCS covers (R100), with the C/R bit of the descriptor: a peer's frame carries the bit this block
does not (R104). -/
def Frame.header (p : Params) (f : Frame) : List Byte :=
  [addressByte f.address f.cr, controlByte f.type f.pollFinal] ++
    (if carriesInfo f.type || p.lenAllTypes then lengthField f.information.length else [])

/-- The wire form of a frame (R90), with the C/R bit of the descriptor. -/
def Frame.wire (p : Params) (f : Frame) : List Byte :=
  [flagByte] ++ f.header p ++ f.information ++ [fcs (f.header p)] ++ [flagByte]

/-- The same result, reached `k` bytes further on in the buffer. -/
def ParseResult.shift (k : Nat) : ParseResult → ParseResult
  | .frame n f => .frame (k + n) f
  | .notFound n => .notFound (k + n)
  | .incomplete n => .incomplete (k + n)
  | .fcsError n => .fcsError (k + n)
  | .malformed n => .malformed (k + n)

/-- The length bytes `lf` are what a frame with control byte `c` has for `n` information bytes (R95, R96, R142): either form. -/
def LengthBytes (p : Params) (c : Byte) (lf : List Byte) (n : Nat) : Prop :=
  match lf with
  | [] => lengthPresent p (c &&& 0xEF) = false ∧ n = 0
  | [b] => lengthPresent p (c &&& 0xEF) = true ∧ b.getLsbD 0 = true ∧ n = b.toNat / 2
  | [b0, b1] => lengthPresent p (c &&& 0xEF) = true ∧ b0.getLsbD 0 = false ∧ n = b0.toNat / 2 + 128 * b1.toNat
  | _ :: _ :: _ :: _ => False

/-! ### Listed bus answers -/

/-- The answers to the transfers of one extended-memory read (R229): four register accesses that succeed. -/
def readExtReplies (a b : Byte) (d : List Byte) : List BusReply :=
  [.ok [], .ok [], .ok [a], .ok [], .ok [b], .ok [], .ok d]

/-- What the length register should hold: the buffer's 32 bytes and the overhead, modulo 256 (R231, R239). -/
def lengthByte (p : Params) : Byte := BitVec.ofNat 8 (32 + p.fgLenOverhead)

/-- The trace of one extended-memory read that succeeds (R229 to R231): `last` is the checksum the block wrote last. -/
def readExtTrace (p : Params) (last : Byte) (sub : U16) (n : Nat) (a b : Byte) (d : List Byte) : List TraceEntry :=
  [.busWrite p.fgDevAddr [p.fgRegMacCmd, sub.setWidth 8, (sub >>> 8).setWidth 8] true, .delay p.fgTMac,
   .busWrite p.fgDevAddr [p.fgRegMacSum] true, .busRead p.fgDevAddr 1 (some [a]), .delay p.fgTSettle,
   .busWrite p.fgDevAddr [p.fgRegMacLen] true, .busRead p.fgDevAddr 1 (some [b]), .delay p.fgTSettle] ++
  (if a ≠ last then [.log (.checksumMismatch last a)] else []) ++
  (if b ≠ lengthByte p then [.log (.lengthMismatch (lengthByte p) b)] else []) ++
  [.busWrite p.fgDevAddr [p.fgRegMacData] true, .busRead p.fgDevAddr n (some d), .delay p.fgTSettle]

/-- The answers to polls (R225) that read the given pairs of bytes. -/
def pollReplies (vs : List (Byte × Byte)) : List BusReply := vs.flatMap fun v => [.ok [], .ok [v.1, v.2]]

/-- The trace of those polls. -/
def pollTrace (p : Params) (vs : List (Byte × Byte)) : List TraceEntry :=
  vs.flatMap fun v =>
    [.busWrite p.fgDevAddr [p.fgRegControl] true, .busRead p.fgDevAddr 2 (some [v.1, v.2]), .delay 1]

/-- The register each of the seven transfers of an extended-memory read is for (R229). -/
def readExtRegs (p : Params) : List Byte :=
  [p.fgRegMacCmd, p.fgRegMacSum, p.fgRegMacSum, p.fgRegMacLen, p.fgRegMacLen, p.fgRegMacData, p.fgRegMacData]

/-- The trace of an operation that ends at its bus transfer number `j`, counted from 0: what was traced before that transfer, and the
transfer with its failing answer (R64, R65, R247). -/
def stoppedAt : List TraceEntry → Nat → List TraceEntry
  | [], _ => []
  | .busWrite d b _ :: _, 0 => [.busWrite d b false]
  | .busRead d n _ :: _, 0 => [.busRead d n none]
  | .busWrite d b ok :: r, j + 1 => .busWrite d b ok :: stoppedAt r j
  | .busRead d n reply :: r, j + 1 => .busRead d n reply :: stoppedAt r j
  | .linkWrite b l :: r, j => .linkWrite b l :: stoppedAt r j
  | .delay t :: r, j => .delay t :: stoppedAt r j
  | .event n m :: r, j => .event n m :: stoppedAt r j
  | .log e :: r, j => .log e :: stoppedAt r j

/-- A poll that does not see the sentinel: not 0xA5 then 0xFF (R225). -/
abbrev NotSentinel (v : Byte × Byte) : Prop := ¬(v.1 = 0xA5 ∧ v.2 = 0xFF)

/-- A bus transfer answered with an error. -/
def TraceEntry.busFailed : TraceEntry → Bool
  | .linkWrite _ _ => false
  | .busWrite _ _ ok => !ok
  | .busRead _ _ reply => reply.isNone
  | .delay _ => false
  | .event _ _ => false
  | .log _ => false

/-- A link write answered with an error, or with fewer bytes than asked (R176). -/
def TraceEntry.linkFailed : TraceEntry → Bool
  | .linkWrite b r => !(r.covers b.length)
  | .busWrite _ _ _ => false
  | .busRead _ _ _ => false
  | .delay _ => false
  | .event _ _ => false
  | .log _ => false

/-- Every failed link write of a trace is followed at once by the log entry of a failed MSC or echo (R183, R184, R271). -/
def FailuresAreLogged (new : List TraceEntry) : Prop :=
  ∀ before e after, new = before ++ e :: after → e.linkFailed = true →
    (∃ n, after.head? = some (.log (.transportMsc n))) ∨ after.head? = some (.log .transportMscEcho)

/-- A log entry. -/
def TraceEntry.isLog : TraceEntry → Bool
  | .linkWrite _ _ => false
  | .busWrite _ _ _ => false
  | .busRead _ _ _ => false
  | .delay _ => false
  | .event _ _ => false
  | .log _ => true

/-! ### The echo device (R248) -/

/-- The bus entries of a trace are those of an echo device (R248) with memory `m` and pointer `ptr`: a write sets the pointer and
stores what follows it, a read returns the bytes from the pointer on, and both always succeed. -/
def echoAnswers (m : Nat → Byte) (ptr : Nat) : List TraceEntry → Bool
  | [] => true
  | .busWrite _ [] _ :: _ => false
  | .busWrite _ (r :: d) ok :: rest =>
    ok &&
      echoAnswers (fun a => if r.toNat ≤ a ∧ a < r.toNat + d.length then d.getD (a - r.toNat) 0 else m a) r.toNat rest
  | .busRead _ n reply :: rest =>
    decide (reply = some ((List.range n).map fun i => m (ptr + i))) && echoAnswers m ptr rest
  | .linkWrite _ _ :: rest => echoAnswers m ptr rest
  | .delay _ :: rest => echoAnswers m ptr rest
  | .event _ _ :: rest => echoAnswers m ptr rest
  | .log _ :: rest => echoAnswers m ptr rest

/-- The register addresses of a device an echo can stand for (R76, R236, R248): the data window behind the header, the checksum and
length registers outside both and apart. -/
abbrev EchoMap (p : Params) : Prop :=
  p.fgRegMacData.toNat = p.fgRegMacCmd.toNat + 2 ∧
  (p.fgRegMacSum.toNat < p.fgRegMacCmd.toNat ∨ p.fgRegMacCmd.toNat + 34 ≤ p.fgRegMacSum.toNat) ∧
  (p.fgRegMacLen.toNat < p.fgRegMacCmd.toNat ∨ p.fgRegMacCmd.toNat + 34 ≤ p.fgRegMacLen.toNat) ∧
  p.fgRegMacSum ≠ p.fgRegMacLen

/-! ### Statuses (R270) -/

/-- The statuses an operation may return (R270, fourth column of its table). -/
def allowedStatuses : Instr → List Status
  | .sabm _ _ _ => [.ok, .invalidLength, .invalidArgument]
  | .ua _ _ _ => [.ok, .invalidLength, .invalidArgument]
  | .dm _ _ _ => [.ok, .invalidLength, .invalidArgument]
  | .disc _ _ _ => [.ok, .invalidLength, .invalidArgument]
  | .uih _ _ _ => [.ok, .invalidLength, .invalidArgument]
  | .ui _ _ _ => [.ok, .invalidLength, .invalidArgument]
  | .muxEnable => [.ok, .invalidArgument]
  | .muxDisable => [.ok, .invalidArgument]
  | .encode _ _ _ _ => [.ok, .invalidLength, .invalidArgument]
  | .parse _ _ => [.ok, .fcsError, .notFound, .incomplete, .malformed]
  | .openChannel _ _ => [.ok, .protocolError, .invalidArgument, .resourceExhausted, .alreadyOpen]
  | .closeChannel _ => [.ok, .transportError, .invalidArgument]
  | .write _ _ => [.ok, .transportError, .flowControlled, .invalidArgument]
  | .onBytesReceived _ => [.ok, .transportError, .invalidArgument, .stalled]
  | .channelRead _ _ => [.ok, .transportError, .invalidArgument]
  | .sendFrame _ _ _ _ _ => [.ok, .transportError, .invalidArgument, .invalidLength]
  | .fgRegRead _ _ => [.ok, .transportError, .invalidArgument]
  | .fgRegWrite _ _ => [.ok, .transportError, .invalidArgument]
  | .fgSumlenRead => [.ok, .transportError]
  | .fgSumlenWrite _ _ => [.ok, .transportError]
  | .fgSendSubcommand _ => [.ok, .transportError]
  | .fgReadStd => [.ok, .transportError]
  | .fgReadExt _ _ => [.ok, .transportError, .invalidArgument]
  | .fgWriteExt _ _ _ _ => [.ok, .transportError, .protocolError, .invalidArgument]
  | .fgSeal => [.ok, .transportError]
  | .fgUnseal => [.ok, .transportError]
  | .fgEnterCfgUpdate => [.ok, .transportError]
  | .fgReset => [.ok, .transportError]

end Sys2Proof.Machine
end

