-- ==== Sys2Proof/Certificates/Slice0/Obligations.lean ====
section
/-! DEFINITION. The statements for the provers. Each docstring names the rule it formalises; a clause that rests on a choice of
the model says so and names its log entry. -/

open Sys2Proof Sys2Proof.Machine

/-! ### Encoding and stepping -/

/-- Decoding an encoded well-formed request gives the instruction back, whatever bytes follow it. The operand layout is the
model's choice (log 2); the codes are R112's and R93's. -/
def Obligations.DecodeInvertsEncode : Prop :=
  ∀ (i : Instr) (tail : List Byte), i.wf = true → decode i.port (encode i ++ tail) = .ok i

/-- Words of the opcode table read as the spec's encodings say: R93's control codes, R112's op-select codes. That a bare word R112
leaves unassigned (0x2F, 0x73, 0xEF) is read as a control code is the model's choice (log 3); that the operands a bare word has no bytes
for are zeros, and how zeros read as operands, is the model's layout (log 2). -/
def Obligations.TableWordsDecode : Prop :=
  decodeTableWord 8 0x2F = some (.sabm 0 false []) ∧ decodeTableWord 8 0x73 = some (.ua 0 true []) ∧
  decodeTableWord 8 0xEF = some (.uih 0 false []) ∧ decodeTableWord 8 0x07 = some (.onBytesReceived []) ∧
  decodeTableWord 8 0x09 = some (.sendFrame 0 .illegal false [] .none) ∧
  decodeTableWord 8 0x10 = some (.fgRegRead 0 0) ∧ decodeTableWord 8 0x17 = some (.fgWriteExt 0 0 0 false) ∧
  decodeTableWord 8 0x1B = some .fgReset ∧ decodeTableWord 8 0x0A = none

/-- R112: an unassigned op-select code returns `InvalidArgument` and changes nothing. -/
def Obligations.UnassignedCodesAreRefused : Prop :=
  ∀ (s : State) (code : Byte) (operands : List Byte) (rest : List Request),
    (0x09 < code.toNat ∧ code.toNat < 0x10 ∨ 0x1B < code.toNat) →
    s.requests = ⟨.command, code :: operands⟩ :: rest →
    step s = .next { s with requests := rest, result := some ⟨.invalidArgument, .none⟩ }

/-- A step takes the next request and runs the instruction it decodes to (R21, R77; the request list is the model's, log 1). -/
def Obligations.StepRunsDecodedRequest : Prop :=
  ∀ (s : State) (r : Request) (rest : List Request) (i : Instr),
    s.requests = r :: rest → decode r.port r.bytes = .ok i →
    step s = exec i { s with requests := rest }

/-- With no request nothing happens (R46). A request is answered with a next state that holds its result, the parameters and the
requests behind it; the machine stops only on bytes that are no operation (the model's choice, log 16). -/
def Obligations.StepAnswersEveryRequest : Prop :=
  ∀ s : State, (s.requests = [] → step s = .next s) ∧
    ∀ (r : Request) (rest : List Request), s.requests = r :: rest →
      if decode r.port r.bytes = .error .truncated ∨ decode r.port r.bytes = .error .notABit then
        step s = .fault .malformedRequest
      else ∃ t res, step s = .next t ∧ t.cfg = s.cfg ∧ t.requests = rest ∧ t.result = some res

/-- R310: power-on, with any parameters. `fg.raw` is left out: the spec leaves it unspecified. -/
def Obligations.PowerOnState : Prop :=
  (∃ c, State.reset = State.powerOn c) ∧
  ∀ c : Config, (State.powerOn c).mux = none ∧ (State.powerOn c).fg.macBuf = Vector.replicate 32 0 ∧
    (State.powerOn c).fg.lastReg = 0 ∧ (State.powerOn c).fg.lastSubCmd = 0 ∧
    (State.powerOn c).fg.lastChecksum = 0 ∧ (State.powerOn c).fg.lastCtrl = 0 ∧
    step (State.powerOn c) = .next (State.powerOn c)

/-! ### Frame Codec -/

/-- R146's receiver test: running `Crc8` on over the FCS byte gives 0xCF exactly when the byte is the FCS. -/
def Obligations.FcsReceiverTest : Prop :=
  ∀ (s : List Byte) (b : Byte), crc8 (s ++ [b]) = 0xCF ↔ b = fcs s

/-- R131 to R134: the frames of the four unnumbered types, with and without `P_LEN_ALL_TYPES`, and their errors. The row of a type
means `ENCODE` of that type (the model's reading, log 4). -/
def Obligations.UnnumberedFramesAreBuilt : Prop :=
  ∀ (s : State) (n : Nat) (pf : Bool),
    (n ≤ 61 →
      let f (a c : Byte) : List Byte :=
        if s.par.lenAllTypes then [0xF9, a, c, 0x01, fcs [a, c, 0x01], 0xF9] else [0xF9, a, c, fcs [a, c], 0xF9]
      let cmd : Byte := BitVec.ofNat 8 (4 * n + 3)
      let rsp : Byte := BitVec.ofNat 8 (4 * n + 1)
      exec (.sabm n pf []) s = .next { s with result := some ⟨.ok, .bytes (f cmd (if pf then 0x3F else 0x2F))⟩ } ∧
      exec (.ua n pf []) s = .next { s with result := some ⟨.ok, .bytes (f rsp (if pf then 0x73 else 0x63))⟩ } ∧
      exec (.dm n pf []) s = .next { s with result := some ⟨.ok, .bytes (f rsp (if pf then 0x1F else 0x0F))⟩ } ∧
      exec (.disc n pf []) s = .next { s with result := some ⟨.ok, .bytes (f cmd (if pf then 0x53 else 0x43))⟩ }) ∧
    (∀ info : List Byte, info.length ≤ s.par.maxInfoLen → (61 < n ∨ info ≠ []) →
      exec (.sabm n pf info) s = .next { s with result := some ⟨.invalidArgument, .none⟩ } ∧
      exec (.ua n pf info) s = .next { s with result := some ⟨.invalidArgument, .none⟩ } ∧
      exec (.dm n pf info) s = .next { s with result := some ⟨.invalidArgument, .none⟩ } ∧
      exec (.disc n pf info) s = .next { s with result := some ⟨.invalidArgument, .none⟩ }) ∧
    ∀ info : List Byte, exec (.encode n (.legal .sabm) pf info) s = exec (.sabm n pf info) s ∧
      exec (.encode n (.legal .ua) pf info) s = exec (.ua n pf info) s ∧
      exec (.encode n (.legal .dm) pf info) s = exec (.dm n pf info) s ∧
      exec (.encode n (.legal .disc) pf info) s = exec (.disc n pf info) s

/-- R135, R136: the frames of the two information types, with R95's and R96's length field, and their errors. The row of a type
means `ENCODE` of that type (the model's reading, log 4). -/
def Obligations.InformationFramesAreBuilt : Prop :=
  ∀ (s : State) (n : Nat) (pf : Bool) (info : List Byte),
    let lf : List Byte :=
      if info.length < 128 then [BitVec.ofNat 8 (2 * info.length + 1)]
      else [BitVec.ofNat 8 (2 * (info.length % 128)), BitVec.ofNat 8 (info.length / 128)]
    let a : Byte := BitVec.ofNat 8 (4 * n + 3)
    let f (c : Byte) : List Byte := [0xF9, a, c] ++ lf ++ info ++ [fcs ([a, c] ++ lf), 0xF9]
    let answer (c : Byte) : Result :=
      if s.par.maxInfoLen < info.length then ⟨.invalidLength, .none⟩
      else if 61 < n then ⟨.invalidArgument, .none⟩
      else ⟨.ok, .bytes (f c)⟩
    exec (.uih n pf info) s = .next { s with result := some (answer (if pf then 0xFF else 0xEF)) } ∧
    exec (.ui n pf info) s = .next { s with result := some (answer (if pf then 0x13 else 0x03)) } ∧
    exec (.encode n (.legal .uih) pf info) s = exec (.uih n pf info) s ∧
    exec (.encode n (.legal .ui) pf info) s = exec (.ui n pf info) s

/-- R137: the errors of `ENCODE` in their order, and no others; `InvalidLength` belongs to the `InvalidArgument` class. -/
def Obligations.EncodeErrorsInOrder : Prop :=
  Status.errorClass .invalidLength = some .invalidArgument ∧
  ∀ (s : State) (a : Nat) (t : FrameType) (pf : Bool) (info : List Byte),
    (s.par.maxInfoLen < info.length →
      exec (.encode a (.legal t) pf info) s = .next { s with result := some ⟨.invalidLength, .none⟩ }) ∧
    (info.length ≤ s.par.maxInfoLen →
      61 < a ∨ (t = .sabm ∨ t = .ua ∨ t = .dm ∨ t = .disc) ∧ info ≠ [] →
      exec (.encode a (.legal t) pf info) s = .next { s with result := some ⟨.invalidArgument, .none⟩ }) ∧
    (info.length ≤ s.par.maxInfoLen → a ≤ 61 → (t = .uih ∨ t = .ui ∨ info = []) →
      ∃ b, exec (.encode a (.legal t) pf info) s = .next { s with result := some ⟨.ok, .bytes b⟩ })

/-- A `type` operand outside the six is refused, by `ENCODE` and by `SEND_FRAME`, and so is a `wanted` operand outside the six and
`None` (R111's "one of"). That it is refused behind the length check, and for `wanted` before `ENCODE`'s checks, is the model's
choice (log 12). -/
def Obligations.IllegalOperandsAreRefused : Prop :=
  ∀ (s : State) (a : Nat) (pf : Bool) (info : List Byte) (w : Option FrameType) (t : TypeOperand),
    let refused : Host.Outcome State Fault Refusal := .next { s with
      result := some ⟨if s.par.maxInfoLen < info.length then .invalidLength else .invalidArgument, .none⟩ }
    exec (.encode a .illegal pf info) s = refused ∧
    (s.mux ≠ none → a ≤ s.par.maxChannels →
      exec (.sendFrame a .illegal pf info (match w with | none => .none | some v => .type v)) s = refused) ∧
    exec (.sendFrame a t pf info .illegal) s = .next { s with result := some ⟨.invalidArgument, .none⟩ }

/-- R103: the size of an encoded frame, by its format, and the document's bound of 8. -/
def Obligations.EncodedFrameSize : Prop :=
  ∀ (s : State) (a : Nat) (t : FrameType) (pf : Bool) (info b : List Byte),
    exec (.encode a (.legal t) pf info) s = .next { s with result := some ⟨.ok, .bytes b⟩ } →
    ((t = .uih ∨ t = .ui ∨ s.par.lenAllTypes = true) → info.length < 128 → b.length = info.length + 6) ∧
    ((t = .uih ∨ t = .ui ∨ s.par.lenAllTypes = true) → 128 ≤ info.length → b.length = info.length + 7) ∧
    (t ≠ .uih → t ≠ .ui → s.par.lenAllTypes = false → info = [] ∧ b.length = info.length + 5) ∧
    b.length ≤ info.length + 7 ∧ b.length ≤ info.length + 8

/-- R152: `ENCODE` and `PARSE` answer from their operands, `MAX_INFO_LEN` and `P_LEN_ALL_TYPES` alone, in every state, and write
nothing but the result. -/
def Obligations.CodecIsStateless : Prop :=
  ∀ s s' : State, s'.par.maxInfoLen = s.par.maxInfoLen → s'.par.lenAllTypes = s.par.lenAllTypes →
    (∀ (a : Nat) (t : TypeOperand) (pf : Bool) (info : List Byte), ∃ r : Result,
      exec (.encode a t pf info) s = .next { s with result := some r } ∧
      exec (.encode a t pf info) s' = .next { s' with result := some r }) ∧
    (∀ (buf : List Byte) (w : AddrFilter), ∃ r : Result,
      exec (.parse buf w) s = .next { s with result := some r } ∧
      exec (.parse buf w) s' = .next { s' with result := some r })

/-- R153: decoding an encoded frame gives the frame back and consumes all of it, whatever follows it. -/
def Obligations.ParseInvertsEncode : Prop :=
  ∀ (s : State) (a : Nat) (t : FrameType) (pf : Bool) (info b tail : List Byte),
    exec (.encode a (.legal t) pf info) s = .next { s with result := some ⟨.ok, .bytes b⟩ } →
    exec (.parse (b ++ tail) .any) s = .next { s with
      result := some ⟨.ok, .parsed b.length (some ⟨a, decide (t ≠ .ua ∧ t ≠ .dm), t, pf, info⟩)⟩ }

/-- R155: a proper non-empty part of an encoded frame is `Incomplete` and stays; the whole is the frame, once. -/
def Obligations.PartialFramesWait : Prop :=
  ∀ (s : State) (a : Nat) (t : FrameType) (pf : Bool) (info b : List Byte),
    exec (.encode a (.legal t) pf info) s = .next { s with result := some ⟨.ok, .bytes b⟩ } →
    (∀ k, 0 < k → k < b.length →
      exec (.parse (b.take k) .any) s = .next { s with result := some ⟨.incomplete, .parsed 0 none⟩ }) ∧
    exec (.parse b .any) s = .next { s with
      result := some ⟨.ok, .parsed b.length (some ⟨a, decide (t ≠ .ua ∧ t ≠ .dm), t, pf, info⟩)⟩ } ∧
    exec (.parse (b.drop b.length) .any) s = .next { s with result := some ⟨.notFound, .parsed 0 none⟩ }

/-- R150: what `PARSE` answers is what `parseBytes` finds; for every buffer and filter it reports never more consumed than there
is, for `Incomplete` the bytes before an opening flag, and for everything else at least one byte where there is one. -/
def Obligations.ParseConsumption : Prop :=
  ∀ (s : State) (buf : List Byte) (w : AddrFilter),
    let r := parseBytes s.par buf w
    exec (.parse buf w) s = .next { s with result := some ⟨r.status, .parsed r.consumed r.descriptor⟩ } ∧
    r.consumed ≤ buf.length ∧
    (r.status = .incomplete → (buf.drop r.consumed).head? = some flagByte) ∧
    (r.status ≠ .incomplete → buf ≠ [] → 1 ≤ r.consumed) ∧ (r.descriptor.isSome = true ↔ r.status = .ok)

/-- R139, R140: bytes before the first flag are consumed as noise, and so are all flags of a run but its last; with no flag all
bytes are. -/
def Obligations.NoiseAndFlagRunsAreConsumed : Prop :=
  ∀ (p : Params) (w : AddrFilter) (noise rest : List Byte), (∀ b ∈ noise, b ≠ flagByte) →
    parseBytes p noise w = .notFound noise.length ∧
    parseBytes p (noise ++ flagByte :: rest) w = (parseBytes p (flagByte :: rest) w).shift noise.length ∧
    parseBytes p (flagByte :: flagByte :: rest) w = (parseBytes p (flagByte :: rest) w).shift 1

/-- R143 to R145 (and R141 for the body): the length decides first. Too long: only the flag goes. Too few bytes: `Incomplete`. No
flag at the end: only the opening flag goes. -/
def Obligations.ExtentIsCheckedFirst : Prop :=
  ∀ (p : Params) (w : AddrFilter) (a c : Byte) (lf body : List Byte) (n : Nat),
    a ≠ flagByte → LengthBytes p c lf n →
    (p.maxInfoLen < n → parseBytes p ([flagByte, a, c] ++ lf ++ body) w = .malformed 1) ∧
    (n ≤ p.maxInfoLen → body.length < n + 2 → parseBytes p ([flagByte, a, c] ++ lf ++ body) w = .incomplete 0) ∧
    (n ≤ p.maxInfoLen → n + 2 ≤ body.length → body[n + 1]? ≠ some flagByte →
      parseBytes p ([flagByte, a, c] ++ lf ++ body) w = .malformed 1)

/-- R146 to R149: the judgement on a delimited frame, in order: FCS, then EA bit, address, type and stray length, then the filter.
Every answer consumes the whole frame. -/
def Obligations.DelimitedFramesAreJudged : Prop :=
  ∀ (p : Params) (w : AddrFilter) (a c x : Byte) (lf info tail : List Byte),
    a ≠ flagByte → LengthBytes p c lf info.length → info.length ≤ p.maxInfoLen →
    let buf := [flagByte, a, c] ++ lf ++ info ++ [x, flagByte]
    let r := parseBytes p (buf ++ tail) w
    (x ≠ fcs ([a, c] ++ lf) → r = .fcsError buf.length) ∧
    (x = fcs ([a, c] ++ lf) →
      (a.getLsbD 0 = false ∨ 61 < a.toNat / 4 ∨ FrameType.ofCode (c &&& 0xEF) = none ∨
        (c &&& 0xEF ≠ 0xEF ∧ c &&& 0xEF ≠ 0x03 ∧ info ≠ []) → r = .malformed buf.length) ∧
      ∀ t : FrameType, FrameType.ofCode (c &&& 0xEF) = some t → a.getLsbD 0 = true → a.toNat / 4 ≤ 61 →
        (t = .uih ∨ t = .ui ∨ info = []) →
        r = if w = .any ∨ w = .id (a.toNat / 4)
          then .frame buf.length ⟨a.toNat / 4, a.getLsbD 1, t, c.getLsbD 4, info⟩ else .notFound buf.length)

/-- R154, as the rules give it: a change of the address byte that does not make it a flag, of the P/F bit or of the FCS byte is
`FcsError`; a flip of any bit of address, control or length is never a frame of the original extent. The exception for a flag is the
model's reading (log 23): an address byte flipped into a flag joins the flag run (R140). -/
def Obligations.CorruptHeadersAreRejected : Prop :=
  ∀ (s : State) (a : Nat) (t : FrameType) (pf : Bool) (info b tail : List Byte) (x : Byte),
    exec (.encode a (.legal t) pf info) s = .next { s with result := some ⟨.ok, .bytes b⟩ } →
    (x ≠ flagByte → b[1]? ≠ some x →
      parseBytes s.par (b.set 1 x ++ tail) .any = .fcsError b.length) ∧
    (parseBytes s.par (b.set 2 (b.getD 2 0 ^^^ 0x10) ++ tail) .any = .fcsError b.length) ∧
    (b[b.length - 2]? ≠ some x →
      parseBytes s.par (b.set (b.length - 2) x ++ tail) .any = .fcsError b.length) ∧
    ∀ k j f, 1 ≤ k → k + info.length + 2 < b.length → j < 8 →
      parseBytes s.par (b.set k (b.getD k 0 ^^^ (1#8 <<< j)) ++ tail) .any ≠ .frame b.length f

/-- R148: the address filter comes last. It turns a frame for another address into `NotFound` that consumes the frame, and changes
no other answer. -/
def Obligations.AddressFilterComesLast : Prop :=
  ∀ (p : Params) (buf : List Byte) (w : Nat),
    parseBytes p buf (.id w) =
      match parseBytes p buf .any with
      | .frame n f => if w = f.address then .frame n f else .notFound n
      | .notFound n => .notFound n
      | .incomplete n => .incomplete n
      | .fcsError n => .fcsError n
      | .malformed n => .malformed n

/-- R151: the result depends on the byte sequence, through `Used` and `Peek` below it, and not on how it is stored. -/
def Obligations.ParseIsSourceAgnostic : Prop :=
  (∀ (p : Params) (w : AddrFilter) (n : Nat) (peek peek' : Nat → Byte), (∀ i < n, peek i = peek' i) →
    parseSource p n peek w = parseSource p n peek' w) ∧
  ∀ (p : Params) (w : AddrFilter) (q : Fifo), parseFifo p q w = parseBytes p q.data w

/-! ### Channel Manager: life cycle -/

/-- R170: `MUX_ENABLE` creates the context, and refuses where there is one. -/
def Obligations.MuxEnableCreatesContext : Prop :=
  ∀ s : State,
    (s.mux = none → ∃ m, exec .muxEnable s = .next { s with mux := some m, result := some ⟨.ok, .none⟩ } ∧
      m.rx = ⟨s.par.muxRxbufCap, []⟩ ∧ m.hold = ⟨s.par.holdCap, []⟩ ∧ m.ch.length = s.par.maxChannels + 1 ∧
      ∀ n ≤ s.par.maxChannels, m.ch[n]? = some ⟨n, .null, ⟨0, []⟩, false, false, none, 0⟩) ∧
    (s.mux ≠ none → exec .muxEnable s = .next { s with result := some ⟨.invalidArgument, .none⟩ })

/-- R171: `MUX_DISABLE` destroys the context and sends nothing, and every handle is invalid after it; it refuses where there is
no context. -/
def Obligations.MuxDisableDestroysContext : Prop :=
  ∀ s : State,
    (s.mux ≠ none → ∃ t, t = { s with mux := none, result := some ⟨.ok, .none⟩ } ∧ exec .muxDisable s = .next t ∧
      ∀ h : Nat,
        exec (.closeChannel h) t = .next { t with result := some ⟨.invalidArgument, .none⟩ } ∧
        (∀ d, ∃ o, exec (.write h d) t = .next { t with result := some ⟨.invalidArgument, o⟩ }) ∧
        ∀ k, exec (.channelRead h k) t = .next { t with result := some ⟨.invalidArgument, .none⟩ }) ∧
    (s.mux = none → exec .muxDisable s = .next { s with result := some ⟨.invalidArgument, .none⟩ })

/-- R196: with no context every operation of the Channel Manager but `MUX_ENABLE` returns `InvalidArgument` with no other effect,
and `ENCODE` and `PARSE` answer as they do with one. -/
def Obligations.NoContextRefusesOperations : Prop :=
  ∀ s : State, s.mux = none →
    exec .muxDisable s = .next { s with result := some ⟨.invalidArgument, .none⟩ } ∧
    (∀ n h, exec (.openChannel n h) s = .next { s with result := some ⟨.invalidArgument, .none⟩ }) ∧
    (∀ h, exec (.closeChannel h) s = .next { s with result := some ⟨.invalidArgument, .none⟩ }) ∧
    (∀ h b, ∃ o, exec (.write h b) s = .next { s with result := some ⟨.invalidArgument, o⟩ }) ∧
    (∀ b, exec (.onBytesReceived b) s = .next { s with result := some ⟨.invalidArgument, .accepted 0⟩ }) ∧
    (∀ h m, exec (.channelRead h m) s = .next { s with result := some ⟨.invalidArgument, .none⟩ }) ∧
    (∀ n t pf info w, exec (.sendFrame n t pf info w) s = .next { s with result := some ⟨.invalidArgument, .none⟩ }) ∧
    ∀ m : Mux,
      (∀ a t pf info, ∃ r : Result, exec (.encode a t pf info) s = .next { s with result := some r } ∧
        exec (.encode a t pf info) { s with mux := some m } = .next { s with mux := some m, result := some r }) ∧
      ∀ buf w, ∃ r : Result, exec (.parse buf w) s = .next { s with result := some r } ∧
        exec (.parse buf w) { s with mux := some m } = .next { s with mux := some m, result := some r }

/-- R172, R47: `OPEN_CHANNEL`, its errors in order, and the fresh traffic record; `wanted` stays. -/
def Obligations.OpenChannelOpens : Prop :=
  ∀ (s : State) (n : Nat) (hs : Bool),
    (s.mux = none ∨ 61 < n →
      exec (.openChannel n hs) s = .next { s with result := some ⟨.invalidArgument, .none⟩ }) ∧
    (s.mux ≠ none → n ≤ 61 → s.par.maxChannels < n →
      exec (.openChannel n hs) s = .next { s with result := some ⟨.resourceExhausted, .none⟩ }) ∧
    (s.mux ≠ none → n ≤ s.par.maxChannels →
      ((s.chan n).state ≠ .null →
        exec (.openChannel n hs) s = .next { s with result := some ⟨.alreadyOpen, .none⟩ }) ∧
      ((s.chan n).state = .null → hs = false →
        exec (.openChannel n hs) s = .next { s with result := some ⟨.protocolError, .none⟩ }) ∧
      ((s.chan n).state = .null → hs = true → ∃ t, exec (.openChannel n hs) s = .next t ∧
        t.result = some ⟨.ok, .handle n⟩ ∧
        t.chan n = ⟨(s.chan n).id, .opened, ⟨s.par.chRxbufCap, []⟩, false, false, (s.chan n).wanted, 0⟩ ∧
        s.SameButChannel t n ∧ s.SameOutsideCmux t ∧ t.env = s.env ∧ t.out = s.out))

/-- R173: `CLOSE_CHANNEL` sends the DISC that `ENCODE n, DISC, 1, []` builds; the channel changes only where the link took it
whole (R176). -/
def Obligations.CloseChannelSendsDisc : Prop :=
  ∀ (s : State) (n : Nat),
    (s.mux = none ∨ s.par.maxChannels < n ∨ (s.chan n).state ≠ .opened →
      exec (.closeChannel n) s = .next { s with result := some ⟨.invalidArgument, .none⟩ }) ∧
    (s.mux ≠ none → n ≤ s.par.maxChannels → (s.chan n).state = .opened → ∃ b t,
      exec (.encode n (.legal .disc) true []) s = .next { s with result := some ⟨.ok, .bytes b⟩ } ∧
      exec (.closeChannel n) s = .next t ∧
      t.out = s.out ++ [.linkWrite b s.takeLinkReply.1] ∧ t.env = s.takeLinkReply.2.env ∧
      s.SameButChannel t n ∧ s.SameOutsideCmux t ∧
      (s.takeLinkReply.1.covers b.length = true → t.result = some ⟨.ok, .none⟩ ∧
        t.chan n = { s.chan n with state := .openDisconnected, wanted := some .ua }) ∧
      (s.takeLinkReply.1.covers b.length = false → t.result = some ⟨.transportError, .none⟩ ∧ t.chan n = s.chan n))

/-! ### Channel Manager: sending -/

/-- R174: `WRITE` sends the first `MAX_INFO_LEN` bytes at most in one UIH frame, holds back while the peer has stopped the channel,
sends nothing for no bytes, and changes no state of the block. -/
def Obligations.WriteSendsOneFrame : Prop :=
  ∀ (s : State) (n : Nat) (data : List Byte),
    (s.mux = none ∨ n = 0 ∨ s.par.maxChannels < n ∨ (s.chan n).state ≠ .opened →
      ∃ o, exec (.write n data) s = .next { s with result := some ⟨.invalidArgument, o⟩ }) ∧
    (s.mux ≠ none → 1 ≤ n → n ≤ s.par.maxChannels → (s.chan n).state = .opened →
      ((s.chan n).txIsFlowControlledOff = true →
        ∃ o, exec (.write n data) s = .next { s with result := some ⟨.flowControlled, o⟩ }) ∧
      ((s.chan n).txIsFlowControlledOff = false →
        let k := min data.length s.par.maxInfoLen
        (k = 0 → exec (.write n data) s = .next { s with result := some ⟨.ok, .bytesWritten 0⟩ }) ∧
        (0 < k → ∃ b,
          exec (.encode n (.legal .uih) false (data.take k)) s = .next { s with result := some ⟨.ok, .bytes b⟩ } ∧
          exec (.write n data) s = .next { s with
            env := s.takeLinkReply.2.env
            out := s.out ++ [.linkWrite b s.takeLinkReply.1]
            result := some (if s.takeLinkReply.1.covers b.length then ⟨.ok, .bytesWritten k⟩
              else ⟨.transportError, .bytesWritten 0⟩) })))

/-- R175: `SEND_FRAME` returns `ENCODE`'s error, or sends the frame `ENCODE` builds and then sets `wanted`; neither the channel's
state nor its flow flag is looked at. -/
def Obligations.SendFrameArmsWanted : Prop :=
  ∀ (s : State) (n : Nat) (ty : TypeOperand) (pf : Bool) (info : List Byte) (w : WantedOperand),
    (s.mux = none ∨ s.par.maxChannels < n →
      exec (.sendFrame n ty pf info w) s = .next { s with result := some ⟨.invalidArgument, .none⟩ }) ∧
    ∀ v : Option FrameType, (v = none ∧ w = .none ∨ ∃ t, v = some t ∧ w = .type t) →
      s.mux ≠ none → n ≤ s.par.maxChannels →
      (∃ e, exec (.encode n ty pf info) s = .next { s with result := some ⟨e, .none⟩ } ∧
        exec (.sendFrame n ty pf info w) s = .next { s with result := some ⟨e, .none⟩ }) ∨
      (∃ b t, exec (.encode n ty pf info) s = .next { s with result := some ⟨.ok, .bytes b⟩ } ∧
        exec (.sendFrame n ty pf info w) s = .next t ∧
        t.out = s.out ++ [.linkWrite b s.takeLinkReply.1] ∧ t.env = s.takeLinkReply.2.env ∧
        s.SameButChannel t n ∧ s.SameOutsideCmux t ∧
        (s.takeLinkReply.1.covers b.length = true →
          t.result = some ⟨.ok, .none⟩ ∧ t.chan n = { s.chan n with wanted := v }) ∧
        (s.takeLinkReply.1.covers b.length = false →
          t.result = some ⟨.transportError, .none⟩ ∧ t.chan n = s.chan n))

/-! ### Channel Manager: receiving -/

/-- R177: with a context `ON_BYTES_RECEIVED` always completes; it takes what fits `mux.rx`, and its status is `Ok`,
`TransportError`, or `Stalled`, the last only where overflow is not discarded (R181). What it does is decided by what `PARSE` finds at
the front of the buffer. A bad frame is logged (R277, R279) and dropped as far as `PARSE` says, a frame that need not stall is
dispatched (R178), and in both cases the operation goes on as it would with no more bytes offered; the first status that is not `Ok`
is kept. A frame that must stall ends it, with the frame's opening flag at the head of `mux.rx` (R23; that noise in front of the flag
is dropped first is the model's reading, log 11). -/
def Obligations.ReceiveAnswers : Prop :=
  ∀ (s : State) (data : List Byte), s.mux ≠ none →
    let k := min data.length (s.muxRx.cap - s.muxRx.data.length)
    let buf := s.muxRx.data ++ data.take k
    let left (n : Nat) : State := s.setMuxRx ⟨s.muxRx.cap, buf.drop n⟩
    let logged (n : Nat) (e : LogEntry) : State := { left n with out := s.out ++ [.log e] }
    let ends (u : State) (st : Status) : Prop :=
      exec (.onBytesReceived data) s = .next { u with result := some ⟨st, .accepted k⟩ }
    let goesOn (u : State) (st : Status) : Prop := ∃ t st',
      exec (.onBytesReceived []) u = .next t ∧ t.result = some ⟨st', .accepted 0⟩ ∧ ends t (if st = .ok then st' else st)
    (∃ t st, exec (.onBytesReceived data) s = .next t ∧ t.result = some ⟨st, .accepted k⟩ ∧
      (st = .ok ∨ st = .transportError ∨ st = .stalled ∧ s.par.discardOnOverflow = false) ∧
      t.enabled = true ∧ s.SameOutsideCmux t ∧ t.env.bus = s.env.bus ∧ t.muxRx.cap = s.muxRx.cap) ∧
    match parseBytes s.par buf .any with
    | .incomplete n => ends (left n) .ok
    | .notFound n => n = buf.length ∧ ends (left n) .ok
    | .fcsError n => goesOn (logged n .protocolFcsError) .ok
    | .malformed n => goesOn (logged n .protocolMalformed) .ok
    | .frame n f =>
      (¬s.Stalls f → goesOn ((left n).dispatch f).2 ((left n).dispatch f).1) ∧
      (s.Stalls f → ∃ o ≤ n, parseBytes s.par (buf.drop o) .any = .frame (n - o) f ∧ StartsAtFlag (buf.drop o) ∧
        ends (left o) .stalled)

/-- R177, R178: one whole frame that arrives in an empty buffer, and is not stalled, is dispatched once, and nothing else happens. -/
def Obligations.OneFrameIsDispatched : Prop :=
  ∀ (s : State) (f : Frame), s.mux ≠ none → s.muxRx.data = [] → f.Sendable s.par →
    (f.wire s.par).length ≤ s.muxRx.cap → ¬s.Stalls f →
    exec (.onBytesReceived (f.wire s.par)) s = .next { (s.dispatch f).2 with
      result := some ⟨(s.dispatch f).1, .accepted (f.wire s.par).length⟩ }

/-- R179, R180: a UIH frame for an open data channel stores what fits, in order, counts and logs a loss, raises DATA where a byte
was stored, and then evaluates flow control. -/
def Obligations.DeliveryStoresAndCounts : Prop :=
  ∀ (s : State) (f : Frame), s.mux ≠ none → f.type = .uih → 1 ≤ f.address → f.address ≤ s.par.maxChannels →
    (s.chan f.address).state = .opened →
    let c := s.chan f.address
    let w := min f.information.length (c.rx.cap - c.rx.data.length)
    let lost := f.information.length - w
    ∃ t, s.dispatch f = t.evalRxFlow f.address ∧
      t.chan f.address = { c with
        rx := ⟨c.rx.cap, c.rx.data ++ f.information.take w⟩
        overflowCount := c.overflowCount + if 0 < lost then 1 else 0 } ∧
      t.out = s.out ++ (if 0 < lost then [.log (.overflow f.address lost)] else []) ++
        (if 0 < w then [.event f.address 0x01] else []) ∧
      s.SameButChannel t f.address ∧ s.SameOutsideCmux t ∧ t.env = s.env ∧ t.result = s.result

/-- R181: a frame that must stall stays whole; the offered bytes queue behind it, and nothing is delivered, sent or logged. Its opening
flag stands at the head of `mux.rx` then (R23): that noise in front of it is dropped is the model's reading (log 11). -/
def Obligations.StalledFrameStays : Prop :=
  ∀ (s : State) (f : Frame) (noise behind data : List Byte), s.mux ≠ none → f.Sendable s.par →
    (∀ b ∈ noise, b ≠ 0xF9) → s.muxRx.data = noise ++ f.wire s.par ++ behind → s.Stalls f → ∃ t,
    let k := min data.length (s.muxRx.cap - s.muxRx.data.length)
    exec (.onBytesReceived data) s = .next t ∧
    t.result = some ⟨.stalled, .accepted k⟩ ∧
    t.muxRx = ⟨s.muxRx.cap, f.wire s.par ++ behind ++ data.take k⟩ ∧ t.muxHold = s.muxHold ∧
    (∀ n, t.chan n = s.chan n) ∧ s.SameOutsideCmux t ∧ t.env = s.env ∧ t.out = s.out

/-- R182, R192: the four rows of the receive flow-control machine. The MSC frame must fit `MAX_INFO_LEN` (log 10). -/
def Obligations.RxFlowFollowsTheTable : Prop :=
  ∀ (s : State) (n : Nat), s.mux ≠ none → 4 ≤ s.par.maxInfoLen →
    let off := (s.chan n).rxIsFlowControlledOff
    let fill := (s.chan n).rx.data.length * 100
    let high := s.par.fcHighPct * s.par.chRxbufCap
    let low := s.par.fcLowPct * s.par.chRxbufCap
    (off = false ∧ fill < high ∨ off = true ∧ low < fill → s.evalRxFlow n = (.ok, s)) ∧
    (off = false ∧ high ≤ fill ∨ off = true ∧ fill ≤ low → ∃ b t st,
      exec (.encode 0 (.legal .uih) false
        [0xE3, 0x05, BitVec.ofNat 8 (4 * n + 3), if off then 0x8D else 0x8F]) s =
          .next { s with result := some ⟨.ok, .bytes b⟩ } ∧
      s.evalRxFlow n = (st, t) ∧ t.env = s.takeLinkReply.2.env ∧ t.result = s.result ∧
      s.SameButChannel t n ∧ s.SameOutsideCmux t ∧
      (s.takeLinkReply.1.covers b.length = true → st = .ok ∧
        t.chan n = { s.chan n with rxIsFlowControlledOff := !off } ∧
        t.out = s.out ++ [.linkWrite b s.takeLinkReply.1, .event n 0x02]) ∧
      (s.takeLinkReply.1.covers b.length = false → st = .transportError ∧ t.chan n = s.chan n ∧
        t.out = s.out ++ [.linkWrite b s.takeLinkReply.1, .log (.transportMsc n)]))

/-- R184, R185, R186: an MSC command from the peer, with or without a break byte, whole or completed from the holding buffer, sets the
transmit flag, raises FLOW where it changed, and is echoed where `P_MSC_ECHO` says so; then the loop goes on with what stands behind
it, and an echo that failed decides the status. The echo must fit `MAX_INFO_LEN` (log 10). -/
def Obligations.PeerMscSetsTransmitFlag : Prop :=
  ∀ (s : State) (info : List Byte) (l v0 v1 : Byte) (vs more : List Byte), s.mux ≠ none →
    l.getLsbD 0 = true → l.toNat / 2 = 2 + vs.length → 4 + vs.length ≤ s.par.maxInfoLen →
    s.muxHold.data ++ info = [0xE3, l, v0, v1] ++ vs ++ more → (s.muxHold.data ++ info).length ≤ s.muxHold.cap →
    let d := v0.toNat / 4
    let fc := v1.getLsbD 1
    ∃ t u st, t.muxRx = s.muxRx ∧ t.muxHold = ⟨s.muxHold.cap, []⟩ ∧ t.enabled = true ∧ s.SameOutsideCmux t ∧
      t.env = s.env ∧ t.result = s.result ∧ (∀ k, k ≠ d → t.chan k = s.chan k) ∧
      (1 ≤ d ∧ d ≤ s.par.maxChannels →
        t.chan d = { s.chan d with txIsFlowControlledOff := fc } ∧
        t.out = s.out ++ if (s.chan d).txIsFlowControlledOff = fc then [] else [.event d 0x02]) ∧
      (d = 0 ∨ s.par.maxChannels < d → t.chan d = s.chan d ∧ t.out = s.out ++ [.log (.ctrlChannelId d)]) ∧
      (s.par.mscEcho = false → u = t ∧ st = .ok) ∧
      (s.par.mscEcho = true → ∃ b,
        exec (.encode 0 (.legal .uih) false ([0xE1, l, v0, v1] ++ vs)) s =
          .next { s with result := some ⟨.ok, .bytes b⟩ } ∧
        (u, st) = if s.takeLinkReply.1.covers b.length
          then ({ t with env := s.takeLinkReply.2.env, out := t.out ++ [.linkWrite b s.takeLinkReply.1] }, .ok)
          else ({ t with
            env := s.takeLinkReply.2.env
            out := t.out ++ [.linkWrite b s.takeLinkReply.1, .log .transportMscEcho] }, .transportError)) ∧
      (more = [] → s.controlData info = (st, u)) ∧
      s.controlData info = (if st = .ok then (u.controlData more).1 else st, (u.controlData more).2)

/-- R184: control data that does not fit empties the holding buffer; an EA bit of 0 empties it; a message that is no MSC is dropped
with a log entry, a response to our own MSC without one, and the loop goes on with what stands behind it; an incomplete message
waits. -/
def Obligations.OtherControlDataIsDropped : Prop :=
  ∀ (s : State) (info : List Byte), s.mux ≠ none →
    let after (d : List Byte) (l : List TraceEntry) : State :=
      { s.setMuxHold ⟨s.muxHold.cap, d⟩ with out := s.out ++ l }
    (s.muxHold.data = [] → s.controlData [] = (.ok, s)) ∧
    (s.muxHold.cap - s.muxHold.data.length < info.length → s.controlData info = (.ok, after [] [.log .holdOverflow])) ∧
    ((s.muxHold.data ++ info).length ≤ s.muxHold.cap →
      ((s.muxHold.data ++ info).length < 2 → s.controlData info = (.ok, after (s.muxHold.data ++ info) [])) ∧
      ∀ (t l : Byte) (v : List Byte), s.muxHold.data ++ info = t :: l :: v →
        (t.getLsbD 0 = false ∨ l.getLsbD 0 = false → s.controlData info = (.ok, after [] [.log .ctrlFormat])) ∧
        (t.getLsbD 0 = true → l.getLsbD 0 = true →
          (v.length < l.toNat / 2 → s.controlData info = (.ok, after (t :: l :: v) [])) ∧
          ∀ val more : List Byte, v = val ++ more → val.length = l.toNat / 2 →
            ((t ≠ 0xE1 ∧ t ≠ 0xE3) ∨ val.length < 2 →
              s.controlData info = (after [] [.log (.ctrlUnsupported t)]).controlData more) ∧
            (t = 0xE1 → 2 ≤ val.length → s.controlData info = (after [] []).controlData more)))

/-- R187, R188, R189: what a received frame does that is no data for an open channel: it answers the wanted type, disconnects an
open channel, or is logged. -/
def Obligations.OtherFramesAnswerOrDisconnect : Prop :=
  ∀ (s : State) (f : Frame), s.mux ≠ none →
    (s.par.maxChannels < f.address →
      s.dispatch f = (.ok, { s with out := s.out ++ [.log (.unknownChannel f.address)] })) ∧
    (f.address ≤ s.par.maxChannels → f.type = .uih → (s.chan f.address).state ≠ .opened →
      s.dispatch f = (.ok, { s with out := s.out ++ [.log (.notOpen f.address)] })) ∧
    (f.address ≤ s.par.maxChannels → f.type ≠ .uih →
      let c := s.chan f.address
      let answers := c.wanted = some f.type
      let cuts := (f.type = .disc ∨ f.type = .dm) ∧ c.state = .opened
      (¬answers → ¬cuts →
        s.dispatch f = (.ok, { s with out := s.out ++ [.log (.unexpectedFrame f.address f.type)] })) ∧
      (answers ∨ cuts → ∃ t mask, s.dispatch f = (.ok, t) ∧
        t.out = s.out ++ [.event f.address mask] ∧ t.env = s.env ∧ t.result = s.result ∧
        s.SameButChannel t f.address ∧ s.SameOutsideCmux t ∧
        (answers → ¬cuts → mask = 0x08 ∧ t.chan f.address = { c with wanted := none }) ∧
        (¬answers → cuts → mask = 0x04 ∧ t.chan f.address = { c with state := .openDisconnected }) ∧
        (answers → cuts → mask = 0x0C ∧
          t.chan f.address = { c with state := .openDisconnected, wanted := none })))

/-- R190: `CHANNEL_READ` takes the oldest bytes; on an open channel it then evaluates flow control, whose status it returns; on a
disconnected one it does not. -/
def Obligations.ChannelReadTakesOldest : Prop :=
  ∀ (s : State) (n k : Nat),
    (s.mux = none ∨ n = 0 ∨ s.par.maxChannels < n ∨ (s.chan n).state = .null →
      exec (.channelRead n k) s = .next { s with result := some ⟨.invalidArgument, .none⟩ }) ∧
    (s.mux ≠ none → 1 ≤ n → n ≤ s.par.maxChannels → (s.chan n).state ≠ .null → ∃ u,
      u.chan n = { s.chan n with rx := ⟨(s.chan n).rx.cap, (s.chan n).rx.data.drop k⟩ } ∧
      s.SameButChannel u n ∧ s.SameOutsideCmux u ∧ u.env = s.env ∧ u.out = s.out ∧
      ((s.chan n).state = .openDisconnected → exec (.channelRead n k) s =
        .next { u with result := some ⟨.ok, .bytes ((s.chan n).rx.data.take k)⟩ }) ∧
      ((s.chan n).state = .opened → exec (.channelRead n k) s = .next { (u.evalRxFlow n).2 with
        result := some ⟨(u.evalRxFlow n).1, .bytes ((s.chan n).rx.data.take k)⟩ }))

/-! ### Channel Manager: the whole machine -/

/-- R45: the invariant is kept by every step. -/
def Obligations.StepKeepsInvariant : Prop :=
  ∀ s t : State, s.Inv → step s = .next t → t.Inv

/-- R45: the invariant holds after reset. -/
def Obligations.ResetHasInvariant : Prop := State.reset.Inv

/-- R28, R45, R191: while the context lives a channel keeps its state, or goes from `NULL` to `OPEN` by its own `OPEN_CHANNEL` with
a good handshake, or from `OPEN` to `OPEN_DISCONNECTED` by its own `CLOSE_CHANNEL` or by received bytes. -/
def Obligations.ChannelStatesFollowTheTable : Prop :=
  ∀ (i : Instr) (s t : State) (n : Nat), exec i s = .next t → s.mux ≠ none → t.mux ≠ none →
    (t.chan n).state = (s.chan n).state ∨
    (i = .openChannel n true ∧ (s.chan n).state = .null ∧ (t.chan n).state = .opened) ∨
    ((i = .closeChannel n ∨ ∃ d, i = .onBytesReceived d) ∧
      (s.chan n).state = .opened ∧ (t.chan n).state = .openDisconnected)

/-- R31, R182: outside context creation, teardown and `OPEN_CHANNEL`, the receive flow flag of a channel changes only where an MSC
frame that announces its new value was written whole and the FLOW event raised. -/
def Obligations.RxFlowChangesAreAnnounced : Prop :=
  ∀ (i : Instr) (s t : State) (n : Nat), exec i s = .next t →
    i ≠ .muxEnable → i ≠ .muxDisable → (∀ h, i ≠ .openChannel n h) →
    (t.chan n).rxIsFlowControlledOff ≠ (s.chan n).rxIsFlowControlledOff →
    ∃ new b r, t.out = s.out ++ new ∧ .event n 0x02 ∈ new ∧ .linkWrite b r ∈ new ∧ r.covers b.length = true ∧
      b = Frame.wire s.par ⟨0, true, .uih, false,
        [0xE3, 0x05, BitVec.ofNat 8 (4 * n + 3), if (t.chan n).rxIsFlowControlledOff then 0x8F else 0x8D]⟩

/-- R23, R83: after `ON_BYTES_RECEIVED` the receive buffer is empty, or starts with the opening flag of an incomplete frame or of a
stalled one; and between operations it is empty or starts with an opening flag, which every operation keeps. That noise in front of a
stalled frame is dropped, as R23 needs it, where R177's pseudocode does not say so, is the model's reading (log 11). -/
def Obligations.ReceiveBufferSettles : Prop :=
  (∀ (s t : State) (data : List Byte), s.mux ≠ none → exec (.onBytesReceived data) s = .next t → t.RxSettled) ∧
  ∀ (i : Instr) (s t : State), exec i s = .next t → StartsAtFlag s.muxRx.data → StartsAtFlag t.muxRx.data

/-- R155, R80: bytes that fit and arrive in two parts have the effect of the same bytes in one, but for the result; whether overflow
is discarded or stalls makes no difference. -/
def Obligations.ReceiveInPieces : Prop :=
  ∀ (s t u v : State) (xs ys : List Byte), s.mux ≠ none →
    xs.length + ys.length ≤ s.muxRx.cap - s.muxRx.data.length →
    exec (.onBytesReceived xs) s = .next t → exec (.onBytesReceived ys) t = .next u →
    exec (.onBytesReceived (xs ++ ys)) s = .next v →
    { v with result := none } = { u with result := none }

/-! ### FG unit -/

/-- R220: `FG_REG_READ` under every answer of the device. -/
def Obligations.RegisterRead : Prop :=
  ∀ (s : State) (reg : Byte) (n : Nat),
    (n < 1 ∨ 32 < n → exec (.fgRegRead reg n) s = .next { s with
      out := s.out ++ [.log (.invalidLength n)], result := some ⟨.invalidArgument, .none⟩ }) ∧
    (1 ≤ n → n ≤ 32 →
      let dev := s.par.fgDevAddr
      let after (rest : List BusReply) (new : List TraceEntry) (r : Result) : State := { s with
        fg := { s.fg with lastReg := reg }
        env := { s.env with bus := rest }
        out := s.out ++ new
        result := some r }
      (∀ x d rest, s.env.bus = .ok x :: .ok d :: rest → d.length = n → exec (.fgRegRead reg n) s = .next (after rest
        [.busWrite dev [reg] true, .busRead dev n (some d), .delay s.par.fgTSettle] ⟨.ok, .bytes d⟩)) ∧
      (∀ x rest, s.env.bus = .ok x :: .error :: rest → exec (.fgRegRead reg n) s = .next (after rest
        [.busWrite dev [reg] true, .busRead dev n none] ⟨.transportError, .none⟩)) ∧
      (∀ rest, s.env.bus = .error :: rest → exec (.fgRegRead reg n) s = .next (after rest
        [.busWrite dev [reg] false] ⟨.transportError, .none⟩)))

/-- R221: `FG_REG_WRITE` under every answer of the device. -/
def Obligations.RegisterWrite : Prop :=
  ∀ (s : State) (reg : Byte) (data : List Byte),
    (data.length < 1 ∨ 34 < data.length → exec (.fgRegWrite reg data) s = .next { s with
      out := s.out ++ [.log (.invalidLength data.length)], result := some ⟨.invalidArgument, .none⟩ }) ∧
    (1 ≤ data.length → data.length ≤ 34 →
      let dev := s.par.fgDevAddr
      let after (rest : List BusReply) (new : List TraceEntry) (r : Result) : State := { s with
        fg := { s.fg with lastReg := reg }
        env := { s.env with bus := rest }
        out := s.out ++ new
        result := some r }
      (∀ x rest, s.env.bus = .ok x :: rest → exec (.fgRegWrite reg data) s = .next (after rest
        [.busWrite dev (reg :: data) true, .delay s.par.fgTSettle] ⟨.ok, .none⟩)) ∧
      (∀ rest, s.env.bus = .error :: rest → exec (.fgRegWrite reg data) s = .next (after rest
        [.busWrite dev (reg :: data) false] ⟨.transportError, .none⟩)))

/-- R222, R223: the checksum and length registers are accessed checksum first; a written checksum is recorded even where the write
fails; at the first transfer that fails the operation ends. -/
def Obligations.ChecksumAndLengthRegisters : Prop :=
  ∀ (s : State) (sum len : Byte) (rest : List BusReply),
    let p := s.par
    let after (reg last : Byte) (new : List TraceEntry) (r : Result) : State := { s with
      fg := { s.fg with lastReg := reg, lastChecksum := last }
      env := { s.env with bus := rest }
      out := s.out ++ new
      result := some r }
    let got (reg a : Byte) : List TraceEntry :=
      [.busWrite p.fgDevAddr [reg] true, .busRead p.fgDevAddr 1 (some [a]), .delay p.fgTSettle]
    let put (reg a : Byte) : List TraceEntry := [.busWrite p.fgDevAddr [reg, a] true, .delay p.fgTSettle]
    (∀ a b x y, s.env.bus = .ok x :: .ok [a] :: .ok y :: .ok [b] :: rest → exec .fgSumlenRead s = .next (after p.fgRegMacLen
      s.fg.lastChecksum (got p.fgRegMacSum a ++ got p.fgRegMacLen b) ⟨.ok, .sumLen a b⟩)) ∧
    (s.env.bus = .error :: rest → exec .fgSumlenRead s = .next (after p.fgRegMacSum
      s.fg.lastChecksum [.busWrite p.fgDevAddr [p.fgRegMacSum] false] ⟨.transportError, .none⟩)) ∧
    (∀ x, s.env.bus = .ok x :: .error :: rest → exec .fgSumlenRead s = .next (after p.fgRegMacSum s.fg.lastChecksum
      [.busWrite p.fgDevAddr [p.fgRegMacSum] true, .busRead p.fgDevAddr 1 none] ⟨.transportError, .none⟩)) ∧
    (∀ a x, s.env.bus = .ok x :: .ok [a] :: .error :: rest → exec .fgSumlenRead s = .next (after p.fgRegMacLen
      s.fg.lastChecksum (got p.fgRegMacSum a ++ [.busWrite p.fgDevAddr [p.fgRegMacLen] false]) ⟨.transportError, .none⟩)) ∧
    (∀ a x y, s.env.bus = .ok x :: .ok [a] :: .ok y :: .error :: rest → exec .fgSumlenRead s = .next (after p.fgRegMacLen
      s.fg.lastChecksum (got p.fgRegMacSum a ++ [.busWrite p.fgDevAddr [p.fgRegMacLen] true, .busRead p.fgDevAddr 1 none])
      ⟨.transportError, .none⟩)) ∧
    (∀ x y, s.env.bus = .ok x :: .ok y :: rest → exec (.fgSumlenWrite sum len) s = .next (after p.fgRegMacLen
      sum (put p.fgRegMacSum sum ++ put p.fgRegMacLen len) ⟨.ok, .none⟩)) ∧
    (s.env.bus = .error :: rest → exec (.fgSumlenWrite sum len) s = .next (after p.fgRegMacSum
      sum [.busWrite p.fgDevAddr [p.fgRegMacSum, sum] false] ⟨.transportError, .none⟩)) ∧
    (∀ x, s.env.bus = .ok x :: .error :: rest → exec (.fgSumlenWrite sum len) s = .next (after p.fgRegMacLen
      sum (put p.fgRegMacSum sum ++ [.busWrite p.fgDevAddr [p.fgRegMacLen, len] false]) ⟨.transportError, .none⟩))

/-- R224, R225, R226: the poll loop stops at the first poll that reads the sentinel and reports how many polls that took; with none
in 100 it returns the last value read, with a log entry and status `Ok`. A failed command write ends it before anything is recorded;
a failed poll ends it with the polls before it standing, and `fg.lastCtrl` the last value read. -/
def Obligations.SubcommandPolls : Prop :=
  ∀ (s : State) (cmd : U16) (vs : List (Byte × Byte)) (rest : List BusReply), (∀ v ∈ vs, NotSentinel v) →
    let p := s.par
    let sent (ok : Bool) : TraceEntry :=
      .busWrite p.fgDevAddr [p.fgRegControl, cmd.setWidth 8, (cmd >>> 8).setWidth 8] ok
    let point (ok : Bool) : TraceEntry := .busWrite p.fgDevAddr [p.fgRegControl] ok
    let after (ctrl : U16) (new : List TraceEntry) (r : Result) : State := { s with
      fg := { s.fg with lastReg := p.fgRegControl, lastSubCmd := cmd, lastCtrl := ctrl }
      env := { s.env with bus := rest }
      out := s.out ++ [sent true, .delay p.fgTSettle] ++ new
      result := some r }
    let last : U16 := (vs.map fun v => v.1 ++ v.2).getLastD s.fg.lastCtrl
    (vs.length < 100 → s.env.bus = .ok [] :: (pollReplies (vs ++ [(0xA5, 0xFF)]) ++ rest) →
      exec (.fgSendSubcommand cmd) s =
        .next (after 0xA5FF (pollTrace p (vs ++ [(0xA5, 0xFF)])) ⟨.ok, .polled .sentinel (vs.length + 1)⟩)) ∧
    (vs.length = 100 → s.env.bus = .ok [] :: (pollReplies vs ++ rest) →
      exec (.fgSendSubcommand cmd) s = .next (after last
        (pollTrace p vs ++ [.log (.timeoutSubCommand cmd last)]) ⟨.ok, .polled (.directValue last) 100⟩)) ∧
    (s.env.bus = .error :: rest → exec (.fgSendSubcommand cmd) s = .next { s with
      fg := { s.fg with lastReg := p.fgRegControl }
      env := { s.env with bus := rest }
      out := s.out ++ [sent false]
      result := some ⟨.transportError, .none⟩ }) ∧
    (vs.length < 100 → s.env.bus = .ok [] :: (pollReplies vs ++ .error :: rest) →
      exec (.fgSendSubcommand cmd) s = .next (after last (pollTrace p vs ++ [point false]) ⟨.transportError, .none⟩)) ∧
    (vs.length < 100 → s.env.bus = .ok [] :: (pollReplies vs ++ .ok [] :: .error :: rest) →
      exec (.fgSendSubcommand cmd) s = .next (after last
        (pollTrace p vs ++ [point true, .busRead p.fgDevAddr 2 none]) ⟨.transportError, .none⟩))

/-- R227: `FG_READ_STD` reads the four blocks in order into `fg.raw`. Any of its eight transfers that fails ends it; nothing is said
of `fg.raw` then: it is free (log 7). -/
def Obligations.StandardRegistersAreRead : Prop :=
  ∀ (s : State) (d0 d1 d2 d3 : List Byte) (rest : List BusReply),
    d0.length = 32 → d1.length = 32 → d2.length = 32 → d3.length = 32 →
    let p := s.par
    let bases : List Byte := [p.fgBlockBase0, p.fgBlockBase1, p.fgBlockBase2, p.fgBlockBase3]
    let replies : List BusReply := [.ok [], .ok d0, .ok [], .ok d1, .ok [], .ok d2, .ok [], .ok d3]
    let block (base : Byte) (d : List Byte) : List TraceEntry :=
      [.busWrite p.fgDevAddr [base] true, .busRead p.fgDevAddr 32 (some d), .delay p.fgTSettle]
    let full : List TraceEntry := block p.fgBlockBase0 d0 ++ block p.fgBlockBase1 d1 ++ block p.fgBlockBase2 d2 ++
      block p.fgBlockBase3 d3
    (s.env.bus = replies ++ rest →
      ∃ raw : Vector Byte 128, raw.toList = d0 ++ d1 ++ d2 ++ d3 ∧
        exec .fgReadStd s = .next { s with
          fg := { s.fg with raw := raw, lastReg := p.fgBlockBase3 }
          env := { s.env with bus := rest }
          out := s.out ++ full
          result := some ⟨.ok, .snapshot raw⟩ }) ∧
    ∀ j < 8, s.env.bus = replies.take j ++ .error :: rest → ∃ (raw : Vector Byte 128) (k : Nat),
      exec .fgReadStd s = .next { s with
        fg := { s.fg with raw := raw, lastReg := bases.getD (j / 2) 0 }
        env := { s.env with bus := rest, draws := k }
        out := s.out ++ stoppedAt full j
        result := some ⟨.transportError, .none⟩ }

/-- R229, R230, R231: `FG_READ_EXT` reads the checksum and length registers, logs what differs without failing, and puts the data
into the front of `fg.macBuf`. Any of its seven transfers that fails ends it with `fg.macBuf` as it was (R247). -/
def Obligations.ExtendedRead : Prop :=
  ∀ (s : State) (sub : U16) (n : Nat),
    (n < 1 ∨ 32 < n → exec (.fgReadExt sub n) s = .next { s with
      out := s.out ++ [.log (.invalidLength n)], result := some ⟨.invalidArgument, .none⟩ }) ∧
    (1 ≤ n → n ≤ 32 → ∀ (a b : Byte) (d : List Byte) (rest : List BusReply), d.length = n →
      (s.env.bus = readExtReplies a b d ++ rest →
        ∃ buf : Vector Byte 32, buf.toList = d ++ s.fg.macBuf.toList.drop n ∧
          exec (.fgReadExt sub n) s = .next { s with
            fg := { s.fg with macBuf := buf, lastReg := s.par.fgRegMacData, lastSubCmd := sub }
            env := { s.env with bus := rest }
            out := s.out ++ readExtTrace s.par s.fg.lastChecksum sub n a b d
            result := some ⟨.ok, .bytes d⟩ }) ∧
      ∀ j < 7, s.env.bus = (readExtReplies a b d).take j ++ .error :: rest →
        exec (.fgReadExt sub n) s = .next { s with
          fg := { s.fg with
            lastReg := (readExtRegs s.par).getD j 0
            lastSubCmd := if j = 0 then s.fg.lastSubCmd else sub }
          env := { s.env with bus := rest }
          out := s.out ++ stoppedAt (readExtTrace s.par s.fg.lastChecksum sub n a b d) j
          result := some ⟨.transportError, .none⟩ })

/-- R233: a quantity other than 1, 2 or 4 is logged and refused; nothing touches the bus and no state changes. Bits of `data`
above the quantity are ignored. -/
def Obligations.UnsupportedQuantity : Prop :=
  ∀ (s : State) (sub : U16) (data : U32) (q : Nat) (preserve : Bool),
    (q ≠ 1 → q ≠ 2 → q ≠ 4 → exec (.fgWriteExt sub data q preserve) s = .next { s with
      out := s.out ++ [.log (.invalidQuantity q)], result := some ⟨.invalidArgument, .none⟩ }) ∧
    ∀ data' : U32, data'.toNat % 2 ^ (8 * q) = data.toNat % 2 ^ (8 * q) →
      exec (.fgWriteExt sub data' q preserve) s = exec (.fgWriteExt sub data q preserve) s

/-- R232, R234 to R240: `FG_WRITE_EXT`: the scalar over the old content of `fg.macBuf`, or over the block read first; payload (one write
where the data window is behind the header, else two), checksum, length, and the confirming read, whose difference is
`ProtocolError`. Any transfer that fails ends it, and what was changed before stays changed (R247). -/
def Obligations.ExtendedWrite : Prop :=
  ∀ (s : State) (sub : U16) (data : U32) (q : Nat) (a b : Byte) (d : List Byte) (rest : List BusReply),
    (q = 1 ∨ q = 2 ∨ q = 4) → d.length = 32 →
    let p := s.par
    let scalar : List Byte := (List.range q).map fun i => BitVec.ofNat 8 (data.toNat / 256 ^ (q - 1 - i))
    let head : List Byte := [p.fgRegMacCmd, sub.setWidth 8, (sub >>> 8).setWidth 8]
    let adjacent : Prop := p.fgRegMacData.toNat = p.fgRegMacCmd.toNat + 2
    let put (w : List Byte) : List TraceEntry := [.busWrite p.fgDevAddr w true, .delay p.fgTSettle]
    let payWrites : Nat := if adjacent then 1 else 2
    let regs : List Byte :=
      (if adjacent then [p.fgRegMacCmd] else [p.fgRegMacCmd, p.fgRegMacData]) ++ [p.fgRegMacSum, p.fgRegMacLen] ++ readExtRegs p
    let commit (pay : List Byte) : List TraceEntry :=
      (if adjacent then put (head ++ pay) else put head ++ put (p.fgRegMacData :: pay)) ++
      put [p.fgRegMacSum, fgChecksum p sub pay] ++ put [p.fgRegMacLen, BitVec.ofNat 8 (32 + p.fgLenOverhead)] ++
      readExtTrace p (fgChecksum p sub pay) sub 32 a b d ++
      if d = pay then [] else [.log (.confirmMismatch sub)]
    let replies : List BusReply := List.replicate (payWrites + 2) (.ok []) ++ readExtReplies a b d
    let after (buf : Vector Byte 32) (reg : Byte) (cmd : U16) (sum : Byte) (new : List TraceEntry) (st : Status) : State :=
      { s with
        fg := { s.fg with macBuf := buf, lastReg := reg, lastSubCmd := cmd, lastChecksum := sum }
        env := { s.env with bus := rest }
        out := s.out ++ new
        result := some ⟨st, .none⟩ }
    let rule (preserve : Bool) (pay : List Byte) (cmd : U16) (before : List BusReply) (new : List TraceEntry) : Prop :=
      (s.env.bus = before ++ replies ++ rest → ∃ buf : Vector Byte 32, buf.toList = d ∧
        exec (.fgWriteExt sub data q preserve) s = .next (after buf p.fgRegMacData sub (fgChecksum p sub pay)
          (new ++ commit pay) (if d = pay then .ok else .protocolError))) ∧
      ∀ j < payWrites + 9, s.env.bus = before ++ replies.take j ++ .error :: rest →
        ∃ buf : Vector Byte 32, buf.toList = pay ∧
          exec (.fgWriteExt sub data q preserve) s = .next (after buf (regs.getD j 0) (if j < payWrites then cmd else sub)
            (if j < payWrites then s.fg.lastChecksum else fgChecksum p sub pay) (new ++ stoppedAt (commit pay) j) .transportError)
    rule false (scalar ++ s.fg.macBuf.toList.drop q) s.fg.lastSubCmd [] [] ∧
    ∀ (a' b' : Byte) (d' : List Byte), d'.length = 32 →
      rule true (scalar ++ d'.drop q) sub (readExtReplies a' b' d') (readExtTrace p s.fg.lastChecksum sub 32 a' b' d') ∧
      ∀ j < 7, s.env.bus = (readExtReplies a' b' d').take j ++ .error :: rest →
        exec (.fgWriteExt sub data q true) s = .next (after s.fg.macBuf ((readExtRegs p).getD j 0)
          (if j = 0 then s.fg.lastSubCmd else sub) s.fg.lastChecksum
          (stoppedAt (readExtTrace p s.fg.lastChecksum sub 32 a' b' d') j) .transportError)

/-- R241 to R245: a mode command writes the words of its sequence to the control register, one settle delay after each, and ends
with the long delay; at a write that fails it ends without it. The words are parameters (R4; their lists, log 17). -/
def Obligations.ModeCommandsWriteTheirWords : Prop :=
  ∀ (s : State) (rest : List BusReply),
    let p := s.par
    let sent (w : U16) (ok : Bool) : TraceEntry :=
      .busWrite p.fgDevAddr [p.fgRegControl, w.setWidth 8, (w >>> 8).setWidth 8] ok
    let after (ws : List U16) (reg : Byte) (new : List TraceEntry) (st : Status) : State := { s with
      fg := { s.fg with lastReg := reg, lastSubCmd := ws.getLastD s.fg.lastSubCmd }
      env := { s.env with bus := rest }
      out := s.out ++ (ws.flatMap fun w => [sent w true, .delay p.fgTSettle]) ++ new
      result := some ⟨st, .none⟩ }
    let rule (i : Instr) (ws : List U16) : Prop :=
      (s.env.bus = List.replicate ws.length (.ok []) ++ rest → exec i s =
        .next (after ws (if ws = [] then s.fg.lastReg else p.fgRegControl) [.delay p.fgTMode] .ok)) ∧
      ∀ (done : List U16) (w : U16) (left : List U16), ws = done ++ w :: left →
        s.env.bus = List.replicate done.length (.ok []) ++ .error :: rest → exec i s =
          .next (after done p.fgRegControl [sent w false] .transportError)
    rule .fgSeal p.fgSealSeq ∧ rule .fgUnseal p.fgUnsealSeq ∧ rule .fgEnterCfgUpdate p.fgEnterCfgUpdateSeq ∧
      rule .fgReset p.fgResetSeq

/-- R237, R238: the transmit checksum in integers: the complement of the byte sum, less 0x20, less 1 in the special range, modulo
256. The range is a parameter (log 17). -/
def Obligations.ChecksumFormula : Prop :=
  ∀ (p : Params) (sub : U16) (pay : List Byte),
    let base := 255 - (pay.map BitVec.toNat).sum % 256
    (checksumBase pay).toNat = base ∧
    (fgChecksum p sub pay).toNat = (base + 256 - 0x20 - if csExtraRange p sub then 1 else 0) % 256

/-- R248: on an echo device an extended write succeeds, and a read of the same sub-command then returns the scalar, most
significant byte first, and logs nothing. That the checksum and length registers lie outside the window and apart is a
premise the rule leaves unsaid (`EchoMap`, log 24). -/
def Obligations.ExtendedWriteThenRead : Prop :=
  ∀ (s t u : State) (sub : U16) (data : U32) (q : Nat) (preserve : Bool) (m : Nat → Byte) (ptr : Nat)
    (new new' : List TraceEntry),
    (q = 1 ∨ q = 2 ∨ q = 4) → EchoMap s.par →
    exec (.fgWriteExt sub data q preserve) s = .next t → exec (.fgReadExt sub q) t = .next u →
    t.out = s.out ++ new → u.out = t.out ++ new' → echoAnswers m ptr (new ++ new') = true →
    t.result = some ⟨.ok, .none⟩ ∧
    u.result = some ⟨.ok, .bytes ((List.range q).map fun i => BitVec.ofNat 8 (data.toNat / 256 ^ (q - 1 - i)))⟩ ∧
    ∀ e ∈ new', e.isLog = false

/-- R246: in every FG operation each successful register transaction is followed by exactly one delay, a failed one by none, and
the long delay of a mode command comes last. -/
def Obligations.DelaysFollowTransactions : Prop :=
  ∀ (i : Instr) (s t : State), isFgInstr i = true → exec i s = .next t →
    ∃ new, t.out = s.out ++ new ∧ disciplined s.par new = true

/-! ### The whole block -/

/-- R271, R176, R247, R286: an FG operation returns `BusError` exactly when a bus transfer failed in it, and the failing transfer is
then the last thing it did. A CMUX operation in which a link write failed returns `TransportError`; the operations that send for their
caller have then done nothing but that one write, and those that send on the block's own account have logged each failure and gone
on. -/
def Obligations.TransportFailuresAreReturned : Prop :=
  ∀ (i : Instr) (s t : State), exec i s = .next t → ∃ new st o, t.out = s.out ++ new ∧ t.result = some ⟨st, o⟩ ∧
    (isFgInstr i = true →
      (st = .transportError ↔ ∃ e ∈ new, e.busFailed = true) ∧
      (st = .transportError → ∃ before e, new = before ++ [e] ∧ e.busFailed = true ∧ ∀ x ∈ before, x.busFailed = false)) ∧
    let ownAccount : Prop := (∃ d, i = .onBytesReceived d) ∨ ∃ h k, i = .channelRead h k
    ((∃ e ∈ new, e.linkFailed = true) → st = .transportError ∧
      (ownAccount → FailuresAreLogged new) ∧ (¬ownAccount → t.mux = s.mux ∧ ∃ e, new = [e]))

/-- R2, R82: the units share nothing: an FG operation leaves the context and the link alone, a CMUX operation the device state and
the bus. -/
def Obligations.UnitsAreIndependent : Prop :=
  ∀ (i : Instr) (s t : State), exec i s = .next t → ∃ new, t.out = s.out ++ new ∧
    (isFgInstr i = true → t.mux = s.mux ∧ t.env.link = s.env.link ∧ ∀ e ∈ new, e.ofFg = true) ∧
    (isFgInstr i = false → t.fg = s.fg ∧ t.env.bus = s.env.bus ∧ ∀ e ∈ new, e.ofCmux = true)

/-- R279, R6: the block never reads its trace or an earlier result: an operation does the same whatever was traced and returned
before it. -/
def Obligations.TraceIsNeverRead : Prop :=
  ∀ (i : Instr) (s t : State) (before : List TraceEntry) (r : Option Result), exec i s = .next t →
    exec i { s with out := before ++ s.out, result := r } = .next { t with out := before ++ t.out }

/-- R270, R273, R43: every operation, in every state, completes with one status, one of those its row of R270's table allows; `Timeout` is
none of them; the parameters do not change. -/
def Obligations.EveryOperationReturnsOneStatus : Prop :=
  ∀ (i : Instr) (s : State), ∃ t st o, exec i s = .next t ∧ t.result = some ⟨st, o⟩ ∧
    st ∈ allowedStatuses i ∧ st ≠ .timeout ∧ t.cfg = s.cfg
end

