-- ==== Sys2Proof/Laws/State.lean ====
section
/-! SUPPORT. One lemma per field per update of the state, each true by unfolding, so that no later proof unfolds a record
update; and what reads of the context give after its updates. -/

namespace Sys2Proof.Machine

open Sys2Proof

namespace State

variable (s : State)

/-! ### `emit` -/

@[simp] theorem emit_cfg (e : TraceEntry) : (s.emit e).cfg = s.cfg := rfl

@[simp] theorem emit_mux (e : TraceEntry) : (s.emit e).mux = s.mux := rfl

@[simp] theorem emit_fg (e : TraceEntry) : (s.emit e).fg = s.fg := rfl

@[simp] theorem emit_env (e : TraceEntry) : (s.emit e).env = s.env := rfl

@[simp] theorem emit_requests (e : TraceEntry) : (s.emit e).requests = s.requests := rfl

@[simp] theorem emit_result (e : TraceEntry) : (s.emit e).result = s.result := rfl

@[simp] theorem emit_out (e : TraceEntry) : (s.emit e).out = s.out ++ [e] := rfl

@[simp] theorem emit_enabled (e : TraceEntry) : (s.emit e).enabled = s.enabled := rfl

@[simp] theorem emit_muxRx (e : TraceEntry) : (s.emit e).muxRx = s.muxRx := rfl

@[simp] theorem emit_muxHold (e : TraceEntry) : (s.emit e).muxHold = s.muxHold := rfl

@[simp] theorem emit_chan (e : TraceEntry) (i : Nat) : (s.emit e).chan i = s.chan i := rfl


/-! ### `delay` -/

@[simp] theorem delay_cfg (d : Nat) : (s.delay d).cfg = s.cfg := rfl

@[simp] theorem delay_mux (d : Nat) : (s.delay d).mux = s.mux := rfl

@[simp] theorem delay_fg (d : Nat) : (s.delay d).fg = s.fg := rfl

@[simp] theorem delay_env (d : Nat) : (s.delay d).env = s.env := rfl

@[simp] theorem delay_requests (d : Nat) : (s.delay d).requests = s.requests := rfl

@[simp] theorem delay_result (d : Nat) : (s.delay d).result = s.result := rfl

@[simp] theorem delay_out (d : Nat) : (s.delay d).out = s.out ++ [.delay d] := rfl

@[simp] theorem delay_enabled (d : Nat) : (s.delay d).enabled = s.enabled := rfl

@[simp] theorem delay_muxRx (d : Nat) : (s.delay d).muxRx = s.muxRx := rfl

@[simp] theorem delay_muxHold (d : Nat) : (s.delay d).muxHold = s.muxHold := rfl

@[simp] theorem delay_chan (d : Nat) (i : Nat) : (s.delay d).chan i = s.chan i := rfl


/-! ### `event` -/

@[simp] theorem event_cfg (n : Nat) (k : Byte) : (s.event n k).cfg = s.cfg := rfl

@[simp] theorem event_mux (n : Nat) (k : Byte) : (s.event n k).mux = s.mux := rfl

@[simp] theorem event_fg (n : Nat) (k : Byte) : (s.event n k).fg = s.fg := rfl

@[simp] theorem event_env (n : Nat) (k : Byte) : (s.event n k).env = s.env := rfl

@[simp] theorem event_requests (n : Nat) (k : Byte) : (s.event n k).requests = s.requests := rfl

@[simp] theorem event_result (n : Nat) (k : Byte) : (s.event n k).result = s.result := rfl

@[simp] theorem event_out (n : Nat) (k : Byte) : (s.event n k).out = s.out ++ [.event n k] := rfl

@[simp] theorem event_enabled (n : Nat) (k : Byte) : (s.event n k).enabled = s.enabled := rfl

@[simp] theorem event_muxRx (n : Nat) (k : Byte) : (s.event n k).muxRx = s.muxRx := rfl

@[simp] theorem event_muxHold (n : Nat) (k : Byte) : (s.event n k).muxHold = s.muxHold := rfl

@[simp] theorem event_chan (n : Nat) (k : Byte) (i : Nat) : (s.event n k).chan i = s.chan i := rfl


/-! ### `log` -/

@[simp] theorem log_cfg (e : LogEntry) : (s.log e).cfg = s.cfg := rfl

@[simp] theorem log_mux (e : LogEntry) : (s.log e).mux = s.mux := rfl

@[simp] theorem log_fg (e : LogEntry) : (s.log e).fg = s.fg := rfl

@[simp] theorem log_env (e : LogEntry) : (s.log e).env = s.env := rfl

@[simp] theorem log_requests (e : LogEntry) : (s.log e).requests = s.requests := rfl

@[simp] theorem log_result (e : LogEntry) : (s.log e).result = s.result := rfl

@[simp] theorem log_out (e : LogEntry) : (s.log e).out = s.out ++ [.log e] := rfl

@[simp] theorem log_enabled (e : LogEntry) : (s.log e).enabled = s.enabled := rfl

@[simp] theorem log_muxRx (e : LogEntry) : (s.log e).muxRx = s.muxRx := rfl

@[simp] theorem log_muxHold (e : LogEntry) : (s.log e).muxHold = s.muxHold := rfl

@[simp] theorem log_chan (e : LogEntry) (i : Nat) : (s.log e).chan i = s.chan i := rfl


/-! ### `finish` -/

@[simp] theorem finish_cfg (a : Status) (o : Output) : (s.finish a o).cfg = s.cfg := rfl

@[simp] theorem finish_mux (a : Status) (o : Output) : (s.finish a o).mux = s.mux := rfl

@[simp] theorem finish_fg (a : Status) (o : Output) : (s.finish a o).fg = s.fg := rfl

@[simp] theorem finish_env (a : Status) (o : Output) : (s.finish a o).env = s.env := rfl

@[simp] theorem finish_requests (a : Status) (o : Output) : (s.finish a o).requests = s.requests := rfl

@[simp] theorem finish_result (a : Status) (o : Output) : (s.finish a o).result = some ⟨a, o⟩ := rfl

@[simp] theorem finish_out (a : Status) (o : Output) : (s.finish a o).out = s.out := rfl

@[simp] theorem finish_enabled (a : Status) (o : Output) : (s.finish a o).enabled = s.enabled := rfl

@[simp] theorem finish_muxRx (a : Status) (o : Output) : (s.finish a o).muxRx = s.muxRx := rfl

@[simp] theorem finish_muxHold (a : Status) (o : Output) : (s.finish a o).muxHold = s.muxHold := rfl

@[simp] theorem finish_chan (a : Status) (o : Output) (i : Nat) : (s.finish a o).chan i = s.chan i := rfl


/-! ### `fail` -/

@[simp] theorem fail_cfg (a : Status) : (s.fail a).cfg = s.cfg := rfl

@[simp] theorem fail_mux (a : Status) : (s.fail a).mux = s.mux := rfl

@[simp] theorem fail_fg (a : Status) : (s.fail a).fg = s.fg := rfl

@[simp] theorem fail_env (a : Status) : (s.fail a).env = s.env := rfl

@[simp] theorem fail_requests (a : Status) : (s.fail a).requests = s.requests := rfl

@[simp] theorem fail_result (a : Status) : (s.fail a).result = some ⟨a, .none⟩ := rfl

@[simp] theorem fail_out (a : Status) : (s.fail a).out = s.out := rfl

@[simp] theorem fail_enabled (a : Status) : (s.fail a).enabled = s.enabled := rfl

@[simp] theorem fail_muxRx (a : Status) : (s.fail a).muxRx = s.muxRx := rfl

@[simp] theorem fail_muxHold (a : Status) : (s.fail a).muxHold = s.muxHold := rfl

@[simp] theorem fail_chan (a : Status) (i : Nat) : (s.fail a).chan i = s.chan i := rfl


/-! ### `modMux` -/

@[simp] theorem modMux_cfg (f : Mux → Mux) : (s.modMux f).cfg = s.cfg := rfl

@[simp] theorem modMux_mux (f : Mux → Mux) : (s.modMux f).mux = s.mux.map f := rfl

@[simp] theorem modMux_fg (f : Mux → Mux) : (s.modMux f).fg = s.fg := rfl

@[simp] theorem modMux_env (f : Mux → Mux) : (s.modMux f).env = s.env := rfl

@[simp] theorem modMux_requests (f : Mux → Mux) : (s.modMux f).requests = s.requests := rfl

@[simp] theorem modMux_result (f : Mux → Mux) : (s.modMux f).result = s.result := rfl

@[simp] theorem modMux_out (f : Mux → Mux) : (s.modMux f).out = s.out := rfl


/-! ### `setChan` -/

@[simp] theorem setChan_cfg (n : Nat) (c : Channel) : (s.setChan n c).cfg = s.cfg := rfl

@[simp] theorem setChan_mux (n : Nat) (c : Channel) : (s.setChan n c).mux = s.mux.map fun m => m.setChan n c := rfl

@[simp] theorem setChan_fg (n : Nat) (c : Channel) : (s.setChan n c).fg = s.fg := rfl

@[simp] theorem setChan_env (n : Nat) (c : Channel) : (s.setChan n c).env = s.env := rfl

@[simp] theorem setChan_requests (n : Nat) (c : Channel) : (s.setChan n c).requests = s.requests := rfl

@[simp] theorem setChan_result (n : Nat) (c : Channel) : (s.setChan n c).result = s.result := rfl

@[simp] theorem setChan_out (n : Nat) (c : Channel) : (s.setChan n c).out = s.out := rfl


/-! ### `setMuxRx` -/

@[simp] theorem setMuxRx_cfg (q : Fifo) : (s.setMuxRx q).cfg = s.cfg := rfl

@[simp] theorem setMuxRx_mux (q : Fifo) : (s.setMuxRx q).mux = s.mux.map fun m => { m with rx := q } := rfl

@[simp] theorem setMuxRx_fg (q : Fifo) : (s.setMuxRx q).fg = s.fg := rfl

@[simp] theorem setMuxRx_env (q : Fifo) : (s.setMuxRx q).env = s.env := rfl

@[simp] theorem setMuxRx_requests (q : Fifo) : (s.setMuxRx q).requests = s.requests := rfl

@[simp] theorem setMuxRx_result (q : Fifo) : (s.setMuxRx q).result = s.result := rfl

@[simp] theorem setMuxRx_out (q : Fifo) : (s.setMuxRx q).out = s.out := rfl


/-! ### `setMuxHold` -/

@[simp] theorem setMuxHold_cfg (q : Fifo) : (s.setMuxHold q).cfg = s.cfg := rfl

@[simp] theorem setMuxHold_mux (q : Fifo) : (s.setMuxHold q).mux = s.mux.map fun m => { m with hold := q } := rfl

@[simp] theorem setMuxHold_fg (q : Fifo) : (s.setMuxHold q).fg = s.fg := rfl

@[simp] theorem setMuxHold_env (q : Fifo) : (s.setMuxHold q).env = s.env := rfl

@[simp] theorem setMuxHold_requests (q : Fifo) : (s.setMuxHold q).requests = s.requests := rfl

@[simp] theorem setMuxHold_result (q : Fifo) : (s.setMuxHold q).result = s.result := rfl

@[simp] theorem setMuxHold_out (q : Fifo) : (s.setMuxHold q).out = s.out := rfl


/-! ### `setTxFlow` -/

@[simp] theorem setTxFlow_cfg (n : Nat) (b : Bool) : (s.setTxFlow n b).cfg = s.cfg := rfl

@[simp] theorem setTxFlow_mux (n : Nat) (b : Bool) : (s.setTxFlow n b).mux = s.mux.map fun m => m.setChan n { s.chan n with txIsFlowControlledOff := b } := rfl

@[simp] theorem setTxFlow_fg (n : Nat) (b : Bool) : (s.setTxFlow n b).fg = s.fg := rfl

@[simp] theorem setTxFlow_env (n : Nat) (b : Bool) : (s.setTxFlow n b).env = s.env := rfl

@[simp] theorem setTxFlow_requests (n : Nat) (b : Bool) : (s.setTxFlow n b).requests = s.requests := rfl

@[simp] theorem setTxFlow_result (n : Nat) (b : Bool) : (s.setTxFlow n b).result = s.result := rfl

@[simp] theorem setTxFlow_out (n : Nat) (b : Bool) : (s.setTxFlow n b).out = s.out := rfl


/-! ### `setRxFlow` -/

@[simp] theorem setRxFlow_cfg (n : Nat) (b : Bool) : (s.setRxFlow n b).cfg = s.cfg := rfl

@[simp] theorem setRxFlow_mux (n : Nat) (b : Bool) : (s.setRxFlow n b).mux = s.mux.map fun m => m.setChan n { s.chan n with rxIsFlowControlledOff := b } := rfl

@[simp] theorem setRxFlow_fg (n : Nat) (b : Bool) : (s.setRxFlow n b).fg = s.fg := rfl

@[simp] theorem setRxFlow_env (n : Nat) (b : Bool) : (s.setRxFlow n b).env = s.env := rfl

@[simp] theorem setRxFlow_requests (n : Nat) (b : Bool) : (s.setRxFlow n b).requests = s.requests := rfl

@[simp] theorem setRxFlow_result (n : Nat) (b : Bool) : (s.setRxFlow n b).result = s.result := rfl

@[simp] theorem setRxFlow_out (n : Nat) (b : Bool) : (s.setRxFlow n b).out = s.out := rfl


/-! ### `modFg` -/

@[simp] theorem modFg_cfg (f : Fg → Fg) : (s.modFg f).cfg = s.cfg := rfl

@[simp] theorem modFg_mux (f : Fg → Fg) : (s.modFg f).mux = s.mux := rfl

@[simp] theorem modFg_fg (f : Fg → Fg) : (s.modFg f).fg = f s.fg := rfl

@[simp] theorem modFg_env (f : Fg → Fg) : (s.modFg f).env = s.env := rfl

@[simp] theorem modFg_requests (f : Fg → Fg) : (s.modFg f).requests = s.requests := rfl

@[simp] theorem modFg_result (f : Fg → Fg) : (s.modFg f).result = s.result := rfl

@[simp] theorem modFg_out (f : Fg → Fg) : (s.modFg f).out = s.out := rfl

@[simp] theorem modFg_enabled (f : Fg → Fg) : (s.modFg f).enabled = s.enabled := rfl

@[simp] theorem modFg_muxRx (f : Fg → Fg) : (s.modFg f).muxRx = s.muxRx := rfl

@[simp] theorem modFg_muxHold (f : Fg → Fg) : (s.modFg f).muxHold = s.muxHold := rfl

@[simp] theorem modFg_chan (f : Fg → Fg) (i : Nat) : (s.modFg f).chan i = s.chan i := rfl


/-! ### `setLastReg` -/

@[simp] theorem setLastReg_cfg (r : Byte) : (s.setLastReg r).cfg = s.cfg := rfl

@[simp] theorem setLastReg_mux (r : Byte) : (s.setLastReg r).mux = s.mux := rfl

@[simp] theorem setLastReg_fg (r : Byte) : (s.setLastReg r).fg = { s.fg with lastReg := r } := rfl

@[simp] theorem setLastReg_env (r : Byte) : (s.setLastReg r).env = s.env := rfl

@[simp] theorem setLastReg_requests (r : Byte) : (s.setLastReg r).requests = s.requests := rfl

@[simp] theorem setLastReg_result (r : Byte) : (s.setLastReg r).result = s.result := rfl

@[simp] theorem setLastReg_out (r : Byte) : (s.setLastReg r).out = s.out := rfl

@[simp] theorem setLastReg_enabled (r : Byte) : (s.setLastReg r).enabled = s.enabled := rfl

@[simp] theorem setLastReg_muxRx (r : Byte) : (s.setLastReg r).muxRx = s.muxRx := rfl

@[simp] theorem setLastReg_muxHold (r : Byte) : (s.setLastReg r).muxHold = s.muxHold := rfl

@[simp] theorem setLastReg_chan (r : Byte) (i : Nat) : (s.setLastReg r).chan i = s.chan i := rfl


/-! ### `setLastSubCmd` -/

@[simp] theorem setLastSubCmd_cfg (c : U16) : (s.setLastSubCmd c).cfg = s.cfg := rfl

@[simp] theorem setLastSubCmd_mux (c : U16) : (s.setLastSubCmd c).mux = s.mux := rfl

@[simp] theorem setLastSubCmd_fg (c : U16) : (s.setLastSubCmd c).fg = { s.fg with lastSubCmd := c } := rfl

@[simp] theorem setLastSubCmd_env (c : U16) : (s.setLastSubCmd c).env = s.env := rfl

@[simp] theorem setLastSubCmd_requests (c : U16) : (s.setLastSubCmd c).requests = s.requests := rfl

@[simp] theorem setLastSubCmd_result (c : U16) : (s.setLastSubCmd c).result = s.result := rfl

@[simp] theorem setLastSubCmd_out (c : U16) : (s.setLastSubCmd c).out = s.out := rfl

@[simp] theorem setLastSubCmd_enabled (c : U16) : (s.setLastSubCmd c).enabled = s.enabled := rfl

@[simp] theorem setLastSubCmd_muxRx (c : U16) : (s.setLastSubCmd c).muxRx = s.muxRx := rfl

@[simp] theorem setLastSubCmd_muxHold (c : U16) : (s.setLastSubCmd c).muxHold = s.muxHold := rfl

@[simp] theorem setLastSubCmd_chan (c : U16) (i : Nat) : (s.setLastSubCmd c).chan i = s.chan i := rfl


/-! ### `setLastChecksum` -/

@[simp] theorem setLastChecksum_cfg (c : Byte) : (s.setLastChecksum c).cfg = s.cfg := rfl

@[simp] theorem setLastChecksum_mux (c : Byte) : (s.setLastChecksum c).mux = s.mux := rfl

@[simp] theorem setLastChecksum_fg (c : Byte) : (s.setLastChecksum c).fg = { s.fg with lastChecksum := c } := rfl

@[simp] theorem setLastChecksum_env (c : Byte) : (s.setLastChecksum c).env = s.env := rfl

@[simp] theorem setLastChecksum_requests (c : Byte) : (s.setLastChecksum c).requests = s.requests := rfl

@[simp] theorem setLastChecksum_result (c : Byte) : (s.setLastChecksum c).result = s.result := rfl

@[simp] theorem setLastChecksum_out (c : Byte) : (s.setLastChecksum c).out = s.out := rfl

@[simp] theorem setLastChecksum_enabled (c : Byte) : (s.setLastChecksum c).enabled = s.enabled := rfl

@[simp] theorem setLastChecksum_muxRx (c : Byte) : (s.setLastChecksum c).muxRx = s.muxRx := rfl

@[simp] theorem setLastChecksum_muxHold (c : Byte) : (s.setLastChecksum c).muxHold = s.muxHold := rfl

@[simp] theorem setLastChecksum_chan (c : Byte) (i : Nat) : (s.setLastChecksum c).chan i = s.chan i := rfl


/-! ### `setLastCtrl` -/

@[simp] theorem setLastCtrl_cfg (v : U16) : (s.setLastCtrl v).cfg = s.cfg := rfl

@[simp] theorem setLastCtrl_mux (v : U16) : (s.setLastCtrl v).mux = s.mux := rfl

@[simp] theorem setLastCtrl_fg (v : U16) : (s.setLastCtrl v).fg = { s.fg with lastCtrl := v } := rfl

@[simp] theorem setLastCtrl_env (v : U16) : (s.setLastCtrl v).env = s.env := rfl

@[simp] theorem setLastCtrl_requests (v : U16) : (s.setLastCtrl v).requests = s.requests := rfl

@[simp] theorem setLastCtrl_result (v : U16) : (s.setLastCtrl v).result = s.result := rfl

@[simp] theorem setLastCtrl_out (v : U16) : (s.setLastCtrl v).out = s.out := rfl

@[simp] theorem setLastCtrl_enabled (v : U16) : (s.setLastCtrl v).enabled = s.enabled := rfl

@[simp] theorem setLastCtrl_muxRx (v : U16) : (s.setLastCtrl v).muxRx = s.muxRx := rfl

@[simp] theorem setLastCtrl_muxHold (v : U16) : (s.setLastCtrl v).muxHold = s.muxHold := rfl

@[simp] theorem setLastCtrl_chan (v : U16) (i : Nat) : (s.setLastCtrl v).chan i = s.chan i := rfl


/-! ### `setMacBuf` -/

@[simp] theorem setMacBuf_cfg (d : List Byte) : (s.setMacBuf d).cfg = s.cfg := by simp only [setMacBuf, modFg_cfg]

@[simp] theorem setMacBuf_mux (d : List Byte) : (s.setMacBuf d).mux = s.mux := by simp only [setMacBuf, modFg_mux]

@[simp] theorem setMacBuf_env (d : List Byte) : (s.setMacBuf d).env = s.env := by simp only [setMacBuf, modFg_env]

@[simp] theorem setMacBuf_requests (d : List Byte) : (s.setMacBuf d).requests = s.requests := by simp only [setMacBuf, modFg_requests]

@[simp] theorem setMacBuf_result (d : List Byte) : (s.setMacBuf d).result = s.result := by simp only [setMacBuf, modFg_result]

@[simp] theorem setMacBuf_out (d : List Byte) : (s.setMacBuf d).out = s.out := by simp only [setMacBuf, modFg_out]

@[simp] theorem setMacBuf_enabled (d : List Byte) : (s.setMacBuf d).enabled = s.enabled := by simp only [setMacBuf, modFg_enabled]

@[simp] theorem setMacBuf_muxRx (d : List Byte) : (s.setMacBuf d).muxRx = s.muxRx := by simp only [setMacBuf, modFg_muxRx]

@[simp] theorem setMacBuf_muxHold (d : List Byte) : (s.setMacBuf d).muxHold = s.muxHold := by simp only [setMacBuf, modFg_muxHold]

@[simp] theorem setMacBuf_chan (d : List Byte) (i : Nat) : (s.setMacBuf d).chan i = s.chan i := by simp only [setMacBuf, modFg_chan]


/-! ### `setRaw` -/

@[simp] theorem setRaw_cfg (d : List Byte) : (s.setRaw d).cfg = s.cfg := by simp only [setRaw, modFg_cfg]

@[simp] theorem setRaw_mux (d : List Byte) : (s.setRaw d).mux = s.mux := by simp only [setRaw, modFg_mux]

@[simp] theorem setRaw_env (d : List Byte) : (s.setRaw d).env = s.env := by simp only [setRaw, modFg_env]

@[simp] theorem setRaw_requests (d : List Byte) : (s.setRaw d).requests = s.requests := by simp only [setRaw, modFg_requests]

@[simp] theorem setRaw_result (d : List Byte) : (s.setRaw d).result = s.result := by simp only [setRaw, modFg_result]

@[simp] theorem setRaw_out (d : List Byte) : (s.setRaw d).out = s.out := by simp only [setRaw, modFg_out]

@[simp] theorem setRaw_enabled (d : List Byte) : (s.setRaw d).enabled = s.enabled := by simp only [setRaw, modFg_enabled]

@[simp] theorem setRaw_muxRx (d : List Byte) : (s.setRaw d).muxRx = s.muxRx := by simp only [setRaw, modFg_muxRx]

@[simp] theorem setRaw_muxHold (d : List Byte) : (s.setRaw d).muxHold = s.muxHold := by simp only [setRaw, modFg_muxHold]

@[simp] theorem setRaw_chan (d : List Byte) (i : Nat) : (s.setRaw d).chan i = s.chan i := by simp only [setRaw, modFg_chan]


/-! ### Reads of the context after its updates -/

theorem enabled_iff : s.enabled = true ↔ ∃ m, s.mux = some m := by
  simp [enabled, Option.isSome_iff_exists]

@[simp] theorem modMux_enabled (f : Mux → Mux) : (s.modMux f).enabled = s.enabled := by
  simp [enabled]

@[simp] theorem setChan_enabled (n : Nat) (c : Channel) : (s.setChan n c).enabled = s.enabled := by
  simp [setChan]

@[simp] theorem setMuxRx_enabled (q : Fifo) : (s.setMuxRx q).enabled = s.enabled := by
  simp [setMuxRx]

@[simp] theorem setMuxHold_enabled (q : Fifo) : (s.setMuxHold q).enabled = s.enabled := by
  simp [setMuxHold]

@[simp] theorem setTxFlow_enabled (n : Nat) (b : Bool) : (s.setTxFlow n b).enabled = s.enabled := by
  simp [setTxFlow]

@[simp] theorem setRxFlow_enabled (n : Nat) (b : Bool) : (s.setRxFlow n b).enabled = s.enabled := by
  simp [setRxFlow]

@[simp] theorem setChan_muxRx (n : Nat) (c : Channel) : (s.setChan n c).muxRx = s.muxRx := by
  cases h : s.mux <;> simp [muxRx, h, Mux.setChan]

@[simp] theorem setChan_muxHold (n : Nat) (c : Channel) : (s.setChan n c).muxHold = s.muxHold := by
  cases h : s.mux <;> simp [muxHold, h, Mux.setChan]

@[simp] theorem setTxFlow_muxRx (n : Nat) (b : Bool) : (s.setTxFlow n b).muxRx = s.muxRx := by
  simp [setTxFlow]

@[simp] theorem setTxFlow_muxHold (n : Nat) (b : Bool) : (s.setTxFlow n b).muxHold = s.muxHold := by
  simp [setTxFlow]

@[simp] theorem setRxFlow_muxRx (n : Nat) (b : Bool) : (s.setRxFlow n b).muxRx = s.muxRx := by
  simp [setRxFlow]

@[simp] theorem setRxFlow_muxHold (n : Nat) (b : Bool) : (s.setRxFlow n b).muxHold = s.muxHold := by
  simp [setRxFlow]

@[simp] theorem setMuxRx_muxHold (q : Fifo) : (s.setMuxRx q).muxHold = s.muxHold := by
  cases h : s.mux <;> simp [muxHold, h]

@[simp] theorem setMuxHold_muxRx (q : Fifo) : (s.setMuxHold q).muxRx = s.muxRx := by
  cases h : s.mux <;> simp [muxRx, h]

@[simp] theorem setMuxRx_chan (q : Fifo) (n : Nat) : (s.setMuxRx q).chan n = s.chan n := by
  cases h : s.mux <;> simp [chan, h, Mux.chan]

@[simp] theorem setMuxHold_chan (q : Fifo) (n : Nat) : (s.setMuxHold q).chan n = s.chan n := by
  cases h : s.mux <;> simp [chan, h, Mux.chan]

theorem setMuxRx_muxRx (h : s.enabled = true) (q : Fifo) : (s.setMuxRx q).muxRx = q := by
  obtain ⟨m, hm⟩ := (enabled_iff s).1 h
  simp [muxRx, hm]

theorem setMuxHold_muxHold (h : s.enabled = true) (q : Fifo) : (s.setMuxHold q).muxHold = q := by
  obtain ⟨m, hm⟩ := (enabled_iff s).1 h
  simp [muxHold, hm]

end State

/-! ### The channel table -/

theorem setEntry_getD_same (l : List Channel) (k n : Nat) (c d : Channel) : (setEntry l k n c).getD n d = c := by
  induction n generalizing l k with
  | zero => cases l <;> simp [setEntry]
  | succ n ih => cases l with
    | nil => simpa [setEntry] using ih [] (k + 1)
    | cons x t => simpa [setEntry] using ih t (k + 1)

theorem setEntry_getD_ne (l : List Channel) (k n i : Nat) (c : Channel) (h : i ≠ n) :
    (setEntry l k n c).getD i (Channel.fresh (k + i)) = l.getD i (Channel.fresh (k + i)) := by
  induction n generalizing l k i with
  | zero =>
    obtain ⟨j, rfl⟩ := Nat.exists_eq_succ_of_ne_zero h
    cases l <;> simp [setEntry]
  | succ n ih =>
    cases i with
    | zero => cases l <;> simp [setEntry]
    | succ j =>
      have hj : j ≠ n := fun e => h (by omega)
      have e : k + (j + 1) = (k + 1) + j := by omega
      cases l with
      | nil => simpa [setEntry, e] using ih [] (k + 1) j hj
      | cons x t => simpa [setEntry, e] using ih t (k + 1) j hj

theorem setEntry_length (l : List Channel) (k n : Nat) (c : Channel) (h : n < l.length) :
    (setEntry l k n c).length = l.length := by
  induction n generalizing l k with
  | zero => cases l <;> simp_all [setEntry]
  | succ n ih => cases l with
    | nil => simp at h
    | cons x t => simpa [setEntry] using ih t (k + 1) (by simpa using h)

@[simp] theorem Mux.setChan_rx (m : Mux) (n : Nat) (c : Channel) : (m.setChan n c).rx = m.rx := rfl

@[simp] theorem Mux.setChan_hold (m : Mux) (n : Nat) (c : Channel) : (m.setChan n c).hold = m.hold := rfl

@[simp] theorem Mux.setChan_chan_same (m : Mux) (n : Nat) (c : Channel) : (m.setChan n c).chan n = c :=
  setEntry_getD_same m.ch 0 n c _

theorem Mux.setChan_chan_ne (m : Mux) (n i : Nat) (c : Channel) (h : i ≠ n) : (m.setChan n c).chan i = m.chan i := by
  simpa [Mux.chan, Mux.setChan] using setEntry_getD_ne m.ch 0 n i c h

theorem Mux.setChan_length (m : Mux) (n : Nat) (c : Channel) (h : n < m.ch.length) :
    (m.setChan n c).ch.length = m.ch.length := setEntry_length m.ch 0 n c h

namespace State

theorem setChan_chan_same (s : State) (h : s.enabled = true) (n : Nat) (c : Channel) : (s.setChan n c).chan n = c := by
  obtain ⟨m, hm⟩ := (enabled_iff s).1 h
  simp [chan, hm]

theorem setChan_chan_ne (s : State) (n i : Nat) (c : Channel) (h : i ≠ n) : (s.setChan n c).chan i = s.chan i := by
  cases hm : s.mux with
  | none => simp [chan, hm]
  | some m => simp [chan, hm, Mux.setChan_chan_ne m n i c h]

end State

/-- The table after `MUX_ENABLE` (R170): entries 0 to `MAX_CHANNELS`, each fresh. -/
theorem freshTable_getD (k n : Nat) : (freshTable k).getD n (Channel.fresh n) = Channel.fresh n := by
  unfold freshTable
  by_cases h : n < k + 1
  · simp [List.getD, h]
  · simp [List.getD, h]

@[simp] theorem freshTable_length (k : Nat) : (freshTable k).length = k + 1 := by simp [freshTable]

end Sys2Proof.Machine
end

