-- ==== Sys2Proof/Laws/Ops.lean ====
section
/-! SUPPORT. What each shared operation of Machine/Ops.lean can do, said once: the FIFO form, the environment's answers, the link
and bus transfers, the register transactions. -/

namespace Sys2Proof.Machine

open Sys2Proof

/-! ### The FIFO form (R61): every operation within its domain keeps it -/

namespace Fifo

@[simp] theorem empty_wf (cap : Nat) : (Fifo.empty cap).wf = true := by simp [empty, wf, used]

@[simp] theorem empty_cap (cap : Nat) : (Fifo.empty cap).cap = cap := rfl

@[simp] theorem empty_data (cap : Nat) : (Fifo.empty cap).data = [] := rfl

@[simp] theorem empty_used (cap : Nat) : (Fifo.empty cap).used = 0 := rfl

@[simp] theorem push_cap (q : Fifo) (s : List Byte) : (q.push s).cap = q.cap := rfl

@[simp] theorem push_data (q : Fifo) (s : List Byte) : (q.push s).data = q.data ++ s := rfl

@[simp] theorem advance_cap (q : Fifo) (n : Nat) : (q.advance n).cap = q.cap := rfl

@[simp] theorem advance_data (q : Fifo) (n : Nat) : (q.advance n).data = q.data.drop n := rfl

@[simp] theorem used_mk (c : Nat) (d : List Byte) : (Fifo.mk c d).used = d.length := rfl

theorem wf_iff (q : Fifo) : q.wf = true ↔ q.data.length ≤ q.cap := by
  simp only [wf, used]
  exact decide_eq_true_iff

theorem clear_wf (q : Fifo) : ({ q with data := [] } : Fifo).wf = true := by simp [wf, used]

theorem advance_wf (q : Fifo) (n : Nat) (h : q.wf = true) : (q.advance n).wf = true := by
  rw [wf_iff] at *
  simp only [advance_data, advance_cap, List.length_drop]
  omega

theorem push_wf (q : Fifo) (s : List Byte) (h : q.wf = true) (hs : s.length ≤ q.free) : (q.push s).wf = true := by
  rw [wf_iff] at *
  simp only [push_data, push_cap, List.length_append, free, used] at *
  omega

/-- What `Pop` returns and what it leaves are the content, in order (R62). -/
theorem popped_append_advance (q : Fifo) (n : Nat) : q.popped n ++ (q.advance n).data = q.data := by
  simp [popped]

end Fifo

/-! ### The environment's answers (R7, R84) -/

namespace State

variable (s : State)

/-- Taking a link answer changes the environment only. -/
theorem takeLinkReply_snd : s.takeLinkReply.2 = { s with env := s.takeLinkReply.2.env } := by
  unfold takeLinkReply
  split
  · rfl
  · simp only [drawBool, drawCount]
    cases Config.freeBool s.env.draws <;> rfl

/-- A link answer takes nothing from the bus answers. -/
theorem takeLinkReply_bus : s.takeLinkReply.2.env.bus = s.env.bus := by
  unfold takeLinkReply
  split
  · rfl
  · simp only [drawBool, drawCount]
    cases Config.freeBool s.env.draws <;> rfl

/-- A link answer is decided by the environment alone. -/
theorem takeLinkReply_congr (t : State) (h : t.env = s.env) :
    t.takeLinkReply.1 = s.takeLinkReply.1 ∧ t.takeLinkReply.2.env = s.takeLinkReply.2.env := by
  unfold takeLinkReply
  rw [h]
  split
  · simp
  · simp only [drawBool, drawCount, h]
    cases Config.freeBool s.env.draws <;> simp

theorem takeLinkReply_cons (r : LinkReply) (rest : List LinkReply) (h : s.env.link = r :: rest) :
    s.takeLinkReply = (r, { s with env := { s.env with link := rest } }) := by
  unfold takeLinkReply
  rw [h]

/-- Taking a bus answer changes the environment only. -/
theorem takeBusReply_snd (n : Nat) : (s.takeBusReply n).2 = { s with env := (s.takeBusReply n).2.env } := by
  unfold takeBusReply
  split
  · rfl
  · simp only [drawBool, drawBytes]
    cases Config.freeBool s.env.draws <;> rfl

/-- A bus answer takes nothing from the link answers. -/
theorem takeBusReply_link (n : Nat) : (s.takeBusReply n).2.env.link = s.env.link := by
  unfold takeBusReply
  split
  · rfl
  · simp only [drawBool, drawBytes]
    cases Config.freeBool s.env.draws <;> rfl

/-- A bus answer is decided by the environment alone. -/
theorem takeBusReply_congr (n : Nat) (t : State) (h : t.env = s.env) :
    (t.takeBusReply n).1 = (s.takeBusReply n).1 ∧ (t.takeBusReply n).2.env = (s.takeBusReply n).2.env := by
  unfold takeBusReply
  rw [h]
  split
  · simp
  · simp only [drawBool, drawBytes, h]
    cases Config.freeBool s.env.draws <;> simp

theorem takeBusReply_cons (n : Nat) (r : BusReply) (rest : List BusReply) (h : s.env.bus = r :: rest) :
    s.takeBusReply n = (r, { s with env := { s.env with bus := rest } }) := by
  unfold takeBusReply
  rw [h]

/-! ### Transfers (R63, R176) -/

/-- `LinkSend` (R176): one answer, one trace entry, nothing else. -/
theorem linkSend_eq (b : List Byte) : s.linkSend b =
    (s.takeLinkReply.1.covers b.length,
      { s with env := s.takeLinkReply.2.env, out := s.out ++ [.linkWrite b s.takeLinkReply.1] }) := by
  have h := s.takeLinkReply_snd
  simp only [linkSend, linkWrite, LinkReply.covers]
  rw [h]
  cases s.takeLinkReply.1 <;> simp [emit]

/-- `LinkSend` with a listed answer. -/
theorem linkSend_cons (b : List Byte) (r : LinkReply) (rest : List LinkReply) (h : s.env.link = r :: rest) :
    s.linkSend b = (r.covers b.length,
      { s with env := { s.env with link := rest }, out := s.out ++ [.linkWrite b r] }) := by
  rw [linkSend_eq, takeLinkReply_cons s r rest h]

/-- `BusWrite` (R63): one answer, one trace entry, nothing else. -/
theorem busWrite_eq (b : List Byte) : s.busWrite b =
    ((s.takeBusReply 0).1.succeeds,
      { s with env := (s.takeBusReply 0).2.env
               out := s.out ++ [.busWrite s.par.fgDevAddr b (s.takeBusReply 0).1.succeeds] }) := by
  have h := s.takeBusReply_snd 0
  simp only [busWrite]
  rcases hr : s.takeBusReply 0 with ⟨r, s1⟩
  rw [hr] at h
  dsimp only at h
  cases r <;> simp only [BusReply.succeeds, emit] <;> rw [h]

/-- `BusRead` (R63): one answer, one trace entry, nothing else. -/
theorem busRead_eq (n : Nat) : s.busRead n =
    ((s.takeBusReply n).1.bytesFor n,
      { s with env := (s.takeBusReply n).2.env
               out := s.out ++ [.busRead s.par.fgDevAddr n ((s.takeBusReply n).1.bytesFor n)] }) := by
  have h := s.takeBusReply_snd n
  simp only [busRead]
  rcases hr : s.takeBusReply n with ⟨r, s1⟩
  rw [hr] at h
  dsimp only at h
  cases r with
  | ok d =>
    simp only [BusReply.bytesFor]
    split <;> simp only [emit] <;> rw [h]
  | error => simp only [BusReply.bytesFor, emit]; rw [h]

theorem busWrite_cons (b : List Byte) (r : BusReply) (rest : List BusReply) (h : s.env.bus = r :: rest) :
    s.busWrite b = (r.succeeds,
      { s with env := { s.env with bus := rest }, out := s.out ++ [.busWrite s.par.fgDevAddr b r.succeeds] }) := by
  rw [busWrite_eq, takeBusReply_cons s 0 r rest h]

theorem busRead_cons (n : Nat) (r : BusReply) (rest : List BusReply) (h : s.env.bus = r :: rest) :
    s.busRead n = (r.bytesFor n,
      { s with env := { s.env with bus := rest }, out := s.out ++ [.busRead s.par.fgDevAddr n (r.bytesFor n)] }) := by
  rw [busRead_eq, takeBusReply_cons s n r rest h]

/-! ### Register transactions (R64, R65), with listed answers -/

/-- `RegWrite` answered `ok` (R64). -/
theorem regWrite_ok (reg : Byte) (d : List Byte) (t : Nat) (x : List Byte) (rest : List BusReply)
    (h : s.env.bus = .ok x :: rest) : s.regWrite reg d t =
    (true, { s with
      fg := { s.fg with lastReg := reg }
      env := { s.env with bus := rest }
      out := s.out ++ [.busWrite s.par.fgDevAddr (reg :: d) true, .delay t] }) := by
  unfold regWrite
  rw [busWrite_cons (s.setLastReg reg) _ (.ok x) rest (by simpa using h)]
  simp [BusReply.succeeds, delay, emit, setLastReg, modFg, par]

/-- `RegWrite` answered `error` (R64): no delay. -/
theorem regWrite_error (reg : Byte) (d : List Byte) (t : Nat) (rest : List BusReply)
    (h : s.env.bus = .error :: rest) : s.regWrite reg d t =
    (false, { s with
      fg := { s.fg with lastReg := reg }
      env := { s.env with bus := rest }
      out := s.out ++ [.busWrite s.par.fgDevAddr (reg :: d) false] }) := by
  unfold regWrite
  rw [busWrite_cons (s.setLastReg reg) _ .error rest (by simpa using h)]
  simp [BusReply.succeeds, setLastReg, modFg, par]

/-- `RegRead` with both transfers answered and enough bytes (R65). -/
theorem regRead_ok (reg : Byte) (n t : Nat) (x d : List Byte) (rest : List BusReply)
    (h : s.env.bus = .ok x :: .ok d :: rest) (hd : n ≤ d.length) : s.regRead reg n t =
    (some (d.take n), { s with
      fg := { s.fg with lastReg := reg }
      env := { s.env with bus := rest }
      out := s.out ++ [.busWrite s.par.fgDevAddr [reg] true, .busRead s.par.fgDevAddr n (some (d.take n)), .delay t] }) := by
  unfold regRead
  rw [busWrite_cons (s.setLastReg reg) _ (.ok x) (.ok d :: rest) (by simpa using h)]
  simp only [BusReply.succeeds]
  rw [busRead_cons _ n (.ok d) rest rfl]
  simp [BusReply.bytesFor, hd, delay, emit, setLastReg, modFg, par]

/-- `RegRead` whose pointer write is answered `error` (R65): no read, no delay. -/
theorem regRead_write_error (reg : Byte) (n t : Nat) (rest : List BusReply)
    (h : s.env.bus = .error :: rest) : s.regRead reg n t =
    (none, { s with
      fg := { s.fg with lastReg := reg }
      env := { s.env with bus := rest }
      out := s.out ++ [.busWrite s.par.fgDevAddr [reg] false] }) := by
  unfold regRead
  rw [busWrite_cons (s.setLastReg reg) _ .error rest (by simpa using h)]
  simp [BusReply.succeeds, setLastReg, modFg, par]

/-- `RegRead` whose read is answered `error`, or short (R63, R65): no delay. -/
theorem regRead_read_error (reg : Byte) (n t : Nat) (x : List Byte) (r : BusReply) (rest : List BusReply)
    (h : s.env.bus = .ok x :: r :: rest) (hr : r.bytesFor n = none) : s.regRead reg n t =
    (none, { s with
      fg := { s.fg with lastReg := reg }
      env := { s.env with bus := rest }
      out := s.out ++ [.busWrite s.par.fgDevAddr [reg] true, .busRead s.par.fgDevAddr n none] }) := by
  unfold regRead
  rw [busWrite_cons (s.setLastReg reg) _ (.ok x) (r :: rest) (by simpa using h)]
  simp only [BusReply.succeeds]
  rw [busRead_cons _ n r rest rfl, hr]
  simp [setLastReg, modFg, par]

end State

end Sys2Proof.Machine
end

