-- ==== Sys2Proof/Laws/Codec.lean ====
section
/-! SUPPORT. Facts about the Frame Codec: the FCS as a checksum, where a parse finds its opening flag, and what it does from there. -/

namespace Sys2Proof.Machine

open Sys2Proof

/-! ### The frame check sequence -/

theorem crcRun_append (c : Byte) (s t : List Byte) : crcRun c (s ++ t) = crcRun (crcRun c s) t := by
  simp [crcRun]

theorem crcShift_xor (a b : Byte) : crcShift (a ^^^ b) = crcShift a ^^^ crcShift b := by
  simp only [crcShift, BitVec.getLsbD_xor]
  cases a.getLsbD 0 <;> cases b.getLsbD 0 <;> simp [BitVec.ushiftRight_xor_distrib]
  · ac_rfl
  · ac_rfl
  · rw [BitVec.xor_assoc, BitVec.xor_comm 224#8, BitVec.xor_assoc, ← BitVec.xor_assoc, ← BitVec.xor_assoc]
    simp [BitVec.xor_assoc]

/-- Two register values that one more byte makes equal were equal. -/
theorem crcTable_injective (a b : Byte) (h : crcTable a = crcTable b) : a = b := by
  have hz : ∀ x : Byte, crcTable x = 0 → x = 0 := by decide
  refine BitVec.xor_eq_zero_iff.1 (hz _ ?_)
  have hx : crcTable (a ^^^ b) = crcTable a ^^^ crcTable b := by simp only [crcTable, crcShift_xor]
  rw [hx, h, BitVec.xor_self]
  rfl

theorem crcRun_injective (s : List Byte) (c d : Byte) (h : crcRun c s = crcRun d s) : c = d := by
  induction s generalizing c d with
  | nil => exact h
  | cons b t ih =>
    have := crcTable_injective _ _ (ih (crcTable (c ^^^ b)) (crcTable (d ^^^ b)) h)
    have e := congrArg (· ^^^ b) this
    simpa [BitVec.xor_assoc] using e

/-- A change of one byte changes the FCS. -/
theorem fcs_one_byte (s t : List Byte) (a b : Byte) (h : fcs (s ++ a :: t) = fcs (s ++ b :: t)) : a = b := by
  have h1 : crc8 (s ++ a :: t) = crc8 (s ++ b :: t) := by
    simp only [fcs] at h
    bv_omega
  simp only [crc8, crcRun_append] at h1
  have h2 := crcTable_injective _ _ (crcRun_injective t _ _ h1)
  have e := congrArg (crcRun 0xFF s ^^^ ·) h2
  simpa [← BitVec.xor_assoc] using e

/-! ### Where a parse finds its opening flag (R139, R140) -/

theorem findFlag_eq (peek : Nat → Byte) (k i r : Nat) (h1 : i ≤ r) (h2 : r ≤ i + k)
    (h3 : ∀ j, i ≤ j → j < r → peek j ≠ flagByte) (h4 : r < i + k → peek r = flagByte) : findFlag peek k i = r := by
  induction k generalizing i with
  | zero => simp only [findFlag]; omega
  | succ k ih =>
    unfold findFlag
    split
    · next e =>
      by_contra hr
      exact h3 i (Nat.le_refl i) (by omega) e
    · next e =>
      have : i ≠ r := fun hr => e (hr ▸ h4 (by omega))
      exact ih (i + 1) (by omega) (by omega) (fun j hj hr => h3 j (by omega) hr) (fun hr => h4 (by omega))

theorem lastOfRun_eq (peek : Nat → Byte) (k i r : Nat) (h1 : i ≤ r) (h2 : r ≤ i + k)
    (h3 : ∀ j, i < j → j ≤ r → peek j = flagByte) (h4 : r < i + k → peek (r + 1) ≠ flagByte) :
    lastOfRun peek k i = r := by
  induction k generalizing i with
  | zero => simp only [lastOfRun]; omega
  | succ k ih =>
    unfold lastOfRun
    split
    · next e =>
      have : i ≠ r := fun hr => h4 (by omega) (hr ▸ e)
      exact ih (i + 1) (by omega) (by omega) (fun j hj hr => h3 j (by omega) hr) (fun hr => h4 (by omega))
    · next e =>
      by_contra hr
      exact e (h3 (i + 1) (by omega) (by omega))

/-- `o` is the opening flag a parse of `n` bytes works from: the last of the first run of flags. -/
structure OpensAt (n : Nat) (peek : Nat → Byte) (o : Nat) : Prop where
  lt : o < n
  first : ∃ i ≤ o, (∀ j < i, peek j ≠ flagByte) ∧ ∀ j, i ≤ j → j ≤ o → peek j = flagByte
  last : o + 1 < n → peek (o + 1) ≠ flagByte

/-- A buffer with a flag in it has an opening flag. -/
theorem exists_opensAt (n : Nat) (peek : Nat → Byte) (h : ∃ j < n, peek j = flagByte) : ∃ o, OpensAt n peek o := by
  classical
  obtain ⟨hi, hmin⟩ : _ ∧ _ := ⟨Nat.find_spec h, fun j hj => Nat.find_min h hj⟩
  generalize Nat.find h = i at hi hmin
  have hb : ∀ j < i, peek j ≠ flagByte := fun j hj e => hmin j hj ⟨by omega, e⟩
  obtain ⟨o, ho⟩ : ∃ o, (i ≤ o ∧ o < n ∧ ∀ j, i ≤ j → j ≤ o → peek j = flagByte) ∧ ¬(o + 1 < n ∧ peek (o + 1) = flagByte) := by
    by_contra hno
    push Not at hno
    have all : ∀ k, i + k < n ∧ ∀ j, i ≤ j → j ≤ i + k → peek j = flagByte := by
      intro k
      induction k with
      | zero => exact ⟨hi.1, fun j h1 h2 => by rw [show j = i by omega]; exact hi.2⟩
      | succ k ih =>
        obtain ⟨a, b⟩ := hno (i + k) ⟨by omega, ih.1, ih.2⟩
        refine ⟨a, fun j h1 h2 => ?_⟩
        rcases Nat.lt_or_ge (i + k) j with hj | hj
        · rw [show j = i + k + 1 by omega]; exact b
        · exact ih.2 j h1 hj
    have := (all n).1
    omega
  exact ⟨o, ho.1.2.1, ⟨i, ho.1.1, hb, ho.1.2.2⟩, fun hl e => ho.2 ⟨hl, e⟩⟩

/-- What a parse does from its opening flag on (R141 to R149). -/
def parseFrom (p : Params) (n : Nat) (peek : Nat → Byte) (w : AddrFilter) (o : Nat) : ParseResult :=
  match readHeader p n peek o with
  | .short => .incomplete o
  | .read hdr ln lf => judgeFrame p n peek w o hdr ln lf

/-- With no flag (R139). -/
theorem parseSource_no_flag (p : Params) (n : Nat) (peek : Nat → Byte) (w : AddrFilter)
    (h : ∀ j < n, peek j ≠ flagByte) : parseSource p n peek w = .notFound n := by
  have e := findFlag_eq peek n 0 n (Nat.zero_le _) (by omega) (fun j _ hj => h j hj) (fun hn => by omega)
  simp only [parseSource, e, if_true]

/-- The opening flag, where there is one, and the first flag (R139, R140). -/
theorem openingFlag_eq (n : Nat) (peek : Nat → Byte) (o : Nat) (h : OpensAt n peek o) :
    openingFlag n peek = o ∧ findFlag peek n 0 < n := by
  obtain ⟨i, hi, hb, hr⟩ := h.first
  have hl := h.lt
  have e := findFlag_eq peek n 0 i (Nat.zero_le _) (by omega) (fun j _ hj => hb j hj)
    (fun _ => hr i (Nat.le_refl i) hi)
  rw [openingFlag, e]
  exact ⟨lastOfRun_eq peek (n - 1 - i) i o hi (by omega) (fun j h1 h2 => hr j (by omega) h2)
    (fun hn => h.last (by omega)), by omega⟩

/-- With an opening flag (R139, R140). -/
theorem parseSource_opens (p : Params) (n : Nat) (peek : Nat → Byte) (w : AddrFilter) (o : Nat)
    (h : OpensAt n peek o) : parseSource p n peek w = parseFrom p n peek w o := by
  obtain ⟨e, hl⟩ := openingFlag_eq n peek o h
  simp only [parseSource, e, parseFrom]
  exact (if_neg (by omega)).trans rfl

/-- A parse from a flag depends on the bytes behind the flag alone. -/
theorem parseFrom_shift (p : Params) (n m : Nat) (peek : Nat → Byte) (w : AddrFilter) (o : Nat) :
    parseFrom p (m + n) peek w (m + o) = (parseFrom p n (fun j => peek (m + j)) w o).shift m := by
  have hn : m + n - (m + o) = n - o := by omega
  have hh : readHeader p (m + n) peek (m + o) = readHeader p n (fun j => peek (m + j)) o := by
    simp only [readHeader, hn, Nat.add_assoc]
  unfold parseFrom
  rw [hh]
  cases readHeader p n (fun j => peek (m + j)) o with
  | short => rfl
  | read hdr ln lf =>
    have hx : m + (o + (hdr + (ln + 2))) - 1 = m + (o + (hdr + (ln + 2)) - 1) := by omega
    simp only [judgeFrame, hn, Nat.add_assoc, hx]
    split
    · rfl
    · split
      · rfl
      · split
        · rfl
        · split
          · rfl
          · simp only [judgeFields]
            split
            · rfl
            · split
              · rfl
              · split <;> rfl

/-- A parse peeks below `Used` only (R151). -/
theorem parseFrom_congr (p : Params) (n : Nat) (peek peek' : Nat → Byte) (w : AddrFilter) (o : Nat) (ho : o < n)
    (h : ∀ i, o ≤ i → i < n → peek i = peek' i) : parseFrom p n peek w o = parseFrom p n peek' w o := by
  have hh : readHeader p n peek o = readHeader p n peek' o := by
    unfold readHeader
    split
    · rfl
    · rw [h (o + 2) (by omega) (by omega)]
      split
      · split
        · rfl
        · rw [h (o + 3) (by omega) (by omega)]
          split
          · rfl
          · split
            · rfl
            · rw [h (o + 4) (by omega) (by omega)]
      · rfl
  unfold parseFrom
  rw [hh]
  have hp : ∀ hdr ln lf, readHeader p n peek' o = .read hdr ln lf → 3 ≤ hdr := by
    intro hdr ln lf
    unfold readHeader
    split
    · simp
    · split
      · split
        · simp
        · split
          · simp; omega
          · split
            · simp
            · simp; omega
      · simp; omega
  rcases hr : readHeader p n peek' o with _ | ⟨hdr, ln, lf⟩
  · rfl
  · have h3 := hp _ _ _ hr
    simp only [judgeFrame]
    split
    · rfl
    · split
      · rfl
      · rw [h (o + (hdr + ln + 2) - 1) (by omega) (by omega)]
        split
        · rfl
        · rw [h (o + hdr + ln) (by omega) (by omega), h (o + 1) (by omega) (by omega), h (o + 2) (by omega) (by omega)]
          have hm : (List.range ln).map (fun k => peek (o + hdr + k)) = (List.range ln).map fun k => peek' (o + hdr + k) := by
            apply List.map_congr_left
            intro k hk
            have := List.mem_range.1 hk
            exact h _ (by omega) (by omega)
          rw [hm]

/-- A buffer that starts with a flag and a byte that is none opens at once. -/
theorem opensAt_zero (a : Byte) (r : List Byte) (ha : a ≠ flagByte) :
    OpensAt (flagByte :: a :: r).length (fun i => (flagByte :: a :: r).getD i 0) 0 :=
  ⟨by simp, ⟨0, Nat.le_refl 0, by simp, fun j _ h => by rw [Nat.le_zero.1 h]; rfl⟩, fun _ => by simpa using ha⟩

/-- A header with all its length bytes is read (R142). -/
theorem readHeader_of_lengthBytes (p : Params) (a c : Byte) (lf body : List Byte) (n : Nat) (h : LengthBytes p c lf n) :
    readHeader p ([flagByte, a, c] ++ lf ++ body).length (fun i => ([flagByte, a, c] ++ lf ++ body).getD i 0) 0 =
      .read (3 + lf.length) n lf := by
  rcases lf with _ | ⟨b0, _ | ⟨b1, _ | ⟨b2, r⟩⟩⟩ <;> simp only [LengthBytes] at h
  · obtain ⟨h, rfl⟩ := h
    have h' : lengthPresent p (c &&& 239#8) = _ := h
    simp [readHeader, h']
  · obtain ⟨h, h1, rfl⟩ := h
    simp only [List.cons_append, List.nil_append, List.length_cons, readHeader, Nat.sub_zero, Nat.zero_add,
      List.getD_cons_succ, List.getD_cons_zero]
    rw [if_neg (by omega), if_pos h, if_neg (by omega), if_pos h1]
    rfl
  · obtain ⟨h, h1, rfl⟩ := h
    simp only [List.cons_append, List.nil_append, List.length_cons, readHeader, Nat.sub_zero, Nat.zero_add,
      List.getD_cons_succ, List.getD_cons_zero]
    rw [if_neg (by omega), if_pos h, if_neg (by omega), if_neg (by rw [h1]; decide), if_neg (by omega)]
    rfl

/-- A buffer that starts with a whole header is judged from its first byte. -/
theorem parseBytes_of_header (p : Params) (w : AddrFilter) (a c : Byte) (lf body : List Byte) (n : Nat)
    (ha : a ≠ flagByte) (h : LengthBytes p c lf n) :
    parseBytes p ([flagByte, a, c] ++ lf ++ body) w =
      judgeFrame p ([flagByte, a, c] ++ lf ++ body).length (fun i => ([flagByte, a, c] ++ lf ++ body).getD i 0) w 0
        (3 + lf.length) n lf := by
  have e := parseSource_opens p _ _ w 0 (opensAt_zero a ([c] ++ lf ++ body) ha)
  have hh := readHeader_of_lengthBytes p a c lf body n h
  unfold parseBytes
  refine e.trans ?_
  unfold parseFrom
  simp only [List.cons_append, List.nil_append] at hh ⊢
  rw [hh]

/-- Bytes in front that leave the opening flag where it is are consumed with every result (R139, R140). -/
theorem parseBytes_skip (p : Params) (w : AddrFilter) (pre suf : List Byte) (hf : ∃ j < suf.length, suf.getD j 0 = flagByte)
    (h : ∀ o, OpensAt suf.length (fun i => suf.getD i 0) o →
      OpensAt (pre ++ suf).length (fun i => (pre ++ suf).getD i 0) (pre.length + o)) :
    parseBytes p (pre ++ suf) w = (parseBytes p suf w).shift pre.length := by
  obtain ⟨o, ho⟩ := exists_opensAt _ _ hf
  unfold parseBytes
  rw [parseSource_opens _ _ _ _ _ ho, parseSource_opens _ _ _ _ _ (h o ho), List.length_append, parseFrom_shift]
  have e : (fun j => (pre ++ suf).getD (pre.length + j) 0) = fun i => suf.getD i 0 := by
    funext j
    rw [List.getD_eq_getElem?_getD, List.getElem?_append_right (by omega), Nat.add_sub_cancel_left, List.getD_eq_getElem?_getD]
  rw [e]

/-! ### The fields of a frame as it stands on the link (R92, R93, R95, R96) -/

theorem addressByte_fields : ∀ n < 62, ∀ cr : Bool, addressByte n cr ≠ flagByte ∧ (addressByte n cr).toNat / 4 = n ∧
    (addressByte n cr).getLsbD 0 = true ∧ (addressByte n cr).getLsbD 1 = cr := by decide

theorem controlByte_fields : ∀ (t : FrameType) (pf : Bool), FrameType.ofCode (controlByte t pf &&& 0xEF) = some t ∧
    (controlByte t pf).getLsbD 4 = pf ∧
    ((controlByte t pf &&& 0xEF == 0xEF || controlByte t pf &&& 0xEF == 0x03) = carriesInfo t) := by
  intro t pf
  cases t <;> cases pf <;> decide

theorem lengthPresent_controlByte (p : Params) (t : FrameType) (pf : Bool) :
    lengthPresent p (controlByte t pf &&& 0xEF) = (carriesInfo t || p.lenAllTypes) := by
  rw [← (controlByte_fields t pf).2.2, lengthPresent, Bool.or_assoc, Bool.or_comm]

theorem lengthField_short : ∀ n < 128, lengthField n = [BitVec.ofNat 8 (2 * n + 1)] ∧
    (BitVec.ofNat 8 (2 * n + 1)).getLsbD 0 = true ∧ (BitVec.ofNat 8 (2 * n + 1)).toNat / 2 = n := by decide

theorem lengthField_long (n : Nat) (h : 128 ≤ n) :
    lengthField n = [BitVec.ofNat 8 (2 * (n % 128)), BitVec.ofNat 8 (n / 128)] := by
  have e : ∀ x : Byte, (x <<< 1) &&& (0xFE : Byte) = x <<< 1 := by decide
  rw [lengthField, if_neg (by omega), e, Nat.shiftRight_eq_div_pow]
  have : BitVec.ofNat 8 n <<< 1 = BitVec.ofNat 8 (2 * (n % 128)) := by
    apply BitVec.eq_of_toNat_eq
    simp only [BitVec.toNat_shiftLeft, BitVec.toNat_ofNat, Nat.shiftLeft_eq]
    omega
  rw [this]

/-- The length field of a frame is its length bytes, in the form the encoder uses. -/
theorem lengthBytes_of_type (p : Params) (t : FrameType) (pf : Bool) (n : Nat) (hn : n ≤ lenFieldMax)
    (h : carriesInfo t = false → n = 0) :
    LengthBytes p (controlByte t pf) (if carriesInfo t || p.lenAllTypes then lengthField n else []) n := by
  have hp := lengthPresent_controlByte p t pf
  by_cases hc : (carriesInfo t || p.lenAllTypes) = true
  · rw [if_pos hc]
    rw [hc] at hp
    by_cases h1 : n < 128
    · obtain ⟨e, e0, e1⟩ := lengthField_short n h1
      rw [e]
      exact ⟨hp, e0, e1.symm⟩
    · rw [lengthField_long n (by omega)]
      refine ⟨hp, ?_, ?_⟩
      · simp [BitVec.getLsbD, BitVec.toNat_ofNat, Nat.testBit_zero]
      · simp only [lenFieldMax] at hn
        simp only [BitVec.toNat_ofNat]
        omega
  · rw [if_neg hc]
    simp only [Bool.not_eq_true, Bool.or_eq_false_iff] at hc
    exact ⟨by rw [hp, hc.1, hc.2]; rfl, h hc.1⟩

/-- A configuration's `MAX_INFO_LEN` fits the length field (R5). -/
theorem maxInfoLen_le (c : Config) : c.params.maxInfoLen ≤ lenFieldMax := by
  have h := c.legal
  simp only [Params.ok, Bool.and_eq_true, decide_eq_true_eq] at h
  exact h.1.1.1.1.1.1.1.1.1.1.2

/-- A configuration's `MAX_CHANNELS` is between 1 and 61 (R5). -/
theorem maxChannels_le (c : Config) : 1 ≤ c.params.maxChannels ∧ c.params.maxChannels ≤ addrMax := by
  have h := c.legal
  simp only [Params.ok, Bool.and_eq_true, decide_eq_true_eq] at h
  exact h.1.1.1.1.1.1.1.1.1.1.1

/-- The frame this block builds, as a descriptor's wire form. -/
theorem frameBytes_eq_wire (p : Params) (a : Nat) (t : FrameType) (pf : Bool) (info : List Byte) :
    frameBytes p a t pf info = Frame.wire p ⟨a, sentCr t, t, pf, info⟩ := rfl

/-- The wire form in the shape a parse reads it. -/
theorem Frame.wire_shape (p : Params) (f : Frame) : f.wire p =
    [flagByte, addressByte f.address f.cr, controlByte f.type f.pollFinal] ++
      (if carriesInfo f.type || p.lenAllTypes then lengthField f.information.length else []) ++ f.information ++
      [fcs ([addressByte f.address f.cr, controlByte f.type f.pollFinal] ++
        (if carriesInfo f.type || p.lenAllTypes then lengthField f.information.length else [])), flagByte] := by
  simp [Frame.wire, Frame.header]

/-- What an `ENCODE` that succeeds built. -/
theorem encodeFrame_ok (p : Params) (a : Nat) (t : FrameType) (pf : Bool) (info b : List Byte)
    (h : encodeFrame p a t pf info = .ok b) :
    b = Frame.wire p ⟨a, sentCr t, t, pf, info⟩ ∧ Frame.Sendable p ⟨a, sentCr t, t, pf, info⟩ := by
  unfold encodeFrame at h
  split at h
  · cases h
  split at h
  · cases h
  split at h
  · cases h
  next h1 h2 h3 =>
    cases h
    refine ⟨rfl, Nat.le_of_not_lt h2, Nat.le_of_not_lt h1, fun hc => ?_⟩
    by_contra hne
    have := List.length_pos_of_ne_nil hne
    simp_all

/-- A frame whose extent is right is judged by its FCS and its fields (R145 to R149). -/
theorem parseBytes_of_delimited (p : Params) (w : AddrFilter) (a c x : Byte) (lf info tail : List Byte)
    (ha : a ≠ flagByte) (hl : LengthBytes p c lf info.length) (hm : info.length ≤ p.maxInfoLen) :
    parseBytes p ([flagByte, a, c] ++ lf ++ info ++ [x, flagByte] ++ tail) w =
      if x ≠ fcs ([a, c] ++ lf) then .fcsError (5 + lf.length + info.length)
      else judgeFields a c info w (5 + lf.length + info.length) := by
  have e : [flagByte, a, c] ++ lf ++ info ++ [x, flagByte] ++ tail =
      [flagByte, a, c] ++ lf ++ (info ++ [x, flagByte] ++ tail) := by simp
  rw [e, parseBytes_of_header p w a c lf _ info.length ha hl, ← e]
  generalize hB : [flagByte, a, c] ++ lf ++ info ++ [x, flagByte] ++ tail = B
  have hlen : B.length = 5 + lf.length + info.length + tail.length := by simp [← hB]; omega
  have g1 : B.getD 1 0 = a := by simp [← hB]
  have g2 : B.getD 2 0 = c := by simp [← hB]
  have g3 : B.getD (0 + (3 + lf.length + info.length + 2) - 1) 0 = flagByte := by
    rw [show 0 + (3 + lf.length + info.length + 2) - 1 = ([flagByte, a, c] ++ lf ++ info).length + 1 by simp; omega,
      ← hB, List.append_assoc, List.getD_eq_getElem?_getD, List.getElem?_append_right (by omega)]
    simp
  have g4 : B.getD (0 + (3 + lf.length) + info.length) 0 = x := by
    rw [show 0 + (3 + lf.length) + info.length = ([flagByte, a, c] ++ lf ++ info).length by simp; omega,
      ← hB, List.append_assoc, List.getD_eq_getElem?_getD, List.getElem?_append_right (by omega)]
    simp
  have g5 : (List.range info.length).map (fun k => B.getD (0 + (3 + lf.length) + k) 0) = info := by
    apply List.ext_getElem
    · simp
    · intro i h1 h2
      simp only [List.getElem_map, List.getElem_range]
      rw [show 0 + (3 + lf.length) + i = ([flagByte, a, c] ++ lf).length + i by simp; omega, ← hB, List.append_assoc,
        List.append_assoc, List.getD_eq_getElem?_getD, List.getElem?_append_right (by omega)]
      simp [List.getElem?_append_left h2, List.getElem?_eq_getElem h2]
  simp only [judgeFrame]
  rw [if_neg (by omega), if_neg (by omega), g3, if_neg (by simp), g4, g5, show 0 + 1 = 1 from rfl, g1,
    show 0 + 2 = 2 from rfl, g2, show 0 + (3 + lf.length + info.length + 2) = 5 + lf.length + info.length by omega]

/-- The wire form of a frame parses to the frame, whatever follows it. -/
theorem parseBytes_wire (p : Params) (w : AddrFilter) (f : Frame) (tail : List Byte) (hs : f.Sendable p)
    (hm : p.maxInfoLen ≤ lenFieldMax) : parseBytes p (f.wire p ++ tail) w =
      if admits w f.address then .frame (f.wire p).length f else .notFound (f.wire p).length := by
  obtain ⟨h1, h2, h3⟩ := hs
  obtain ⟨ha, ha1, ha2, ha3⟩ := addressByte_fields f.address (by simp only [addrMax] at h1; omega) f.cr
  obtain ⟨hc1, hc2, -⟩ := controlByte_fields f.type f.pollFinal
  have hl := lengthBytes_of_type p f.type f.pollFinal f.information.length (Nat.le_trans h2 hm)
    (fun h => by rw [h3 h]; rfl)
  have hlen : (f.wire p).length = 5 + (if carriesInfo f.type || p.lenAllTypes then lengthField f.information.length
      else []).length + f.information.length := by
    rw [Frame.wire_shape]
    simp only [List.length_append, List.length_cons, List.length_nil]
    omega
  rw [hlen, Frame.wire_shape, parseBytes_of_delimited p w _ _ _ _ _ tail ha hl h2, if_neg (by simp)]
  have hsh : (addressByte f.address f.cr >>> 2).toNat = f.address := by
    rw [BitVec.toNat_ushiftRight, Nat.shiftRight_eq_div_pow]
    exact ha1
  unfold judgeFields
  rw [hc1]
  simp only [hsh, ha2, ha3, hc2]
  rw [if_neg]
  rintro (h | h | h)
  · cases h
  · omega
  · exact h.2 (h3 h.1)

end Sys2Proof.Machine
end

