-- ==== Sys2Proof/Laws/Channel.lean ====
section
/-! SUPPORT. What the operations of the Channel Manager can do, said once: `CmuxRan` for all of them, the two loops as induction
principles, and the invariant of R45 under each update. -/

namespace Sys2Proof.Machine

open Sys2Proof

/-- What any part of a CMUX operation does to everything that is not its own. -/
structure CmuxRan (s t : State) : Prop where
  cfg : t.cfg = s.cfg
  fg : t.fg = s.fg
  requests : t.requests = s.requests
  result : t.result = s.result
  bus : t.env.bus = s.env.bus
  enabled : t.enabled = s.enabled
  out : ∃ new : List TraceEntry, t.out = s.out ++ new ∧ ∀ e ∈ new, e.ofCmux = true

/-- What a send does: the context is left alone too. -/
structure LinkRan (s t : State) : Prop extends CmuxRan s t where
  mux : t.mux = s.mux

namespace CmuxRan

theorem refl (s : State) : CmuxRan s s := ⟨rfl, rfl, rfl, rfl, rfl, rfl, [], by simp, by simp⟩

theorem trans {s t u : State} (h : CmuxRan s t) (k : CmuxRan t u) : CmuxRan s u := by
  obtain ⟨n1, e1, f1⟩ := h.out
  obtain ⟨n2, e2, f2⟩ := k.out
  refine ⟨k.cfg.trans h.cfg, k.fg.trans h.fg, k.requests.trans h.requests, k.result.trans h.result,
    k.bus.trans h.bus, k.enabled.trans h.enabled, n1 ++ n2, by rw [e2, e1, List.append_assoc], ?_⟩
  intro e he
  rcases List.mem_append.1 he with he | he
  · exact f1 e he
  · exact f2 e he

theorem par {s t : State} (h : CmuxRan s t) : t.par = s.par := by rw [State.par, State.par, h.cfg]

theorem of_modMux (s : State) (f : Mux → Mux) : CmuxRan s (s.modMux f) :=
  ⟨rfl, rfl, rfl, rfl, rfl, s.modMux_enabled f, [], by simp, by simp⟩

theorem of_setChan (s : State) (n : Nat) (c : Channel) : CmuxRan s (s.setChan n c) := of_modMux s _

theorem of_setMuxRx (s : State) (q : Fifo) : CmuxRan s (s.setMuxRx q) := of_modMux s _

theorem of_setMuxHold (s : State) (q : Fifo) : CmuxRan s (s.setMuxHold q) := of_modMux s _

theorem of_emit (s : State) (e : TraceEntry) (h : e.ofCmux = true) : CmuxRan s (s.emit e) :=
  ⟨rfl, rfl, rfl, rfl, rfl, rfl, [e], rfl, by simpa using h⟩

theorem of_log (s : State) (e : LogEntry) : CmuxRan s (s.log e) := of_emit s _ rfl

theorem of_event (s : State) (n : Nat) (m : Byte) : CmuxRan s (s.event n m) := of_emit s _ rfl

theorem of_setTxFlow (s : State) (n : Nat) (b : Bool) : CmuxRan s (s.setTxFlow n b) := of_setChan s _ _

theorem of_setRxFlow (s : State) (n : Nat) (b : Bool) : CmuxRan s (s.setRxFlow n b) := of_setChan s _ _

end CmuxRan

namespace LinkRan

theorem trans {s t u : State} (h : LinkRan s t) (k : LinkRan t u) : LinkRan s u :=
  ⟨h.toCmuxRan.trans k.toCmuxRan, k.mux.trans h.mux⟩

theorem of_log (s : State) (e : LogEntry) : LinkRan s (s.log e) := ⟨CmuxRan.of_log s e, rfl⟩

theorem chan {s t : State} (h : LinkRan s t) (n : Nat) : t.chan n = s.chan n := by rw [State.chan, State.chan, h.mux]

theorem muxRx {s t : State} (h : LinkRan s t) : t.muxRx = s.muxRx := by rw [State.muxRx, State.muxRx, h.mux]

theorem muxHold {s t : State} (h : LinkRan s t) : t.muxHold = s.muxHold := by rw [State.muxHold, State.muxHold, h.mux]

end LinkRan

namespace State

variable (s : State)

theorem linkSend_ran (b : List Byte) : LinkRan s (s.linkSend b).2 := by
  rw [linkSend_eq]
  exact ⟨⟨rfl, rfl, rfl, rfl, s.takeLinkReply_bus, rfl, _, rfl, by simp [TraceEntry.ofCmux]⟩, rfl⟩

theorem sendControl_ran (info : List Byte) : LinkRan s (s.sendControl info).2 := by
  unfold sendControl
  split
  · exact linkSend_ran s _
  · simp only [drawBool]
    have h : LinkRan s { s with env := { s.env with draws := s.env.draws + 1 } } :=
      ⟨⟨rfl, rfl, rfl, rfl, rfl, rfl, [], by simp, by simp⟩, rfl⟩
    cases Config.freeBool s.env.draws
    · exact h
    · exact h.trans (linkSend_ran _ _)

theorem emitMsc_ran (n : Nat) (off : Bool) : LinkRan s (s.emitMsc n off).2 := by
  have h := sendControl_ran s (mscInfo n off)
  unfold emitMsc
  split <;> rename_i s1 e <;> rw [e] at h
  · exact h
  · exact h.trans (LinkRan.of_log _ _)

/-- The four ways an evaluation can end (R182): nothing, or an MSC frame and, where it was sent, the flag and its event. -/
theorem evalRxFlow_cases (n : Nat) :
    s.evalRxFlow n = (.ok, s) ∨ ∃ off : Bool, (s.chan n).rxIsFlowControlledOff = !off ∧
      ((s.emitMsc n off).1 = true ∧
        s.evalRxFlow n = (.ok, ((s.emitMsc n off).2.setRxFlow n off).event n evFlow) ∨
      (s.emitMsc n off).1 = false ∧ s.evalRxFlow n = (.transportError, (s.emitMsc n off).2)) := by
  unfold evalRxFlow
  split
  · next h =>
    refine .inr ⟨true, h.1, ?_⟩
    rcases s.emitMsc n true with ⟨b, s1⟩
    cases b <;> simp
  · split
    · next h =>
      refine .inr ⟨false, h.1, ?_⟩
      rcases s.emitMsc n false with ⟨b, s1⟩
      cases b <;> simp
    · exact .inl rfl

theorem evalRxFlow_ran (n : Nat) : CmuxRan s (s.evalRxFlow n).2 := by
  rcases evalRxFlow_cases s n with h | ⟨off, -, ⟨-, h⟩ | ⟨-, h⟩⟩ <;> rw [h]
  · exact CmuxRan.refl s
  · exact ((emitMsc_ran s n off).toCmuxRan.trans (CmuxRan.of_setRxFlow _ _ _)).trans (CmuxRan.of_event _ _ _)
  · exact (emitMsc_ran s n off).toCmuxRan

theorem store_ran (n : Nat) (info : List Byte) : CmuxRan s (s.store n info) := by
  have h1 : CmuxRan s (s.pushChan n (info.take (s.fitting n info))) := CmuxRan.of_setChan s _ _
  have h2 : ∀ t : State, ∀ l, CmuxRan s t → CmuxRan s (t.overflow n l) := fun t l h =>
    (h.trans (CmuxRan.of_setChan t _ _)).trans (CmuxRan.of_log _ _)
  unfold store
  dsimp only
  split <;> split
  · exact (h2 _ _ h1).trans (CmuxRan.of_event _ _ _)
  · exact h1.trans (CmuxRan.of_event _ _ _)
  · exact h2 _ _ h1
  · exact h1

theorem deliver_ran (n : Nat) (info : List Byte) : CmuxRan s (s.deliver n info).2 :=
  (store_ran s n info).trans (evalRxFlow_ran _ n)

theorem peerMsc_ran (v : List Byte) : CmuxRan s (s.peerMsc v) := by
  unfold peerMsc
  dsimp only
  split
  · split
    · exact CmuxRan.of_setTxFlow s _ _
    · exact (CmuxRan.of_setTxFlow s _ _).trans (CmuxRan.of_event _ _ _)
  · exact CmuxRan.of_log s _

theorem mscEcho_ran (l : Byte) (v : List Byte) (st : Status) : LinkRan s (s.mscEcho l v st).2 := by
  unfold mscEcho
  split
  · have h := sendControl_ran s ([0xE1, l] ++ v)
    split <;> rename_i s1 e <;> rw [e] at h
    · exact h
    · exact h.trans (LinkRan.of_log _ _)
  · exact ⟨CmuxRan.refl s, rfl⟩

theorem controlMessage_ran (t l : Byte) (v : List Byte) (st : Status) : CmuxRan s (s.controlMessage t l v st).2 := by
  unfold controlMessage
  split
  · split
    · exact (peerMsc_ran s v).trans (mscEcho_ran _ _ _ _).toCmuxRan
    · exact CmuxRan.refl s
  · exact CmuxRan.of_log s _

/-- What holds of each thing the control loop does, and of what is chained from such things, holds of the loop (R184). -/
theorem controlLoop_induct (P : State → State → Prop) (refl : ∀ s, P s s) (trans : ∀ s t u, P s t → P t u → P s u)
    (clear : ∀ s : State, P s ((s.setMuxHold { s.muxHold with data := [] }).log .ctrlFormat))
    (take : ∀ (s : State) (n : Nat), P s (s.setMuxHold (s.muxHold.advance n)))
    (message : ∀ (s : State) (t l : Byte) (v : List Byte) (st : Status), P s (s.controlMessage t l v st).2) :
    ∀ (k : Nat) (st : Status) (s : State), P s (controlLoop k st s).2 := by
  intro k
  induction k with
  | zero => exact fun st s => refl s
  | succ k ih =>
    intro st s
    unfold controlLoop
    dsimp only
    split
    · exact refl s
    · split
      · exact clear s
      · split
        · exact refl s
        · exact trans _ _ _ (trans _ _ _ (take s _) (message _ _ _ _ _)) (ih _ _)

theorem controlData_ran (info : List Byte) : CmuxRan s (s.controlData info).2 := by
  unfold controlData
  dsimp only
  split
  · exact (CmuxRan.of_setMuxHold s _).trans (CmuxRan.of_log _ _)
  · exact (CmuxRan.of_setMuxHold s _).trans (controlLoop_induct CmuxRan CmuxRan.refl (fun _ _ _ => CmuxRan.trans)
      (fun s => (CmuxRan.of_setMuxHold s _).trans (CmuxRan.of_log _ _)) (fun s _ => CmuxRan.of_setMuxHold s _)
      controlMessage_ran _ _ _)

theorem dispatchOther_ran (f : Frame) : CmuxRan s (s.dispatchOther f) := by
  unfold dispatchOther
  split
  · exact (CmuxRan.of_setChan s _ _).trans (CmuxRan.of_event _ _ _)
  · exact CmuxRan.of_log s _

theorem dispatch_ran (f : Frame) : CmuxRan s (s.dispatch f).2 := by
  unfold dispatch dispatchUih
  split
  · exact CmuxRan.of_log s _
  · split
    · split
      · exact CmuxRan.of_log s _
      · split
        · exact controlData_ran s _
        · exact deliver_ran s _ _
    · exact dispatchOther_ran s f

/-- What holds of each thing the parse loop does, and of what is chained from such things, holds of the loop (R177). -/
theorem rxLoop_induct (P : State → State → Prop) (refl : ∀ s, P s s) (trans : ∀ s t u, P s t → P t u → P s u)
    (take : ∀ (s : State) (n : Nat), P s (s.advanceRx n)) (fcs : ∀ s : State, P s (s.log .protocolFcsError))
    (malformed : ∀ s : State, P s (s.log .protocolMalformed)) (disp : ∀ (s : State) (f : Frame), P s (s.dispatch f).2) :
    ∀ (k : Nat) (st : Status) (s : State), P s (rxLoop k st s).2 := by
  intro k
  induction k with
  | zero => exact fun st s => refl s
  | succ k ih =>
    intro st s
    unfold rxLoop
    split
    · exact take s _
    · split
      · exact take s _
      · exact trans _ _ _ (take s _) (ih _ _)
    · exact trans _ _ _ (trans _ _ _ (take s _) (fcs _)) (ih _ _)
    · exact trans _ _ _ (trans _ _ _ (take s _) (malformed _)) (ih _ _)
    · split
      · exact take s _
      · exact trans _ _ _ (trans _ _ _ (take s _) (disp _ _)) (ih _ _)

theorem receive_ran (bytes : List Byte) : CmuxRan s (s.receive bytes).2 :=
  (CmuxRan.of_setMuxRx s _).trans (rxLoop_induct CmuxRan CmuxRan.refl (fun _ _ _ => CmuxRan.trans)
    (fun s _ => CmuxRan.of_setMuxRx s _) (fun s => CmuxRan.of_log s _) (fun s => CmuxRan.of_log s _) dispatch_ran _ _ _)

/-! ### The two loops: when they stall, what status they keep, how many rounds they need -/

/-- `MustStall` is what R181 says. -/
theorem mustStall_iff (f : Frame) : s.mustStall f = true ↔ s.Stalls f := by
  simp only [mustStall, Bool.and_eq_true, Bool.not_eq_true', decide_eq_true_eq, and_assoc]
  exact Iff.rfl

theorem keepFirst_assoc (a b c : Status) : keepFirst (keepFirst a b) c = keepFirst a (keepFirst b c) := by
  by_cases h : a = .ok <;> simp [keepFirst, h]

theorem keepFirst_ok (a : Status) : keepFirst a .ok = a := by
  by_cases h : a = .ok <;> simp [keepFirst, h]

/-- The parse loop keeps the first status that is not `Ok`, and does the same whatever it was started with (R177). -/
theorem rxLoop_status : ∀ (k : Nat) (st : Status) (s : State),
    rxLoop k st s = (keepFirst st (rxLoop k .ok s).1, (rxLoop k .ok s).2) := by
  intro k
  induction k with
  | zero => exact fun st s => by rw [rxLoop, rxLoop, keepFirst_ok]
  | succ k ih =>
    intro st s
    unfold rxLoop
    cases parseFifo s.par s.muxRx .any with
    | incomplete n => simp only [keepFirst_ok]
    | notFound n =>
      dsimp only
      split
      · simp only [keepFirst_ok]
      · exact ih _ _
    | fcsError n => exact ih _ _
    | malformed n => exact ih _ _
    | frame n f =>
      dsimp only
      split
      · rfl
      · rw [ih (keepFirst st _), ih (keepFirst .ok _), keepFirst_assoc, keepFirst_assoc]
        rfl

/-- A message keeps the status it was handed, or makes it `TransportError` (R184, R186). -/
theorem controlMessage_status (t l : Byte) (v : List Byte) (st : Status) : (s.controlMessage t l v st).2 =
    (s.controlMessage t l v .ok).2 ∧ ((s.controlMessage t l v st).1 = st ∧ (s.controlMessage t l v .ok).1 = .ok ∨
      (s.controlMessage t l v st).1 = .transportError ∧ (s.controlMessage t l v .ok).1 = .transportError) := by
  unfold controlMessage mscEcho
  split
  · split
    · split
      · split <;> simp
      · simp
    · simp
  · simp

/-- The control loop does the same whatever status it was started with, and ends with that status or `TransportError` (R184). -/
theorem controlLoop_status : ∀ (k : Nat) (st : Status) (s : State), (controlLoop k st s).2 = (controlLoop k .ok s).2 ∧
    ((controlLoop k st s).1 = st ∧ (controlLoop k .ok s).1 = .ok ∨
      (controlLoop k st s).1 = .transportError ∧ (controlLoop k .ok s).1 = .transportError) := by
  intro k
  induction k with
  | zero => exact fun st s => by simp [controlLoop]
  | succ k ih =>
    intro st s
    unfold controlLoop
    dsimp only
    split
    · simp
    · split
      · simp
      · split
        · simp
        · generalize ((s.muxHold.data.drop 2).take ((s.muxHold.peek 1).toNat / 2)) = v
          generalize s.setMuxHold (s.muxHold.advance (2 + (s.muxHold.peek 1).toNat / 2)) = s1
          obtain ⟨h2, h1⟩ := s1.controlMessage_status (s.muxHold.peek 0) (s.muxHold.peek 1) v st
          obtain ⟨a2, a1⟩ := ih (s1.controlMessage (s.muxHold.peek 0) (s.muxHold.peek 1) v st).1
            (s1.controlMessage (s.muxHold.peek 0) (s.muxHold.peek 1) v st).2
          obtain ⟨b2, b1⟩ := ih (s1.controlMessage (s.muxHold.peek 0) (s.muxHold.peek 1) v .ok).1
            (s1.controlMessage (s.muxHold.peek 0) (s.muxHold.peek 1) v .ok).2
          rw [h2] at a1 a2 ⊢
          refine ⟨a2.trans b2.symm, ?_⟩
          rcases h1 with ⟨e1, e2⟩ | ⟨e1, e2⟩ <;> rw [e1] at a1 ⊢ <;> rw [e2] at b1 ⊢
          · exact a1
          · exact .inr ⟨by tauto, by tauto⟩

/-! ### The invariant (R45) under each update -/

theorem Inv.of_same {s t : State} (hs : s.Inv) (hm : t.mux = s.mux) (hc : t.cfg = s.cfg) : t.Inv := by
  intro m h
  rw [hm] at h
  have := hs m h
  rwa [show t.par = s.par by rw [State.par, State.par, hc]]

theorem Inv.of_link {s t : State} (hs : s.Inv) (h : LinkRan s t) : t.Inv := hs.of_same h.mux h.cfg

/-- A channel entry of a context in order is in order. -/
theorem Inv.chan {s : State} (hs : s.Inv) (he : s.enabled = true) (n : Nat) (hn : n ≤ s.par.maxChannels) :
    ChannelOk s.par n (s.chan n) := by
  obtain ⟨m, hm⟩ := (enabled_iff s).1 he
  have := (hs m hm).2.2.2.2.2 n (by omega)
  rwa [State.chan, hm]

theorem Inv.of_setChan {s : State} (hs : s.Inv) (n : Nat) (c : Channel) (hn : n ≤ s.par.maxChannels)
    (hc : s.enabled = true → ChannelOk s.par n c) : (s.setChan n c).Inv := by
  intro m hm
  rcases h : s.mux with _ | m0
  · simp [setChan, modMux, h] at hm
  · obtain ⟨h1, h2, h3, h4, h5, h6⟩ := hs m0 h
    simp only [setChan, modMux, h, Option.map_some, Option.mem_def, Option.some.injEq] at hm
    subst hm
    refine ⟨h1, h2, h3, h4, ?_, fun k hk => ?_⟩
    · rw [Mux.setChan_length m0 n c (by omega)]
      exact h5
    · by_cases e : k = n
      · subst e
        rw [Mux.setChan_chan_same]
        exact hc ((enabled_iff s).2 ⟨m0, h⟩)
      · rw [Mux.setChan_chan_ne m0 n k c e]
        exact h6 k hk

theorem Inv.of_setMuxRx {s : State} (hs : s.Inv) (q : Fifo) (hq : s.enabled = true → q.cap = s.muxRx.cap ∧ q.wf = true) :
    (s.setMuxRx q).Inv := by
  intro m hm
  rcases h : s.mux with _ | m0
  · simp [setMuxRx, modMux, h] at hm
  · obtain ⟨h1, h2, h3, h4, h5, h6⟩ := hs m0 h
    have hq' := hq ((enabled_iff s).2 ⟨m0, h⟩)
    simp only [State.muxRx, h] at hq'
    simp only [setMuxRx, modMux, h, Option.map_some, Option.mem_def, Option.some.injEq] at hm
    subst hm
    exact ⟨hq'.1.trans h1, hq'.2, h3, h4, h5, h6⟩

theorem Inv.of_setMuxHold {s : State} (hs : s.Inv) (q : Fifo)
    (hq : s.enabled = true → q.cap = s.muxHold.cap ∧ q.wf = true) : (s.setMuxHold q).Inv := by
  intro m hm
  rcases h : s.mux with _ | m0
  · simp [setMuxHold, modMux, h] at hm
  · obtain ⟨h1, h2, h3, h4, h5, h6⟩ := hs m0 h
    have hq' := hq ((enabled_iff s).2 ⟨m0, h⟩)
    simp only [State.muxHold, h] at hq'
    simp only [setMuxHold, modMux, h, Option.map_some, Option.mem_def, Option.some.injEq] at hm
    subst hm
    exact ⟨h1, h2, hq'.1.trans h3, hq'.2, h5, h6⟩

theorem Inv.muxRx_wf {s : State} (hs : s.Inv) : s.muxRx.wf = true := by
  rcases h : s.mux with _ | m
  · simp [State.muxRx, h]
  · simpa [State.muxRx, h] using (hs m h).2.1

theorem Inv.muxHold_wf {s : State} (hs : s.Inv) : s.muxHold.wf = true := by
  rcases h : s.mux with _ | m
  · simp [State.muxHold, h]
  · simpa [State.muxHold, h] using (hs m h).2.2.2.1

end State

end Sys2Proof.Machine
end

