-- ==== Sys2Proof/Laws/FuelGauge.lean ====
section
/-! SUPPORT. What the operations of the FG unit can do, said once: `FgRan` for all of them, and the exact effect of the
compound ones under listed bus answers. -/

namespace Sys2Proof.Machine

open Sys2Proof

/-- What any part of an FG operation does to everything that is not its own. -/
structure FgRan (s t : State) : Prop where
  cfg : t.cfg = s.cfg
  mux : t.mux = s.mux
  requests : t.requests = s.requests
  result : t.result = s.result
  link : t.env.link = s.env.link
  out : ∃ new : List TraceEntry, t.out = s.out ++ new ∧ ∀ e ∈ new, e.ofFg = true

namespace FgRan

theorem refl (s : State) : FgRan s s := ⟨rfl, rfl, rfl, rfl, rfl, [], by simp, by simp⟩

theorem trans {s t u : State} (h : FgRan s t) (k : FgRan t u) : FgRan s u := by
  obtain ⟨n1, e1, f1⟩ := h.out
  obtain ⟨n2, e2, f2⟩ := k.out
  refine ⟨k.cfg.trans h.cfg, k.mux.trans h.mux, k.requests.trans h.requests, k.result.trans h.result,
    k.link.trans h.link, n1 ++ n2, by rw [e2, e1, List.append_assoc], ?_⟩
  intro e he
  rcases List.mem_append.1 he with he | he
  · exact f1 e he
  · exact f2 e he

theorem par {s t : State} (h : FgRan s t) : t.par = s.par := by rw [State.par, State.par, h.cfg]

theorem of_modFg (s : State) (f : Fg → Fg) : FgRan s (s.modFg f) := ⟨rfl, rfl, rfl, rfl, rfl, [], by simp, by simp⟩

theorem of_emit (s : State) (e : TraceEntry) (h : e.ofFg = true) : FgRan s (s.emit e) :=
  ⟨rfl, rfl, rfl, rfl, rfl, [e], rfl, by simpa using h⟩

theorem of_log (s : State) (e : LogEntry) : FgRan s (s.log e) := of_emit s _ rfl

theorem of_delay (s : State) (d : Nat) : FgRan s (s.delay d) := of_emit s _ rfl

end FgRan

namespace State

variable (s : State)

theorem busWrite_ran (b : List Byte) : FgRan s (s.busWrite b).2 := by
  rw [busWrite_eq]
  exact ⟨rfl, rfl, rfl, rfl, s.takeBusReply_link 0, _, rfl, by simp [TraceEntry.ofFg]⟩

theorem busRead_ran (n : Nat) : FgRan s (s.busRead n).2 := by
  rw [busRead_eq]
  exact ⟨rfl, rfl, rfl, rfl, s.takeBusReply_link n, _, rfl, by simp [TraceEntry.ofFg]⟩

theorem regWrite_ran (reg : Byte) (d : List Byte) (t : Nat) : FgRan s (s.regWrite reg d t).2 := by
  have h : FgRan s ((s.setLastReg reg).busWrite (reg :: d)).2 := (FgRan.of_modFg s _).trans (busWrite_ran _ _)
  unfold regWrite
  split <;> rename_i s1 e <;> rw [e] at h
  · exact h.trans (FgRan.of_delay _ _)
  · exact h

theorem regRead_ran (reg : Byte) (n t : Nat) : FgRan s (s.regRead reg n t).2 := by
  have h : FgRan s ((s.setLastReg reg).busWrite [reg]).2 := (FgRan.of_modFg s _).trans (busWrite_ran _ _)
  unfold regRead
  split <;> rename_i s1 e <;> rw [e] at h
  · exact h
  · have k := h.trans (busRead_ran s1 n)
    split <;> rename_i s2 e2 <;> rw [e2] at k
    · exact k.trans (FgRan.of_delay _ _)
    · exact k

theorem sumLenRead_ran : FgRan s s.sumLenRead.2 := by
  have h := regRead_ran s s.par.fgRegMacSum 1 s.par.fgTSettle
  unfold sumLenRead
  split <;> rename_i s1 e <;> rw [e] at h
  · exact h
  · have k := h.trans (regRead_ran s1 s1.par.fgRegMacLen 1 s1.par.fgTSettle)
    split <;> rename_i s2 e2 <;> rw [e2] at k
    · exact k
    · exact k

theorem sumLenWrite_ran (sum len : Byte) : FgRan s (s.sumLenWrite sum len).2 := by
  have h : FgRan s ((s.setLastChecksum sum).regWrite s.par.fgRegMacSum [sum] s.par.fgTSettle).2 :=
    (FgRan.of_modFg s _).trans (regWrite_ran _ _ _ _)
  unfold sumLenWrite
  split <;> rename_i s1 e <;> rw [e] at h
  · exact h
  · exact h.trans (regWrite_ran s1 _ _ _)

theorem checkSumLen_ran (sum len : Byte) : FgRan s (s.checkSumLen sum len) := by
  unfold checkSumLen
  dsimp only
  split <;> split
  · exact (FgRan.of_log _ _).trans (FgRan.of_log _ _)
  · exact FgRan.of_log _ _
  · exact FgRan.of_log _ _
  · exact FgRan.refl _

theorem setMacBuf_ran (d : List Byte) : FgRan s (s.setMacBuf d) := FgRan.of_modFg s _

theorem readExt_ran (sub : U16) (n : Nat) : FgRan s (s.readExt sub n).2 := by
  have h := regWrite_ran s s.par.fgRegMacCmd (le16 sub) s.par.fgTMac
  unfold readExt
  split <;> rename_i s1 e <;> rw [e] at h
  · exact h
  · have k : FgRan s (s1.setLastSubCmd sub).sumLenRead.2 := (h.trans (FgRan.of_modFg s1 _)).trans (sumLenRead_ran _)
    split <;> rename_i s2 e2 <;> rw [e2] at k
    · exact k
    · rename_i v
      have l := (k.trans (checkSumLen_ran s2 v.1 v.2)).trans
        (regRead_ran (s2.checkSumLen v.1 v.2) s2.par.fgRegMacData n s2.par.fgTSettle)
      split <;> rename_i s3 e3 <;> rw [e3] at l
      · exact l
      · exact l.trans (setMacBuf_ran _ _)

theorem writePayload_ran (sub : U16) (pay : List Byte) : FgRan s (s.writePayload sub pay).2 := by
  unfold writePayload
  split
  · exact regWrite_ran s _ _ _
  · have h := regWrite_ran s s.par.fgRegMacCmd (le16 sub) s.par.fgTSettle
    split <;> rename_i s1 e <;> rw [e] at h
    · exact h
    · exact h.trans (regWrite_ran s1 _ _ _)

theorem preRead_ran (sub : U16) (p : Bool) : FgRan s (s.preRead sub p).2 := by
  unfold preRead
  split
  · have h := readExt_ran s sub fgMacLen
    split <;> rename_i s1 e <;> rw [e] at h <;> exact h
  · exact FgRan.refl s

theorem commitExt_ran (sub : U16) : FgRan s (s.commitExt sub).2 := by
  unfold commitExt
  dsimp only
  have h := writePayload_ran s sub s.fg.macBuf.toList
  split <;> rename_i s1 e <;> rw [e] at h
  · exact h
  · have k : FgRan s ((s1.setLastSubCmd sub).sumLenWrite (fgChecksum s1.par sub s.fg.macBuf.toList)
        (lengthRegister s1.par)).2 := (h.trans (FgRan.of_modFg s1 _)).trans (sumLenWrite_ran _ _ _)
    split <;> rename_i s2 e2 <;> rw [e2] at k
    · exact k
    · have l := k.trans (readExt_ran s2 sub fgMacLen)
      split <;> rename_i s3 e3 <;> rw [e3] at l
      · exact l
      · split
        · exact l.trans (FgRan.of_log _ _)
        · exact l

end State

theorem State.setLastCtrl_ran (s : State) (v : U16) : FgRan s (s.setLastCtrl v) := FgRan.of_modFg s _

theorem pollLoop_ran (left k : Nat) (s : State) : FgRan s (pollLoop left k s).2 := by
  induction left generalizing k s with
  | zero => exact FgRan.refl s
  | succ left ih =>
    have h := State.regRead_ran s s.par.fgRegControl 2 fgPollMs
    unfold pollLoop
    split <;> rename_i s1 e <;> rw [e] at h
    · exact h
    · split
      · exact h.trans (s1.setLastCtrl_ran _)
      · exact (h.trans (FgRan.of_modFg s1 _)).trans (ih _ _)

theorem readBlocks_ran (l : List Byte) (s : State) : FgRan s (readBlocks l s).2 := by
  induction l generalizing s with
  | nil => exact FgRan.refl s
  | cons b rest ih =>
    have h := State.regRead_ran s b fgBlockLen s.par.fgTSettle
    unfold readBlocks
    split <;> rename_i s1 e <;> rw [e] at h
    · exact h
    · have k := h.trans (ih s1)
      split <;> rename_i s2 e2 <;> rw [e2] at k <;> exact k

theorem writeModeWords_ran (l : List U16) (s : State) : FgRan s (writeModeWords l s).2 := by
  induction l generalizing s with
  | nil => exact FgRan.refl s
  | cons w rest ih =>
    have h := State.regWrite_ran s s.par.fgRegControl (le16 w) s.par.fgTSettle
    unfold writeModeWords
    split <;> rename_i s1 e <;> rw [e] at h
    · exact h
    · exact (h.trans (FgRan.of_modFg s1 _)).trans (ih _)

/-- What an FG operation leaves alone: the result is the only other thing it writes. -/
structure FgDone (s t : State) : Prop where
  cfg : t.cfg = s.cfg
  mux : t.mux = s.mux
  requests : t.requests = s.requests
  link : t.env.link = s.env.link
  out : ∃ new : List TraceEntry, t.out = s.out ++ new ∧ ∀ e ∈ new, e.ofFg = true
  result : ∃ r : Result, t.result = some r

theorem FgRan.finish {s t : State} (h : FgRan s t) (st : Status) (o : Output) : FgDone s (t.finish st o) :=
  ⟨h.cfg, h.mux, h.requests, h.link, h.out, _, rfl⟩

theorem FgRan.fail {s t : State} (h : FgRan s t) (st : Status) : FgDone s (t.fail st) := h.finish st .none

theorem State.setRaw_ran (s : State) (d : List Byte) : FgRan s (s.setRaw d) := FgRan.of_modFg s _

theorem State.scrambleRaw_ran (s : State) : FgRan s s.scrambleRaw := by
  unfold State.scrambleRaw
  simp only [State.drawBytes]
  exact FgRan.trans (t := { s with env := { s.env with draws := s.env.draws + 128 } })
    ⟨rfl, rfl, rfl, rfl, rfl, [], by simp, by simp⟩ (State.setRaw_ran _ _)

theorem modeCommand_done (l : List U16) (s : State) : FgDone s (modeCommand l s) := by
  have h := writeModeWords_ran l s
  unfold modeCommand
  split <;> rename_i s1 e <;> rw [e] at h
  · exact (h.trans (FgRan.of_delay _ _)).finish _ _
  · exact h.fail _

/-! ### Compound operations under listed bus answers -/

namespace State

variable (s : State)

/-- Both registers answered (R222). -/
theorem sumLenRead_ok (a b : Byte) (x y : List Byte) (rest : List BusReply)
    (h : s.env.bus = .ok x :: .ok [a] :: .ok y :: .ok [b] :: rest) : s.sumLenRead =
    (some (a, b), { s with
      fg := { s.fg with lastReg := s.par.fgRegMacLen }
      env := { s.env with bus := rest }
      out := s.out ++ [.busWrite s.par.fgDevAddr [s.par.fgRegMacSum] true, .busRead s.par.fgDevAddr 1 (some [a]),
        .delay s.par.fgTSettle, .busWrite s.par.fgDevAddr [s.par.fgRegMacLen] true, .busRead s.par.fgDevAddr 1 (some [b]),
        .delay s.par.fgTSettle] }) := by
  unfold sumLenRead
  rw [regRead_ok s _ 1 _ x [a] (.ok y :: .ok [b] :: rest) h (by simp)]
  dsimp only
  rw [regRead_ok _ _ 1 _ y [b] rest rfl (by simp)]
  simp

/-- Both writes answered (R223). -/
theorem sumLenWrite_ok (sum len : Byte) (x y : List Byte) (rest : List BusReply)
    (h : s.env.bus = .ok x :: .ok y :: rest) : s.sumLenWrite sum len =
    (true, { s with
      fg := { s.fg with lastReg := s.par.fgRegMacLen, lastChecksum := sum }
      env := { s.env with bus := rest }
      out := s.out ++ [.busWrite s.par.fgDevAddr [s.par.fgRegMacSum, sum] true, .delay s.par.fgTSettle,
        .busWrite s.par.fgDevAddr [s.par.fgRegMacLen, len] true, .delay s.par.fgTSettle] }) := by
  unfold sumLenWrite
  rw [regWrite_ok _ _ _ _ x (.ok y :: rest) (by simpa using h)]
  dsimp only
  rw [regWrite_ok _ _ _ _ y rest rfl]
  simp [setLastChecksum, modFg]

/-- `fg.macBuf` after its front is written: the rest keeps its content (R38). -/
theorem setMacBuf_toList (d : List Byte) (hd : d.length ≤ 32) :
    (s.setMacBuf d).fg.macBuf.toList = d ++ s.fg.macBuf.toList.drop d.length := by
  apply List.ext_getElem
  · simp; omega
  · intro i h1 h2
    simp only [setMacBuf, modFg, Vector.getElem_toList, Vector.getElem_ofFn]
    split
    · rename_i h
      rw [List.getElem_append_left h, List.getD_eq_getElem _ _ h]
    · rename_i h
      rw [List.getElem_append_right (by omega)]
      have e : d.length + (i - d.length) = i := by omega
      simp only [List.getElem_drop, Vector.getElem_toList, e]
      rfl

/-- The two comparisons (R230, R231): log entries and nothing else. -/
theorem checkSumLen_eq (sum len : Byte) : s.checkSumLen sum len = { s with
    out := s.out ++ (if sum ≠ s.fg.lastChecksum then [.log (.checksumMismatch s.fg.lastChecksum sum)] else []) ++
      (if len ≠ lengthRegister s.par then [.log (.lengthMismatch (lengthRegister s.par) len)] else []) } := by
  unfold checkSumLen
  dsimp only
  by_cases h1 : sum = s.fg.lastChecksum <;> by_cases h2 : len = lengthRegister s.par <;>
    simp [h1, h2, log, emit]

/-- The model's length constant is the one the statements spell out (R231, R239). -/
theorem lengthRegister_eq (p : Params) : lengthRegister p = lengthByte p := rfl

/-- An extended-memory read answered at every transfer (R229). -/
theorem readExt_ok (sub : U16) (n : Nat) (a b : Byte) (d : List Byte) (rest : List BusReply) (hd : d.length = n)
    (h : s.env.bus = readExtReplies a b d ++ rest) : s.readExt sub n =
    (some d, ({ s with
      fg := { s.fg with lastReg := s.par.fgRegMacData, lastSubCmd := sub }
      env := { s.env with bus := rest }
      out := s.out ++ readExtTrace s.par s.fg.lastChecksum sub n a b d } : State).setMacBuf d) := by
  unfold readExt
  rw [regWrite_ok s _ _ _ [] ([.ok [], .ok [a], .ok [], .ok [b], .ok [], .ok d] ++ rest) (by rw [h]; rfl)]
  dsimp only
  rw [sumLenRead_ok _ a b [] [] ([.ok [], .ok d] ++ rest) rfl]
  dsimp only
  rw [checkSumLen_eq, regRead_ok _ _ n _ [] d rest rfl (by omega)]
  subst hd
  simp only [lengthRegister_eq]
  by_cases h1 : a = s.fg.lastChecksum <;> by_cases h2 : b = lengthByte s.cfg.params <;>
    simp [readExtTrace, setLastSubCmd, modFg, par, le16, h1, h2]

/-- An extended-memory read whose transfer number `j` fails (R229, R247): `fg.macBuf` stays. -/
theorem readExt_stopped (sub : U16) (n : Nat) (a b : Byte) (d : List Byte) (rest : List BusReply) (j : Nat) (hj : j < 7)
    (hd : d.length = n) (h : s.env.bus = (readExtReplies a b d).take j ++ .error :: rest) : s.readExt sub n =
    (none, { s with
      fg := { s.fg with
        lastReg := (readExtRegs s.par).getD j 0
        lastSubCmd := if j = 0 then s.fg.lastSubCmd else sub }
      env := { s.env with bus := rest }
      out := s.out ++ stoppedAt (readExtTrace s.par s.fg.lastChecksum sub n a b d) j }) := by
  simp only [readExtReplies] at h
  subst hd
  rcases j with _ | _ | _ | _ | _ | _ | _ | j <;>
    simp only [List.take_zero, List.take_succ_cons, List.nil_append, List.cons_append, Nat.zero_add, Nat.reduceAdd] at h
  case succ.succ.succ.succ.succ.succ.succ => omega
  all_goals
    simp only [readExt, sumLenRead, regWrite, regRead, busWrite, busRead, takeBusReply, h, checkSumLen_eq, setLastReg,
      setLastSubCmd, modFg, emit, delay, par, lengthRegister_eq]
    by_cases h1 : a = s.fg.lastChecksum <;> by_cases h2 : b = lengthByte s.cfg.params <;>
      simp [readExtRegs, readExtTrace, stoppedAt, le16, h1, h2]

end State

end Sys2Proof.Machine
end

