-- ==== Sys2Proof/Laws/PerInstr.lean ====
section
/-! SUPPORT. The per-instruction family `EncodeHead`: a request starts with the code its instruction is known by, and
its operand bytes follow. -/

namespace Sys2Proof.Laws.EncodeHead

open Sys2Proof

/-- The first byte of an instruction's request is its op-select code (R112) or control byte (R93), and the operand bytes follow. -/
def Statement (i : Instr) : Prop := (encode i).head? = some i.selector ∧ (encode i).tail = encodeOperands i

theorem sabm (a : Nat) (pf : Bool) (s : List Byte) : Statement (.sabm a pf s) := ⟨rfl, rfl⟩

theorem ua (a : Nat) (pf : Bool) (s : List Byte) : Statement (.ua a pf s) := ⟨rfl, rfl⟩

theorem dm (a : Nat) (pf : Bool) (s : List Byte) : Statement (.dm a pf s) := ⟨rfl, rfl⟩

theorem disc (a : Nat) (pf : Bool) (s : List Byte) : Statement (.disc a pf s) := ⟨rfl, rfl⟩

theorem uih (a : Nat) (pf : Bool) (s : List Byte) : Statement (.uih a pf s) := ⟨rfl, rfl⟩

theorem ui (a : Nat) (pf : Bool) (s : List Byte) : Statement (.ui a pf s) := ⟨rfl, rfl⟩

theorem muxEnable : Statement (.muxEnable) := ⟨rfl, rfl⟩

theorem muxDisable : Statement (.muxDisable) := ⟨rfl, rfl⟩

theorem encode (a : Nat) (t : TypeOperand) (pf : Bool) (s : List Byte) : Statement (.encode a t pf s) := ⟨rfl, rfl⟩

theorem parse (s : List Byte) (w : AddrFilter) : Statement (.parse s w) := ⟨rfl, rfl⟩

theorem openChannel (n : Nat) (h : Bool) : Statement (.openChannel n h) := ⟨rfl, rfl⟩

theorem closeChannel (h : Nat) : Statement (.closeChannel h) := ⟨rfl, rfl⟩

theorem write (h : Nat) (s : List Byte) : Statement (.write h s) := ⟨rfl, rfl⟩

theorem onBytesReceived (s : List Byte) : Statement (.onBytesReceived s) := ⟨rfl, rfl⟩

theorem channelRead (h m : Nat) : Statement (.channelRead h m) := ⟨rfl, rfl⟩

theorem sendFrame (n : Nat) (t : TypeOperand) (pf : Bool) (s : List Byte) (w : WantedOperand) : Statement (.sendFrame n t pf s w) := ⟨rfl, rfl⟩

theorem fgRegRead (r : Byte) (n : Nat) : Statement (.fgRegRead r n) := ⟨rfl, rfl⟩

theorem fgRegWrite (r : Byte) (s : List Byte) : Statement (.fgRegWrite r s) := ⟨rfl, rfl⟩

theorem fgSumlenRead : Statement (.fgSumlenRead) := ⟨rfl, rfl⟩

theorem fgSumlenWrite (a b : Byte) : Statement (.fgSumlenWrite a b) := ⟨rfl, rfl⟩

theorem fgSendSubcommand (c : U16) : Statement (.fgSendSubcommand c) := ⟨rfl, rfl⟩

theorem fgReadStd : Statement (.fgReadStd) := ⟨rfl, rfl⟩

theorem fgReadExt (c : U16) (n : Nat) : Statement (.fgReadExt c n) := ⟨rfl, rfl⟩

theorem fgWriteExt (c : U16) (d : U32) (q : Nat) (p : Bool) : Statement (.fgWriteExt c d q p) := ⟨rfl, rfl⟩

theorem fgSeal : Statement (.fgSeal) := ⟨rfl, rfl⟩

theorem fgUnseal : Statement (.fgUnseal) := ⟨rfl, rfl⟩

theorem fgEnterCfgUpdate : Statement (.fgEnterCfgUpdate) := ⟨rfl, rfl⟩

theorem fgReset : Statement (.fgReset) := ⟨rfl, rfl⟩

end Sys2Proof.Laws.EncodeHead
end

