-- ==== Sys2Proof/Tests/Slice0.lean ====
section
/-! SUPPORT. Tests: well-formedness refusals, decoded words, the worked examples of the spec, and for each obligation with premises
a concrete case that meets them. -/

namespace Sys2Proof.Tests

open Sys2Proof Sys2Proof.Machine

/-! ### Well-formedness: each check refuses an ill-formed term -/

theorem test_wf_refuses_large_natural : (Instr.closeChannel 4294967296).wf = false := by decide

theorem test_wf_refuses_large_id : (Instr.parse [] (.id 255)).wf = false := by decide

theorem test_wf_refuses_long_bytes : (Instr.onBytesReceived (List.replicate 4294967296 0)).wf = false := by
  simp only [Instr.wf, bytesFit, natFits, List.length_replicate]
  decide

theorem test_wf_refuses_large_address : (Instr.uih 4294967296 false []).wf = false := by decide

theorem test_wf_accepts_bounds : (Instr.fgRegRead 0xFF 4294967295).wf = true ∧ (Instr.parse [] (.id 254)).wf = true := by
  decide

/-! ### Decoding: words written out from R93 and R112 (operands laid out as log 2 says) -/

theorem test_decode_sabm : decode .frame [0x3F, 1, 0, 0, 0, 0, 0, 0, 0] = .ok (.sabm 1 true []) := by decide

theorem test_decode_ua : decode .frame [0x63, 1, 0, 0, 0, 0, 0, 0, 0] = .ok (.ua 1 false []) := by decide

theorem test_decode_dm : decode .frame [0x1F, 2, 0, 0, 0, 0, 0, 0, 0] = .ok (.dm 2 true []) := by decide

theorem test_decode_disc : decode .frame [0x43, 61, 0, 0, 0, 0, 0, 0, 0] = .ok (.disc 61 false []) := by decide

theorem test_decode_uih : decode .frame [0xEF, 1, 0, 0, 0, 2, 0, 0, 0, 0x41, 0x42] = .ok (.uih 1 false [0x41, 0x42]) := by
  decide

theorem test_decode_ui : decode .frame [0x13, 3, 0, 0, 0, 1, 0, 0, 0, 0xAA] = .ok (.ui 3 true [0xAA]) := by decide

theorem test_decode_frame_refuses : decode .frame [0xE7, 1, 0, 0, 0, 0, 0, 0, 0] = .error (.unknownFrameType 0xE7) := by
  decide

theorem test_decode_life_cycle : decode .command [0x00] = .ok .muxEnable ∧ decode .command [0x01] = .ok .muxDisable ∧
    decode .command [0x04, 2, 0, 0, 0, 1] = .ok (.openChannel 2 true) ∧
    decode .command [0x05, 2, 1, 0, 0] = .ok (.closeChannel 258) := by decide

theorem test_decode_codec :
    decode .command [0x02, 1, 0, 0, 0, 0xEF, 1, 1, 0, 0, 0, 0x41] = .ok (.encode 1 (.legal .uih) true [0x41]) ∧
    decode .command [0x03, 2, 0, 0, 0, 0xF9, 0x07, 0xFF] = .ok (.parse [0xF9, 0x07] .any) ∧
    decode .command [0x03, 0, 0, 0, 0, 0x05] = .ok (.parse [] (.id 5)) := by decide

theorem test_decode_data :
    decode .command [0x06, 1, 0, 0, 0, 1, 0, 0, 0, 0x58] = .ok (.write 1 [0x58]) ∧
    decode .command [0x07, 1, 0, 0, 0, 0xF9] = .ok (.onBytesReceived [0xF9]) ∧
    decode .command [0x08, 1, 0, 0, 0, 8, 0, 0, 0] = .ok (.channelRead 1 8) ∧
    decode .command [0x09, 1, 0, 0, 0, 0x2F, 1, 0, 0, 0, 0, 0x63] = .ok (.sendFrame 1 (.legal .sabm) true [] (.type .ua)) := by
  decide

theorem test_decode_registers :
    decode .command [0x10, 0x08, 2, 0, 0, 0] = .ok (.fgRegRead 0x08 2) ∧
    decode .command [0x11, 0x3E, 2, 0, 0, 0, 0x9F, 0x92] = .ok (.fgRegWrite 0x3E [0x9F, 0x92]) ∧
    decode .command [0x12] = .ok .fgSumlenRead ∧
    decode .command [0x13, 0x64, 0x24] = .ok (.fgSumlenWrite 0x64 0x24) := by decide

theorem test_decode_gauge :
    decode .command [0x14, 0x01, 0x02] = .ok (.fgSendSubcommand 0x0201) ∧
    decode .command [0x15] = .ok .fgReadStd ∧
    decode .command [0x16, 0x9F, 0x92, 1, 0, 0, 0] = .ok (.fgReadExt 0x929F 1) ∧
    decode .command [0x17, 0x9F, 0x92, 0xB8, 0x0B, 0, 0, 2, 0, 0, 0, 1] = .ok (.fgWriteExt 0x929F 0x0BB8 2 true) := by decide

theorem test_decode_modes :
    decode .command [0x18] = .ok .fgSeal ∧ decode .command [0x19] = .ok .fgUnseal ∧
    decode .command [0x1A] = .ok .fgEnterCfgUpdate ∧ decode .command [0x1B] = .ok .fgReset := by decide

theorem test_decode_refuses :
    decode .command [0x0A] = .error (.unassignedOpSelect 0x0A) ∧ decode .command [0x05, 1] = .error .truncated ∧
    decode .command [0x04, 1, 0, 0, 0, 2] = .error .notABit ∧ decode .command [] = .error .truncated := by decide

/-! ### The table of R102 -/

theorem test_crc_rows_0_1 : ((List.range 32).map fun i => crcTable (BitVec.ofNat 8 i)) =
    [0x00, 0x91, 0xE3, 0x72, 0x07, 0x96, 0xE4, 0x75, 0x0E, 0x9F, 0xED, 0x7C, 0x09, 0x98, 0xEA, 0x7B] ++
    [0x1C, 0x8D, 0xFF, 0x6E, 0x1B, 0x8A, 0xF8, 0x69, 0x12, 0x83, 0xF1, 0x60, 0x15, 0x84, 0xF6, 0x67] := by decide

theorem test_crc_row_8 : ((List.range 16).map fun i => crcTable (BitVec.ofNat 8 (128 + i))) =
    [0xE0, 0x71, 0x03, 0x92, 0xE7, 0x76, 0x04, 0x95, 0xEE, 0x7F, 0x0D, 0x9C, 0xE9, 0x78, 0x0A, 0x9B] := by decide

theorem test_crc_row_F : ((List.range 16).map fun i => crcTable (BitVec.ofNat 8 (240 + i))) =
    [0xB4, 0x25, 0x57, 0xC6, 0xB3, 0x22, 0x50, 0xC1, 0xBA, 0x2B, 0x59, 0xC8, 0xBD, 0x2C, 0x5E, 0xCF] := by decide

/-! ### States to test on -/

set_option maxRecDepth 20000

/-- The state after an instruction that answers a next state. -/
def after (i : Instr) (s : State) : State :=
  match exec i s with
  | .next t => t
  | .fault _ => s
  | .refused _ => s

/-- The same state with these answers of the link to come. -/
def withLink (l : List LinkReply) (s : State) : State := { s with env := { s.env with link := l } }

/-- The same state with these answers of the bus to come. -/
def withBus (l : List BusReply) (s : State) : State := { s with env := { s.env with bus := l } }

/-- A context with nothing open. -/
def on : State := after .muxEnable State.reset

/-- Channels 0 and 1 open. -/
def open01 : State := after (.openChannel 1 true) (after (.openChannel 0 true) on)

/-- Channels 0 and 1 open, with data in channel 1. -/
def filled (d : List Byte) (off : Bool) : State :=
  open01.setChan 1 { open01.chan 1 with rx := ⟨10, d⟩, rxIsFlowControlledOff := off }

/-- Parameters with overflow not discarded. -/
def stallingParams : Params := { Params.atReset with discardOnOverflow := false, maxInfoLen := 10 }

/-- Channels 0 and 1 open, overflow not discarded, channel 1 full but for one byte. -/
def stalling : State :=
  let s := after (.openChannel 1 true) (after (.openChannel 0 true)
    (after .muxEnable (State.powerOn ⟨stallingParams, by decide⟩)))
  s.setChan 1 { s.chan 1 with rx := ⟨10, [1, 2, 3, 4, 5, 6, 7, 8, 9]⟩ }

/-! ### Worked examples of the spec -/

/-- 40_frame_codec.md R131 to R136. -/
theorem test_encode_examples :
    encodeFrame Params.atReset 1 .sabm true [] = .ok [0xF9, 0x07, 0x3F, 0x89, 0xF9] ∧
    encodeFrame Params.atReset 1 .ua false [] = .ok [0xF9, 0x05, 0x63, 0x36, 0xF9] ∧
    encodeFrame Params.atReset 1 .dm true [] = .ok [0xF9, 0x05, 0x1F, 0x6B, 0xF9] ∧
    encodeFrame Params.atReset 2 .disc true [] = .ok [0xF9, 0x0B, 0x53, 0x57, 0xF9] ∧
    encodeFrame Params.atReset 61 .uih false [] = .ok [0xF9, 0xF7, 0xEF, 0x01, 0xD5, 0xF9] ∧
    encodeFrame Params.atReset 3 .ui true [1, 2, 3] = .ok [0xF9, 0x0F, 0x13, 0x07, 1, 2, 3, 0xCA, 0xF9] := by decide

/-- 40_frame_codec.md R130. -/
theorem test_exec_encode : (after (.encode 1 (.legal .uih) false [0x41, 0x42]) State.reset).result =
    some ⟨.ok, .bytes [0xF9, 0x07, 0xEF, 0x05, 0x41, 0x42, 0x30, 0xF9]⟩ := by decide

/-- 40_frame_codec.md R131: `P_LEN_ALL_TYPES` = 1. -/
theorem test_sabm_with_length :
    frameBytes { Params.atReset with lenAllTypes := true } 1 .sabm true [] = [0xF9, 0x07, 0x3F, 0x01, 0xDE, 0xF9] := by decide

/-- 40_frame_codec.md R138, R140, R146, R148. -/
theorem test_parse_examples :
    parseBytes Params.atReset [0xF9, 0x07, 0xEF, 0x05, 0x41, 0x42, 0x30, 0xF9] .any =
      .frame 8 ⟨1, true, .uih, false, [0x41, 0x42]⟩ ∧
    parseBytes Params.atReset [0xF9, 0xF9] .any = .incomplete 1 ∧
    parseBytes Params.atReset [0xF9, 0x07, 0xEF, 0x05, 0x41, 0x42, 0x31, 0xF9] .any = .fcsError 8 ∧
    parseBytes Params.atReset [0xF9, 0x07, 0xEF, 0x05, 0x41, 0x42, 0x30, 0xF9] (.id 2) = .notFound 8 := by decide

/-- 40_frame_codec.md R139, R141, R143, R145, R147. -/
theorem test_parse_refusals :
    parseBytes Params.atReset [0x00, 0x13, 0x41] .any = .notFound 3 ∧
    parseBytes Params.atReset [0x55, 0xF9, 0x07] .any = .incomplete 1 ∧
    parseBytes Params.atReset [0xF9, 0x07, 0xEF, 0x04, 0x41, 0x42, 0x30, 0xF9] .any = .malformed 1 ∧
    parseBytes Params.atReset [0xF9, 0x07, 0xEF, 0x01, 0x41, 0x42, 0x30, 0xF9] .any = .malformed 1 ∧
    parseBytes Params.atReset [0xF9, 0x07, 0xE7, 0x0B, 0xF9] .any = .malformed 5 := by decide

/-- 41_channel_manager.md R172, with `MAX_CHANNELS` = 4. -/
theorem test_open_channel : (after (.openChannel 1 true) on).result = some ⟨.ok, .handle 1⟩ ∧
    (after (.openChannel 1 true) open01).result = some ⟨.alreadyOpen, .none⟩ ∧
    (after (.openChannel 5 true) on).result = some ⟨.resourceExhausted, .none⟩ ∧
    (after (.openChannel 62 true) on).result = some ⟨.invalidArgument, .none⟩ ∧
    (after (.openChannel 3 false) on).result = some ⟨.protocolError, .none⟩ := by decide

/-- 41_channel_manager.md R170, R171. -/
theorem test_mux_enable_twice : on.result = some ⟨.ok, .none⟩ ∧ (after .muxEnable on).result = some ⟨.invalidArgument, .none⟩ ∧
    (after .muxDisable on).mux = none := by decide

/-- 41_channel_manager.md R174. -/
theorem test_write : (after (.write 1 [0x41, 0x54, 0x0D]) (withLink [.sent 9] open01)).out =
    [.linkWrite [0xF9, 0x07, 0xEF, 0x07, 0x41, 0x54, 0x0D, 0xD3, 0xF9] (.sent 9)] := by decide

/-- 41_channel_manager.md R176: a short link write fails. -/
theorem test_write_short : (after (.write 1 [0x41, 0x54, 0x0D]) (withLink [.sent 8] open01)).result =
    some ⟨.transportError, .bytesWritten 0⟩ := by decide

/-- 41_channel_manager.md R175. -/
theorem test_send_frame : (after (.sendFrame 1 (.legal .sabm) true [] (.type .ua)) (withLink [.sent 5] on)).out =
    [.linkWrite [0xF9, 0x07, 0x3F, 0x89, 0xF9] (.sent 5)] ∧
    ((after (.sendFrame 1 (.legal .sabm) true [] (.type .ua)) (withLink [.sent 5] on)).chan 1).wanted = some .ua := by decide

/-- 41_channel_manager.md R173 (channel 1). -/
theorem test_close_channel : ((after (.closeChannel 1) (withLink [.sent 5] open01)).chan 1).state = .openDisconnected ∧
    (after (.closeChannel 1) (withLink [.sent 5] open01)).out =
      [.linkWrite [0xF9, 0x07, 0x53, 0xC8, 0xF9] (.sent 5)] := by decide

/-- 41_channel_manager.md R179: the delivery that crosses the high watermark. -/
theorem test_delivery : (after (.onBytesReceived [0xF9, 0x05, 0xEF, 0x03, 0x06, 0xB5, 0xF9])
    (withLink [.sent 10] (filled [1, 2, 3, 4, 5] false))).out =
    [.event 1 evData, .linkWrite [0xF9, 0x03, 0xEF, 0x09, 0xE3, 0x05, 0x07, 0x8F, 0xFB, 0xF9] (.sent 10), .event 1 evFlow] := by
  decide

/-- 41_channel_manager.md R184: a control message split over two frames. -/
theorem test_split_msc : (after (.onBytesReceived [0xF9, 0x01, 0xEF, 0x05, 0xE3, 0x05, 0x93, 0xF9]) open01).muxHold.data = [0xE3, 0x05] ∧
    (after (.onBytesReceived [0xF9, 0x01, 0xEF, 0x05, 0x07, 0x8F, 0x93, 0xF9]) (withLink [.sent 10]
      (after (.onBytesReceived [0xF9, 0x01, 0xEF, 0x05, 0xE3, 0x05, 0x93, 0xF9]) open01))).out =
      [.event 1 evFlow, .linkWrite [0xF9, 0x03, 0xEF, 0x09, 0xE1, 0x05, 0x07, 0x8F, 0xFB, 0xF9] (.sent 10)] := by decide

/-- 41_channel_manager.md R184: two MSC commands in one field, for channels 1 and 4. -/
theorem test_two_messages :
    (((withLink [.sent 10, .sent 10] open01).controlData [0xE3, 0x05, 0x07, 0x8F, 0xE3, 0x05, 0x13, 0x8F]).1 = .ok) ∧
    ((((withLink [.sent 10, .sent 10] open01).controlData [0xE3, 0x05, 0x07, 0x8F, 0xE3, 0x05, 0x13, 0x8F]).2.chan 4).txIsFlowControlledOff =
      true) := by decide

/-- 41_channel_manager.md R177: a frame with a wrong FCS is logged, and the frame behind it (R179's) is delivered. -/
theorem test_bad_frame_is_dropped : (after (.onBytesReceived [0xF9, 0x07, 0xEF, 0x05, 0x41, 0x42, 0x31, 0xF9,
    0xF9, 0x05, 0xEF, 0x03, 0x06, 0xB5, 0xF9]) open01).out = [.log .protocolFcsError, .event 1 0x01] := by decide

/-- 41_channel_manager.md R181 and 10_state.md R23: a stalled frame stands at the head of the buffer, the noise in front is gone. -/
theorem test_stall_behind_noise :
    (after (.onBytesReceived (0x00 :: Frame.wire stalling.par ⟨1, false, .uih, false, [7, 8]⟩)) stalling).muxRx.data =
      Frame.wire stalling.par ⟨1, false, .uih, false, [7, 8]⟩ ∧
    (after (.onBytesReceived (0x00 :: Frame.wire stalling.par ⟨1, false, .uih, false, [7, 8]⟩)) stalling).result =
      some ⟨.stalled, .accepted 9⟩ := by decide

/-- 41_channel_manager.md R190. -/
theorem test_channel_read : (after (.channelRead 1 1) (withLink [.sent 10] (filled [4, 5, 6, 7, 8] true))).result =
    some ⟨.ok, .bytes [4]⟩ ∧
    (after (.channelRead 1 1) (withLink [.sent 10] (filled [4, 5, 6, 7, 8] true))).out =
    [.linkWrite [0xF9, 0x03, 0xEF, 0x09, 0xE3, 0x05, 0x07, 0x8D, 0xFB, 0xF9] (.sent 10), .event 1 evFlow] := by decide

/-- 42_fuel_gauge.md R220. -/
theorem test_reg_read : (after (.fgRegRead 0x08 2) (withBus [.ok [], .ok [0x0F, 0xA0]] State.reset)).out =
    [.busWrite 0x55 [0x08] true, .busRead 0x55 2 (some [0x0F, 0xA0]), .delay 1] := by decide

/-- 42_fuel_gauge.md R221. -/
theorem test_reg_write : (after (.fgRegWrite 0x3E [0x9F, 0x92]) (withBus [.ok []] State.reset)).out =
    [.busWrite 0x55 [0x3E, 0x9F, 0x92] true, .delay 1] := by decide

/-- 42_fuel_gauge.md R222, R223. -/
theorem test_sumlen : (after .fgSumlenRead (withBus [.ok [], .ok [0x64], .ok [], .ok [0x24]] State.reset)).result =
      some ⟨.ok, .sumLen 0x64 0x24⟩ ∧
    (after (.fgSumlenWrite 0x64 0x24) (withBus [.ok [], .ok []] State.reset)).out =
      [.busWrite 0x55 [0x60, 0x64] true, .delay 1, .busWrite 0x55 [0x61, 0x24] true, .delay 1] := by decide

/-- 42_fuel_gauge.md R224: the sentinel on the third poll. -/
theorem test_subcommand : (after (.fgSendSubcommand 0x0001)
    (withBus [.ok [], .ok [], .ok [0, 0], .ok [], .ok [0, 0], .ok [], .ok [0xA5, 0xFF]] State.reset)).result =
    some ⟨.ok, .polled .sentinel 3⟩ := by decide

/-- 42_fuel_gauge.md R238. -/
theorem test_checksum : fgChecksum Params.atReset 0x929F (0x7B :: List.replicate 31 0) = 0x64 ∧
    fgChecksum Params.atReset 0x929F (0x0B :: 0xB8 :: List.replicate 30 0) = 0x1C ∧
    fgChecksum Params.atReset 0x929F (0xF0 :: List.replicate 31 0) = 0xEF := by decide

/-- 42_fuel_gauge.md R229. -/
theorem test_read_ext : (after (.fgReadExt 0x929F 1) (withBus (readExtReplies 0x64 0x24 [0x7B]) State.reset)).result =
    some ⟨.ok, .bytes [0x7B]⟩ := by decide

/-- 42_fuel_gauge.md R233. -/
theorem test_write_ext_quantity : (after (.fgWriteExt 0x929F 1 3 false) State.reset).out = [.log (.invalidQuantity 3)] := by decide

/-- 42_fuel_gauge.md R241 to R244, with the suggested words. -/
theorem test_mode_commands :
    (after .fgSeal (withBus [.ok []] State.reset)).out = [.busWrite 0x55 [0x00, 0x30, 0x00] true, .delay 1, .delay 2000] ∧
    (after .fgUnseal (withBus [.ok [], .ok []] State.reset)).out =
      [.busWrite 0x55 [0x00, 0x14, 0x04] true, .delay 1, .busWrite 0x55 [0x00, 0x72, 0x36] true, .delay 1, .delay 2000] ∧
    (after .fgEnterCfgUpdate (withBus [.ok []] State.reset)).out =
      [.busWrite 0x55 [0x00, 0x90, 0x00] true, .delay 1, .delay 2000] ∧
    (after .fgReset (withBus [.ok []] State.reset)).out =
      [.busWrite 0x55 [0x00, 0x41, 0x00] true, .delay 1, .delay 2000] := by decide

/-! ### Cases that meet the premises of the obligations, at the edges of their ranges -/

/-- The state with one request to take. -/
def asked (p : Port) (b : List Byte) : State := { State.reset with requests := [⟨p, b⟩] }

theorem witness_DecodeInvertsEncode : (Instr.channelRead 4294967295 0).wf = true ∧
    (Instr.sendFrame 0 .illegal true [0xFF] .illegal).wf = true := by decide

theorem witness_UnassignedCodesAreRefused : ∀ code ∈ ([0x0A, 0x0F, 0x1C, 0xFF] : List Byte),
    (0x09 < code.toNat ∧ code.toNat < 0x10 ∨ 0x1B < code.toNat) ∧
    (asked .command [code]).requests = [⟨.command, [code]⟩] := by decide

theorem witness_StepRunsDecodedRequest : (asked .command [0x00]).requests = ⟨.command, [0x00]⟩ :: [] ∧
    decode .command [0x00] = .ok .muxEnable := by decide

theorem witness_StepAnswersEveryRequest : State.reset.requests = [] ∧
    (asked .command [0x05]).requests = [⟨.command, [0x05]⟩] ∧ decode .command [0x05] = .error .truncated ∧
    decode .command [0x04, 0, 0, 0, 0, 2] = .error .notABit ∧
    decode .frame [0xE7] = .error (.unknownFrameType 0xE7) := by decide

theorem witness_UnnumberedFramesAreBuilt : (61 : Nat) ≤ 61 ∧
    ([] : List Byte).length ≤ State.reset.par.maxInfoLen ∧ (61 < 62 ∨ ([] : List Byte) ≠ []) ∧
    (List.replicate 128 (0 : Byte)).length ≤ State.reset.par.maxInfoLen ∧
    (61 < 61 ∨ List.replicate 128 (0 : Byte) ≠ []) := by decide

theorem witness_EncodeErrorsInOrder :
    State.reset.par.maxInfoLen < (List.replicate 129 (0 : Byte)).length ∧
    (List.replicate 128 (0 : Byte)).length ≤ State.reset.par.maxInfoLen ∧
    (61 < 62 ∨ (FrameType.uih = .sabm ∨ FrameType.uih = .ua ∨ FrameType.uih = .dm ∨ FrameType.uih = .disc) ∧
      List.replicate 128 (0 : Byte) ≠ []) ∧
    (61 < 61 ∨ (FrameType.dm = .sabm ∨ FrameType.dm = .ua ∨ FrameType.dm = .dm ∨ FrameType.dm = .disc) ∧
      [(0 : Byte)] ≠ []) ∧
    (FrameType.sabm = .uih ∨ FrameType.sabm = .ui ∨ ([] : List Byte) = []) := by decide

/-- `ENCODE` of 127 and of 128 bytes, of a type with no information, and with `P_LEN_ALL_TYPES`. -/
theorem witness_EncodedFrameSize :
    (∃ b, exec (.encode 61 (.legal .uih) true (List.replicate 127 0)) State.reset =
      .next { State.reset with result := some ⟨.ok, .bytes b⟩ }) ∧
    (∃ b, exec (.encode 61 (.legal .ui) true (List.replicate 128 0)) State.reset =
      .next { State.reset with result := some ⟨.ok, .bytes b⟩ }) ∧
    (∃ b, exec (.encode 0 (.legal .dm) true []) State.reset =
      .next { State.reset with result := some ⟨.ok, .bytes b⟩ }) := ⟨⟨_, rfl⟩, ⟨_, rfl⟩, ⟨_, rfl⟩⟩

theorem witness_CodecIsStateless : on.par.maxInfoLen = State.reset.par.maxInfoLen ∧
    on.par.lenAllTypes = State.reset.par.lenAllTypes ∧ on.mux ≠ State.reset.mux := by decide

theorem witness_ParseInvertsEncode : exec (.encode 1 (.legal .uih) false [0x41, 0x42]) State.reset =
    .next { State.reset with result := some ⟨.ok, .bytes [0xF9, 0x07, 0xEF, 0x05, 0x41, 0x42, 0x30, 0xF9]⟩ } := rfl

theorem witness_PartialFramesWait : exec (.encode 1 (.legal .ua) true []) State.reset =
    .next { State.reset with result := some ⟨.ok, .bytes [0xF9, 0x05, 0x73, 0x2A, 0xF9]⟩ } ∧
    0 < 1 ∧ 4 < ([0xF9, 0x05, 0x73, 0x2A, 0xF9] : List Byte).length := ⟨rfl, by decide⟩

theorem witness_NoiseAndFlagRunsAreConsumed : ∀ b ∈ ([0x00, 0xF8] : List Byte), b ≠ flagByte := by decide

/-- Lengths 129, 128 and 0 under `MAX_INFO_LEN` = 128, with two, two and no length bytes. -/
theorem witness_ExtentIsCheckedFirst : (0x07 : Byte) ≠ flagByte ∧
    (LengthBytes Params.atReset 0xEF [0x02, 0x01] 129 ∧ Params.atReset.maxInfoLen < 129) ∧
    (LengthBytes Params.atReset 0xEF [0x00, 0x01] 128 ∧ 128 ≤ Params.atReset.maxInfoLen ∧
      (List.replicate 129 (0 : Byte)).length < 128 + 2) ∧
    (LengthBytes Params.atReset 0x3F [] 0 ∧ 0 + 2 ≤ ([0x89, 0x00] : List Byte).length ∧
      ([0x89, 0x00] : List Byte)[0 + 1]? ≠ some flagByte) := by
  unfold LengthBytes
  decide

/-- A wrong FCS; with a right one, each reason for `Malformed`, and a good frame on the largest channel. -/
theorem witness_DelimitedFramesAreJudged :
    (LengthBytes Params.atReset 0x43 [] 0 ∧ (0x00 : Byte) ≠ fcs ([0x07, 0x43] ++ [])) ∧
    ((0x06 : Byte) ≠ flagByte ∧ (0x06 : Byte).getLsbD 0 = false) ∧
    ((0xFB : Byte) ≠ flagByte ∧ 61 < (0xFB : Byte).toNat / 4) ∧
    (LengthBytes Params.atReset 0xE7 [] 0 ∧ FrameType.ofCode ((0xE7 : Byte) &&& 0xEF) = none) ∧
    (LengthBytes { Params.atReset with lenAllTypes := true } 0x43 [0x03] 1 ∧ (0x43 : Byte) &&& 0xEF ≠ 0xEF ∧
      (0x43 : Byte) &&& 0xEF ≠ 0x03) ∧
    (LengthBytes Params.atReset 0x13 [0x03] 1 ∧ FrameType.ofCode ((0x13 : Byte) &&& 0xEF) = some .ui ∧
      (0xF5 : Byte).getLsbD 0 = true ∧ (0xF5 : Byte).toNat / 4 ≤ 61) := by
  unfold LengthBytes
  decide

theorem witness_CorruptHeadersAreRejected : exec (.encode 1 (.legal .uih) false [0x41]) State.reset =
    .next { State.reset with result := some ⟨.ok, .bytes [0xF9, 0x07, 0xEF, 0x03, 0x41, 0xD4, 0xF9]⟩ } ∧
    (0x05 : Byte) ≠ flagByte ∧ ([0xF9, 0x07, 0xEF, 0x03, 0x41, 0xD4, 0xF9] : List Byte)[1]? ≠ some 0x05 ∧
    ([0xF9, 0x07, 0xEF, 0x03, 0x41, 0xD4, 0xF9] : List Byte)[7 - 2]? ≠ some 0x05 ∧ 1 ≤ 1 ∧ 3 + 1 + 2 < 7 ∧ 7 < 8 :=
  ⟨rfl, by decide⟩

theorem witness_ParseIsSourceAgnostic :
    ∀ i < 3, (fun k : Nat => if k < 3 then (0xF9 : Byte) else 0) i = (fun _ => 0xF9) i := by decide

theorem witness_MuxLifeCycle : State.reset.mux = none ∧ on.mux ≠ none := by decide

theorem witness_OpenChannelOpens : (State.reset.mux = none ∨ 61 < 0) ∧ (on.mux = none ∨ 61 < 62) ∧
    (61 ≤ 61 ∧ on.par.maxChannels < 5) ∧ 4 ≤ on.par.maxChannels ∧ (open01.chan 0).state ≠ .null ∧
    (on.chan 4).state = .null := by decide

theorem witness_CloseChannelSendsDisc : (on.mux = none ∨ on.par.maxChannels < 5 ∨ (on.chan 5).state ≠ .opened) ∧
    open01.mux ≠ none ∧ 0 ≤ open01.par.maxChannels ∧ (open01.chan 0).state = .opened ∧
    (withLink [.sent 5] open01).takeLinkReply.1.covers 5 = true ∧
    (withLink [.sent 4] open01).takeLinkReply.1.covers 5 = false := by decide

theorem witness_WriteSendsOneFrame : (open01.chan 1).state = .opened ∧ 1 ≤ open01.par.maxChannels ∧
    (open01.chan 1).txIsFlowControlledOff = false ∧ min ([] : List Byte).length open01.par.maxInfoLen = 0 ∧
    0 < min (List.replicate 129 (0 : Byte)).length open01.par.maxInfoLen ∧
    ((open01.setTxFlow 1 true).chan 1).state = .opened ∧
    ((open01.setTxFlow 1 true).chan 1).txIsFlowControlledOff = true := by decide

theorem witness_SendFrameArmsWanted : (on.par.maxChannels < 5) ∧
    ((none : Option FrameType) = none ∧ WantedOperand.none = .none) ∧ on.mux ≠ none ∧ 4 ≤ on.par.maxChannels := by decide

theorem witness_OneFrameIsDispatched : open01.mux ≠ none ∧ open01.muxRx.data = [] ∧
    Frame.Sendable open01.par ⟨61, false, .uih, true, [0xF9]⟩ ∧
    (Frame.wire open01.par ⟨61, false, .uih, true, [0xF9]⟩).length ≤ open01.muxRx.cap ∧
    ¬open01.Stalls ⟨61, false, .uih, true, [0xF9]⟩ := by decide

/-- With a context; and each answer of `PARSE` that goes on, with a frame behind it. -/
theorem witness_ReceiveAnswers : open01.mux ≠ none ∧
    parseBytes open01.par [0xF9, 0x07, 0xEF, 0x01, 0x00, 0xF9, 0xF9, 0x07] .any = .fcsError 6 ∧
    parseBytes open01.par [0xF9, 0x07, 0xEF, 0x01, 0x41, 0x42, 0xF9, 0x07] .any = .malformed 1 ∧
    parseBytes open01.par [0x00, 0xF9, 0x05, 0xEF, 0x03, 0x06, 0xB5, 0xF9, 0xF9] .any =
      .frame 8 ⟨1, false, .uih, false, [0x06]⟩ ∧ ¬open01.Stalls ⟨1, false, .uih, false, [0x06]⟩ ∧
    parseBytes stalling.par (0x00 :: Frame.wire stalling.par ⟨1, false, .uih, false, [7, 8]⟩) .any =
      .frame 9 ⟨1, false, .uih, false, [7, 8]⟩ ∧
    stalling.Stalls ⟨1, false, .uih, false, [7, 8]⟩ := by decide

/-- Three bytes where two fit, and one where it fits. -/
theorem witness_DeliveryStoresAndCounts : (filled [1, 2, 3, 4, 5, 6, 7, 8] true).mux ≠ none ∧
    1 ≤ (filled [1, 2, 3, 4, 5, 6, 7, 8] true).par.maxChannels ∧
    ((filled [1, 2, 3, 4, 5, 6, 7, 8] true).chan 1).state = .opened ∧
    ((filled [1, 2, 3, 4, 5, 6, 7, 8] true).chan 1).rx.free = 2 := by decide

theorem witness_StalledFrameStays :
    let s := stalling.setMuxRx ⟨300, [0x00, 0x13] ++ Frame.wire stalling.par ⟨1, false, .uih, false, [7, 8]⟩ ++ [0xF9]⟩
    s.mux ≠ none ∧ Frame.Sendable s.par ⟨1, false, .uih, false, [7, 8]⟩ ∧ (∀ b ∈ ([0x00, 0x13] : List Byte), b ≠ 0xF9) ∧
    s.muxRx.data = [0x00, 0x13] ++ Frame.wire s.par ⟨1, false, .uih, false, [7, 8]⟩ ++ [0xF9] ∧
    s.Stalls ⟨1, false, .uih, false, [7, 8]⟩ := by decide

/-- Fill 5 and 6 of 10 with the flag clear, 5 and 4 with it set. -/
theorem witness_RxFlowFollowsTheTable : 4 ≤ open01.par.maxInfoLen ∧
    (let s := filled [1, 2, 3, 4, 5] false
     (s.chan 1).rxIsFlowControlledOff = false ∧ (s.chan 1).rx.data.length * 100 < s.par.fcHighPct * s.par.chRxbufCap) ∧
    (let s := filled [1, 2, 3, 4, 5, 6] false
     (s.chan 1).rxIsFlowControlledOff = false ∧ s.par.fcHighPct * s.par.chRxbufCap ≤ (s.chan 1).rx.data.length * 100) ∧
    (let s := filled [1, 2, 3, 4, 5] true
     (s.chan 1).rxIsFlowControlledOff = true ∧ s.par.fcLowPct * s.par.chRxbufCap < (s.chan 1).rx.data.length * 100) ∧
    (let s := filled [1, 2, 3, 4] true
     (s.chan 1).rxIsFlowControlledOff = true ∧ (s.chan 1).rx.data.length * 100 ≤ s.par.fcLowPct * s.par.chRxbufCap) ∧
    (filled [1, 2, 3, 4] true).mux ≠ none := by decide

/-- Channels 0, 1, 4 and 5 with `MAX_CHANNELS` = 4; the message split after two bytes; a break byte, and a second message behind. -/
theorem witness_PeerMscSetsTransmitFlag :
    let s := open01.setMuxHold ⟨32, [0xE3, 0x07]⟩
    s.mux ≠ none ∧ (0x07 : Byte).getLsbD 0 = true ∧ (0x07 : Byte).toNat / 2 = 2 + ([0x01] : List Byte).length ∧
    4 + ([0x01] : List Byte).length ≤ s.par.maxInfoLen ∧ (0x05 : Byte).toNat / 2 = 2 + ([] : List Byte).length ∧
    s.muxHold.data ++ [0x07, 0x8F, 0x01, 0xE3, 0x05, 0x0B, 0x8F] =
      [0xE3, 0x07, 0x07, 0x8F] ++ [0x01] ++ [0xE3, 0x05, 0x0B, 0x8F] ∧
    (s.muxHold.data ++ [0x07, 0x8F, 0x01, 0xE3, 0x05, 0x0B, 0x8F]).length ≤ s.muxHold.cap ∧ s.par.mscEcho = true ∧
    (1 ≤ (0x07 : Byte).toNat / 4 ∧ (0x13 : Byte).toNat / 4 ≤ s.par.maxChannels) ∧
    ((0x03 : Byte).toNat / 4 = 0 ∧ s.par.maxChannels < (0x17 : Byte).toNat / 4) := by decide

/-- Overflow by one byte; a byte short of a message; and messages with one behind them. -/
theorem witness_OtherControlDataIsDropped :
    (open01.muxHold.cap - open01.muxHold.data.length < (List.replicate 33 (0 : Byte)).length) ∧
    (open01.muxHold.data ++ [0xE3]).length ≤ open01.muxHold.cap ∧ (open01.muxHold.data ++ [0xE3]).length < 2 ∧
    (open01.muxHold.data ++ List.replicate 32 (0 : Byte)).length ≤ open01.muxHold.cap ∧
    (open01.muxHold.data ++ [0xE2, 0x05] = (0xE2 : Byte) :: 0x05 :: [] ∧ (0xE2 : Byte).getLsbD 0 = false) ∧
    ((0xE3 : Byte).getLsbD 0 = true ∧ ([0x07] : List Byte).length < (0x05 : Byte).toNat / 2) ∧
    (([1] : List Byte).length = (0x03 : Byte).toNat / 2 ∧ ([1] : List Byte).length < 2) ∧
    (open01.muxHold.data ++ [0x43, 0x05, 1, 2, 0xE3] = (0x43 : Byte) :: 0x05 :: ([1, 2] ++ [0xE3]) ∧
      ([1, 2] : List Byte).length = (0x05 : Byte).toNat / 2 ∧ (0x43 : Byte).getLsbD 0 = true ∧ (0x43 : Byte) ≠ 0xE1 ∧
      (0x43 : Byte) ≠ 0xE3) ∧ 2 ≤ ([1, 2] : List Byte).length := by decide

theorem witness_OtherFramesAnswerOrDisconnect : (open01.par.maxChannels < 5) ∧ (open01.chan 2).state ≠ .opened ∧
    (open01.chan 1).state = .opened ∧ (open01.chan 1).wanted ≠ some .ua ∧
    ((open01.setChan 1 { open01.chan 1 with wanted := some .dm }).chan 1).wanted = some .dm ∧
    ((open01.setChan 1 { open01.chan 1 with wanted := some .dm }).chan 1).state = .opened ∧
    ((on.setChan 1 { on.chan 1 with wanted := some .ua }).chan 1).wanted = some .ua := by decide

theorem witness_ChannelReadTakesOldest : (open01.chan 4).state = .null ∧ open01.par.maxChannels < 5 ∧
    ((filled [1] false).chan 1).state = .opened ∧
    ((after (.closeChannel 1) (withLink [.sent 5] (filled [1] false))).chan 1).state = .openDisconnected := by decide

/-- The invariant holds of a state with a context and data, and a step is taken from it. -/
theorem witness_StepKeepsInvariant : ({ filled [1, 2] false with requests := [⟨.command, [0x01]⟩] } : State).Inv ∧
    (∃ t, step { filled [1, 2] false with requests := [⟨.command, [0x01]⟩] } = .next t) := by
  refine ⟨?_, ⟨_, rfl⟩⟩
  intro m hm
  obtain rfl : m = ((filled [1, 2] false).mux.getD ⟨⟨0, []⟩, ⟨0, []⟩, []⟩) := by
    simp only [State.setChan, filled, Option.mem_def] at hm ⊢
    rw [hm]
    rfl
  decide

theorem witness_ChannelStatesFollowTheTable : exec (.openChannel 4 true) on = .next (after (.openChannel 4 true) on) ∧
    on.mux ≠ none ∧ (after (.openChannel 4 true) on).mux ≠ none := ⟨rfl, by decide⟩

theorem witness_RxFlowChangesAreAnnounced :
    let s := withLink [.sent 10] (filled [4, 5, 6, 7, 8] true)
    exec (.channelRead 1 1) s = .next (after (.channelRead 1 1) s) ∧
    ((after (.channelRead 1 1) s).chan 1).rxIsFlowControlledOff ≠ (s.chan 1).rxIsFlowControlledOff :=
  ⟨rfl, by decide⟩

theorem witness_ReceiveBufferSettles : open01.mux ≠ none ∧
    exec (.onBytesReceived [0x00, 0xF9, 0x07]) open01 = .next (after (.onBytesReceived [0x00, 0xF9, 0x07]) open01) ∧
    (after (.onBytesReceived [0x00, 0xF9, 0x07]) open01).muxRx.data = [0xF9, 0x07] :=
  ⟨by decide, rfl, by decide⟩

theorem witness_ReceiveInPieces : open01.mux ≠ none ∧
    ([0xF9, 0x05, 0xEF] : List Byte).length + ([0x03, 0x06, 0xB5, 0xF9] : List Byte).length ≤ open01.muxRx.cap - open01.muxRx.data.length ∧
    exec (.onBytesReceived [0xF9, 0x05, 0xEF]) open01 = .next (after (.onBytesReceived [0xF9, 0x05, 0xEF]) open01) ∧
    exec (.onBytesReceived [0x03, 0x06, 0xB5, 0xF9]) (after (.onBytesReceived [0xF9, 0x05, 0xEF]) open01) =
      .next (after (.onBytesReceived [0x03, 0x06, 0xB5, 0xF9]) (after (.onBytesReceived [0xF9, 0x05, 0xEF]) open01)) ∧
    exec (.onBytesReceived ([0xF9, 0x05, 0xEF] ++ [0x03, 0x06, 0xB5, 0xF9])) open01 =
      .next (after (.onBytesReceived ([0xF9, 0x05, 0xEF] ++ [0x03, 0x06, 0xB5, 0xF9])) open01) ∧
    ((after (.onBytesReceived ([0xF9, 0x05, 0xEF] ++ [0x03, 0x06, 0xB5, 0xF9])) open01).chan 1).rx.data = [0x06] :=
  ⟨by decide, by decide, rfl, rfl, rfl, by decide⟩

theorem witness_RegisterRead : (withBus [.ok [], .ok [1]] on).env.bus = .ok [] :: .ok [1] :: [] ∧
    ([1] : List Byte).length = 1 ∧ (List.replicate 32 (0 : Byte)).length = 32 ∧ (0 < 1 ∨ 32 < 0) ∧ (33 < 1 ∨ 32 < 33) ∧
    (withBus [.ok [], .error] on).env.bus = .ok [] :: .error :: [] ∧ (withBus [.error] on).env.bus = .error :: [] := by decide

theorem witness_RegisterWrite : (([] : List Byte).length < 1 ∨ 34 < ([] : List Byte).length) ∧
    34 < (List.replicate 35 (0 : Byte)).length ∧ (List.replicate 34 (0 : Byte)).length ≤ 34 ∧
    1 ≤ ([0] : List Byte).length ∧ (withBus [.ok []] on).env.bus = .ok [] :: [] := by decide

theorem witness_ChecksumAndLengthRegisters :
    (withBus [.ok [], .ok [1], .ok [], .ok [2]] on).env.bus = .ok [] :: .ok [1] :: .ok [] :: .ok [2] :: [] ∧
    (withBus [.ok [], .ok []] on).env.bus = .ok [] :: .ok [] :: [] ∧ (withBus [.error] on).env.bus = .error :: [] ∧
    (withBus [.ok [], .error] on).env.bus = .ok [] :: .error :: [] ∧
    (withBus [.ok [], .ok [1], .error] on).env.bus = .ok [] :: .ok [1] :: .error :: [] ∧
    (withBus [.ok [], .ok [1], .ok [], .error] on).env.bus = .ok [] :: .ok [1] :: .ok [] :: .error :: [] := by decide

/-- No poll and 99 polls before the sentinel; 100 polls without it; a failing command write, and each failing transfer of a poll. -/
theorem witness_SubcommandPolls : (∀ v ∈ List.replicate 100 ((0xFF, 0xA5) : Byte × Byte), NotSentinel v) ∧
    ([] : List (Byte × Byte)).length < 100 ∧ (List.replicate 99 ((0xFF, 0xA5) : Byte × Byte)).length < 100 ∧
    (List.replicate 100 ((0xFF, 0xA5) : Byte × Byte)).length = 100 ∧
    ∀ script ∈ [.ok [] :: (pollReplies ([] ++ [(0xA5, 0xFF)]) ++ []), .error :: [],
      .ok [] :: (pollReplies [(0, 1)] ++ .error :: []), .ok [] :: (pollReplies [(0, 1)] ++ .ok [] :: .error :: [])],
      (withBus script on).env.bus = script := by
  refine ⟨fun v hv => ?_, by decide, by decide, by decide, fun _ _ => rfl⟩
  rw [List.eq_of_mem_replicate hv]
  decide

theorem witness_StandardRegistersAreRead :
    let d : List Byte := List.replicate 32 7
    let replies : List BusReply := [.ok [], .ok d, .ok [], .ok d, .ok [], .ok d, .ok [], .ok d]
    d.length = 32 ∧ (withBus (replies ++ []) on).env.bus = replies ++ [] ∧
    (withBus (replies.take 0 ++ .error :: []) on).env.bus = replies.take 0 ++ .error :: [] ∧
    (withBus (replies.take 7 ++ .error :: []) on).env.bus = replies.take 7 ++ .error :: [] := by decide

theorem witness_ExtendedRead : (33 < 1 ∨ 32 < 33) ∧ (0 < 1 ∨ 32 < 0) ∧ 1 ≤ 32 ∧ ([9] : List Byte).length = 1 ∧
    (List.replicate 32 (9 : Byte)).length = 32 ∧
    (withBus (readExtReplies 1 2 [9] ++ []) on).env.bus = readExtReplies 1 2 [9] ++ [] ∧
    (withBus (readExtReplies 1 2 (List.replicate 32 9) ++ []) on).env.bus =
      readExtReplies 1 2 (List.replicate 32 9) ++ [] ∧
    ∀ j ∈ [0, 6], (withBus ((readExtReplies 1 2 [9]).take j ++ .error :: []) on).env.bus =
      (readExtReplies 1 2 [9]).take j ++ .error :: [] := by decide

theorem witness_UnsupportedQuantity : (3 ≠ 1 ∧ 3 ≠ 2 ∧ 3 ≠ 4) ∧
    (0x1FF : U32).toNat % 2 ^ (8 * 1) = (0x0FF : U32).toNat % 2 ^ (8 * 1) := by decide

/-- A device whose data window does not follow the header. -/
def apart : State := State.powerOn ⟨{ Params.atReset with fgRegMacData := 0x50 }, by decide⟩

/-- With the data window behind the header, and apart from it; answered whole, and failing at the first and the last transfer. -/
theorem witness_ExtendedWrite : (4 = 1 ∨ 4 = 2 ∨ 4 = 4) ∧ (List.replicate 32 (9 : Byte)).length = 32 ∧
    on.par.fgRegMacData.toNat = on.par.fgRegMacCmd.toNat + 2 ∧ apart.par.fgRegMacData.toNat ≠ apart.par.fgRegMacCmd.toNat + 2 ∧
    (let replies := List.replicate (1 + 2) (.ok []) ++ readExtReplies 1 2 (List.replicate 32 9)
     ∀ before ∈ [[], readExtReplies 3 4 (List.replicate 32 8)],
      (withBus (before ++ replies ++ []) on).env.bus = before ++ replies ++ [] ∧
      ∀ j ∈ [0, 9], (withBus (before ++ replies.take j ++ .error :: []) on).env.bus = before ++ replies.take j ++ .error :: []) ∧
    (let replies := List.replicate (2 + 2) (.ok []) ++ readExtReplies 1 2 (List.replicate 32 9)
     (withBus ([] ++ replies ++ []) apart).env.bus = [] ++ replies ++ [] ∧
     ∀ j ∈ [0, 10], (withBus ([] ++ replies.take j ++ .error :: []) apart).env.bus = [] ++ replies.take j ++ .error :: []) ∧
    ∀ j ∈ [0, 6], (withBus ((readExtReplies 3 4 (List.replicate 32 8)).take j ++ .error :: []) on).env.bus =
      (readExtReplies 3 4 (List.replicate 32 8)).take j ++ .error :: [] := by decide

theorem witness_ModeCommandsWriteTheirWords :
    (withBus [.ok [], .ok []] on).env.bus = List.replicate on.par.fgUnsealSeq.length (.ok []) ++ [] ∧
    (withBus [.ok []] on).env.bus = List.replicate on.par.fgSealSeq.length (.ok []) ++ [] ∧
    (withBus [.ok []] on).env.bus = List.replicate on.par.fgEnterCfgUpdateSeq.length (.ok []) ++ [] ∧
    (withBus [.ok []] on).env.bus = List.replicate on.par.fgResetSeq.length (.ok []) ++ [] ∧
    on.par.fgUnsealSeq = [0x0414] ++ 0x3672 :: [] ∧
    (withBus [.ok [], .error] on).env.bus = List.replicate ([0x0414] : List U16).length (.ok []) ++ .error :: [] := by decide

/-- 42_fuel_gauge.md R232's example: the payload `7B` and 31 zeros, its checksum 0x64 and length 0x24, then the read of one byte. -/
def echoed : State := withBus ([.ok [], .ok [], .ok []] ++ readExtReplies 0x64 0x24 (0x7B :: List.replicate 31 0) ++
  readExtReplies 0x64 0x24 [0x7B]) State.reset

theorem witness_ExtendedWriteThenRead : EchoMap echoed.par ∧
    exec (.fgWriteExt 0x929F 0x7B 1 false) echoed = .next (after (.fgWriteExt 0x929F 0x7B 1 false) echoed) ∧
    exec (.fgReadExt 0x929F 1) (after (.fgWriteExt 0x929F 0x7B 1 false) echoed) =
      .next (after (.fgReadExt 0x929F 1) (after (.fgWriteExt 0x929F 0x7B 1 false) echoed)) ∧ echoed.out = [] ∧
    echoAnswers (fun _ => 0) 0
      (after (.fgReadExt 0x929F 1) (after (.fgWriteExt 0x929F 0x7B 1 false) echoed)).out = true := by
  refine ⟨by decide, rfl, rfl, rfl, ?_⟩
  decide

theorem witness_DelaysFollowTransactions : isFgInstr .fgSeal = true ∧
    exec .fgSeal (withBus [.ok []] on) = .next (after .fgSeal (withBus [.ok []] on)) := ⟨rfl, rfl⟩

theorem witness_WholeBlock : exec (.write 1 [0x58]) (withLink [.error] open01) =
    .next (after (.write 1 [0x58]) (withLink [.error] open01)) ∧
    (after (.write 1 [0x58]) (withLink [.error] open01)).out.any TraceEntry.linkFailed = true ∧
    isFgInstr (.write 1 [0x58]) = false := ⟨rfl, by decide, rfl⟩

end Sys2Proof.Tests
end

/-! The size of an encoded frame (30_encoding.md R103): the two flags, the address byte, the control byte and the FCS are five
bytes beside the information; the format adds a length field of none, one or two. -/

namespace Sys2Proof.Machine

open Sys2Proof

/-! ### What an `ENCODE` that answers bytes built -/

/-- Only a successful `ENCODE` leaves bytes in the result. -/
theorem State.finishEncode_result_bytes (s : State) (r : Except Status (List Byte)) (b : List Byte)
    (h : (s.finishEncode r).result = some ⟨.ok, .bytes b⟩) : r = .ok b := by
  cases r with
  | ok c =>
    have hc : (s.finish .ok (.bytes c)).result = some ⟨.ok, .bytes b⟩ := h
    simp only [finish_result, Option.some.injEq, Result.mk.injEq, Output.bytes.injEq, true_and] at hc
    rw [hc]
  | error e =>
    have he : (s.fail e).result = some ⟨.ok, .bytes b⟩ := h
    simp at he

/-- `ENCODE` answers bytes only where the codec builds that frame. -/
theorem encodeFrame_of_exec_encode (s : State) (a : Nat) (t : FrameType) (pf : Bool) (info b : List Byte)
    (h : exec (.encode a (.legal t) pf info) s = .next { s with result := some ⟨.ok, .bytes b⟩ }) :
    encodeFrame s.par a t pf info = .ok b := by
  have hn : s.finishEncode (encodeFrame s.par a t pf info) = { s with result := some ⟨.ok, .bytes b⟩ } :=
    Host.Outcome.next.inj h
  exact s.finishEncode_result_bytes _ _ (congrArg State.result hn)

/-! ### The length of the wire form -/

/-- The types R98 gives an information field are UIH and UI. -/
theorem carriesInfo_iff (t : FrameType) : carriesInfo t = true ↔ t = .uih ∨ t = .ui := by
  cases t <;> decide

theorem length_lengthField (n : Nat) : (lengthField n).length = if n < 128 then 1 else 2 := by
  unfold lengthField
  split <;> rfl

/-- Two flags, address, control byte and FCS stand around the length field and the information (R90). -/
theorem Frame.length_wire (p : Params) (f : Frame) : (f.wire p).length = f.information.length + 5 +
    (if carriesInfo f.type || p.lenAllTypes then lengthField f.information.length else []).length := by
  rw [Frame.wire_shape]
  simp only [List.length_append, List.length_cons, List.length_nil]
  omega

/-- A frame with a length field has format I1 or I2. -/
theorem Frame.length_wire_of_lengthField (p : Params) (f : Frame) (hf : (carriesInfo f.type || p.lenAllTypes) = true) :
    (f.wire p).length = f.information.length + 5 + if f.information.length < 128 then 1 else 2 := by
  rw [Frame.length_wire, if_pos hf, length_lengthField]

/-- A frame without a length field has format U. -/
theorem Frame.length_wire_of_no_lengthField (p : Params) (f : Frame) (hf : (carriesInfo f.type || p.lenAllTypes) = false) :
    (f.wire p).length = f.information.length + 5 := by
  rw [Frame.length_wire, if_neg (by simp [hf]), List.length_nil]

theorem Frame.length_wire_le (p : Params) (f : Frame) : (f.wire p).length ≤ f.information.length + 7 := by
  cases hf : (carriesInfo f.type || p.lenAllTypes) with
  | true =>
    rw [Frame.length_wire_of_lengthField p f hf]
    split <;> omega
  | false =>
    rw [Frame.length_wire_of_no_lengthField p f hf]
    omega

/-! ### R103 -/

/-- Settles O12: the frame is the wire form of a sendable descriptor, whose length its format decides. -/
theorem encodedFrameSize : Obligations.EncodedFrameSize := by
  intro s a t pf info b h
  obtain ⟨rfl, -, -, hinfo⟩ := encodeFrame_ok _ _ _ _ _ _ (encodeFrame_of_exec_encode s a t pf info b h)
  have hfield : (t = .uih ∨ t = .ui ∨ s.par.lenAllTypes = true) → (carriesInfo t || s.par.lenAllTypes) = true := by
    rw [Bool.or_eq_true, carriesInfo_iff, or_assoc]
    exact id
  have hle := Frame.length_wire_le s.par ⟨a, sentCr t, t, pf, info⟩
  refine ⟨fun ht hlt => ?short, fun ht hge => ?long, fun huih hui hall => ?none, hle, Nat.le_succ_of_le hle⟩
  case short => rw [Frame.length_wire_of_lengthField _ _ (hfield ht), if_pos hlt]
  case long => rw [Frame.length_wire_of_lengthField _ _ (hfield ht), if_neg (Nat.not_lt.2 hge)]
  case none =>
    have hc : carriesInfo t = false := by
      rw [Bool.eq_false_iff, ne_eq, carriesInfo_iff]
      exact not_or.2 ⟨huih, hui⟩
    exact ⟨hinfo hc, Frame.length_wire_of_no_lengthField _ _ (by rw [hc, hall]; rfl)⟩

end Sys2Proof.Machine

/-! The Frame Codec's two operations (40_frame_codec.md): the errors of `ENCODE`, what `PARSE` answers in each place it can
stop, and what the two make of each other's bytes. -/

namespace Sys2Proof.Machine

open Sys2Proof

/-! ### What the two operations hand back -/

/-- `ENCODE` of a legal type hands back what the codec answers and changes nothing else (R130). -/
theorem exec_encode_legal (s : State) (a : Nat) (t : FrameType) (pf : Bool) (info : List Byte) :
    exec (.encode a (.legal t) pf info) s = .next (s.finishEncode (encodeFrame s.par a t pf info)) := rfl

/-- `PARSE` hands back what the codec finds and changes nothing else (R138). -/
theorem exec_parse_of_parseBytes (s : State) (buf : List Byte) (w : AddrFilter) (r : ParseResult)
    (h : parseBytes s.par buf w = r) : exec (.parse buf w) s =
      .next { s with result := some ⟨r.status, .parsed r.consumed r.descriptor⟩ } := by
  rw [← h]
  rfl

/-! ### `ENCODE`: its errors in their order (R137) -/

/-- The types without an information field are the four unnumbered ones (R98). -/
theorem carriesInfo_eq_false_iff (t : FrameType) :
    carriesInfo t = false ↔ t = .sabm ∨ t = .ua ∨ t = .dm ∨ t = .disc := by
  cases t <;> decide

theorem encodeFrame_of_too_long (p : Params) (a : Nat) (t : FrameType) (pf : Bool) (info : List Byte)
    (h : p.maxInfoLen < info.length) : encodeFrame p a t pf info = .error .invalidLength := if_pos h

theorem encodeFrame_of_invalid (p : Params) (a : Nat) (t : FrameType) (pf : Bool) (info : List Byte)
    (hlen : info.length ≤ p.maxInfoLen) (h : addrMax < a ∨ carriesInfo t = false ∧ info ≠ []) :
    encodeFrame p a t pf info = .error .invalidArgument := by
  rw [encodeFrame, if_neg (Nat.not_lt.2 hlen)]
  by_cases ha : addrMax < a
  · rw [if_pos ha]
  · obtain ⟨hc, hne⟩ := h.resolve_left ha
    rw [if_neg ha, if_pos (by simpa [hc] using List.length_pos_of_ne_nil hne)]

/-- `ENCODE` succeeds on every sendable descriptor: the converse of `encodeFrame_ok`. -/
theorem encodeFrame_of_sendable (p : Params) (a : Nat) (t : FrameType) (pf : Bool) (info : List Byte)
    (hs : Frame.Sendable p ⟨a, sentCr t, t, pf, info⟩) :
    encodeFrame p a t pf info = .ok (Frame.wire p ⟨a, sentCr t, t, pf, info⟩) := by
  obtain ⟨ha, hlen, hinfo⟩ := hs
  have hno : ¬(!carriesInfo t && decide (0 < info.length)) = true := by
    rw [Bool.and_eq_true, Bool.not_eq_true', decide_eq_true_eq]
    rintro ⟨hc, hpos⟩
    exact List.ne_nil_of_length_pos hpos (hinfo hc)
  rw [encodeFrame, if_neg (Nat.not_lt.2 hlen), if_neg (Nat.not_lt.2 ha), if_neg hno, frameBytes_eq_wire]

/-- Settles O10: the three cases of the order in which `ENCODE` checks its operands. -/
theorem encodeErrorsInOrder : Obligations.EncodeErrorsInOrder := by
  refine ⟨rfl, fun s a t pf info => ⟨fun hlong => ?tooLong, fun hlen h => ?invalid, fun hlen ha hinfo => ?sendable⟩⟩
  case tooLong =>
    rw [exec_encode_legal, encodeFrame_of_too_long _ _ _ _ _ hlong]
    rfl
  case invalid =>
    rw [← carriesInfo_eq_false_iff] at h
    rw [exec_encode_legal, encodeFrame_of_invalid _ _ _ _ _ hlen h]
    rfl
  case sendable =>
    have hs : Frame.Sendable s.par ⟨a, sentCr t, t, pf, info⟩ := by
      refine ⟨ha, hlen, fun hc => ?_⟩
      rw [← or_assoc, ← carriesInfo_iff, hc] at hinfo
      exact hinfo.resolve_left Bool.false_ne_true
    refine ⟨Frame.wire s.par ⟨a, sentCr t, t, pf, info⟩, ?_⟩
    rw [exec_encode_legal, encodeFrame_of_sendable _ _ _ _ _ hs]
    rfl

/-! ### `PARSE` reads the bytes below `Used` only (R151) -/

theorem OpensAt.congr {n : Nat} {peek peek' : Nat → Byte} {o : Nat} (ho : OpensAt n peek o)
    (h : ∀ i < n, peek i = peek' i) : OpensAt n peek' o := by
  obtain ⟨hlt, ⟨i, hi, hbefore, hrun⟩, hlast⟩ := ho
  refine ⟨hlt, ⟨i, hi, fun j hj => ?_, fun j hij hjo => ?_⟩, fun hn => ?_⟩
  · rw [← h j (by omega)]
    exact hbefore j hj
  · rw [← h j (by omega)]
    exact hrun j hij hjo
  · rw [← h (o + 1) hn]
    exact hlast hn

theorem parseSource_congr (p : Params) (n : Nat) (peek peek' : Nat → Byte) (w : AddrFilter)
    (h : ∀ i < n, peek i = peek' i) : parseSource p n peek w = parseSource p n peek' w := by
  by_cases hflag : ∃ j < n, peek j = flagByte
  case pos =>
    obtain ⟨o, ho⟩ := exists_opensAt n peek hflag
    rw [parseSource_opens p n peek w o ho, parseSource_opens p n peek' w o (ho.congr h)]
    exact parseFrom_congr p n peek peek' w o ho.lt fun i _ hi => h i hi
  case neg =>
    have hno : ∀ j < n, peek j ≠ flagByte := fun j hj e => hflag ⟨j, hj, e⟩
    rw [parseSource_no_flag p n peek w hno, parseSource_no_flag p n peek' w fun j hj => h j hj ▸ hno j hj]

/-- Settles O22: a FIFO's `Used` and `Peek` are the length and the bytes of its content. -/
theorem parseIsSourceAgnostic : Obligations.ParseIsSourceAgnostic :=
  ⟨fun p w n peek peek' h => parseSource_congr p n peek peek' w h, fun _ _ _ => rfl⟩

/-! ### The codec depends on two parameters (R152) -/

section
variable (p p' : Params) (hmax : p'.maxInfoLen = p.maxInfoLen) (hall : p'.lenAllTypes = p.lenAllTypes)

include hmax hall in
theorem encodeFrame_congr_params (a : Nat) (t : FrameType) (pf : Bool) (info : List Byte) :
    encodeFrame p' a t pf info = encodeFrame p a t pf info := by
  simp only [encodeFrame, frameBytes, headerBytes, hmax, hall]

include hmax hall in
theorem encodeOperand_congr_params (a : Nat) (t : TypeOperand) (pf : Bool) (info : List Byte) :
    encodeOperand p' a t pf info = encodeOperand p a t pf info := by
  cases t with
  | legal t => exact encodeFrame_congr_params p p' hmax hall a t pf info
  | illegal => simp only [encodeOperand, legalType, hmax]

include hall in
theorem lengthPresent_congr_params (t : Byte) : lengthPresent p' t = lengthPresent p t := by
  rw [lengthPresent, lengthPresent, hall]

include hall in
theorem readHeader_congr_params (n : Nat) (peek : Nat → Byte) (o : Nat) :
    readHeader p' n peek o = readHeader p n peek o := by
  simp only [readHeader, lengthPresent_congr_params p p' hall]

include hmax in
theorem judgeFrame_congr_params (n : Nat) (peek : Nat → Byte) (w : AddrFilter) (o hdr ln : Nat) (lf : List Byte) :
    judgeFrame p' n peek w o hdr ln lf = judgeFrame p n peek w o hdr ln lf := by
  simp only [judgeFrame, hmax]

include hmax hall in
theorem parseBytes_congr_params (buf : List Byte) (w : AddrFilter) : parseBytes p' buf w = parseBytes p buf w := by
  simp only [parseBytes, parseSource, readHeader_congr_params p p' hall, judgeFrame_congr_params p p' hmax]

end

/-- What a codec answer becomes is independent of the state it is handed back in. -/
theorem State.exists_finishEncode (s s' : State) (e : Except Status (List Byte)) : ∃ r : Result,
    s.finishEncode e = { s with result := some r } ∧ s'.finishEncode e = { s' with result := some r } := by
  cases e with
  | ok b => exact ⟨⟨.ok, .bytes b⟩, rfl, rfl⟩
  | error st => exact ⟨⟨st, .none⟩, rfl, rfl⟩

/-- Settles O13: equal parameters give equal answers of the codec, and the result is all that is written. -/
theorem codecIsStateless : Obligations.CodecIsStateless := by
  intro s s' hmax hall
  refine ⟨fun a t pf info => ?encode, fun buf w => ?parse⟩
  case encode =>
    obtain ⟨r, hs, hs'⟩ := s.exists_finishEncode s' (encodeOperand s.par a t pf info)
    refine ⟨r, congrArg Host.Outcome.next hs, ?_⟩
    rw [← encodeOperand_congr_params s.par s'.par hmax hall] at hs'
    exact congrArg Host.Outcome.next hs'
  case parse =>
    exact ⟨_, exec_parse_of_parseBytes s buf w _ rfl,
      exec_parse_of_parseBytes s' buf w _ (parseBytes_congr_params s.par s'.par hmax hall buf w)⟩

/-! ### Noise and flag runs (R139, R140) -/

theorem getD_append_length_add (pre suf : List Byte) (j : Nat) :
    (pre ++ suf).getD (pre.length + j) 0 = suf.getD j 0 := by
  rw [List.getD_append_right pre suf 0 _ (Nat.le_add_right _ _), Nat.add_sub_cancel_left]

theorem getD_ne_flagByte (noise : List Byte) (h : ∀ b ∈ noise, b ≠ flagByte) (j : Nat) (hj : j < noise.length) :
    noise.getD j 0 ≠ flagByte := by
  rw [List.getD_eq_getElem noise 0 hj]
  exact h _ (List.getElem_mem hj)

/-- Noise in front moves the opening flag by its length. -/
theorem OpensAt.append_noise {noise suf : List Byte} {o : Nat} (hnoise : ∀ b ∈ noise, b ≠ flagByte)
    (ho : OpensAt suf.length (fun i => suf.getD i 0) o) :
    OpensAt (noise ++ suf).length (fun i => (noise ++ suf).getD i 0) (noise.length + o) := by
  obtain ⟨hlt, ⟨i, hi, hbefore, hrun⟩, hlast⟩ := ho
  refine ⟨by rw [List.length_append]; omega, ⟨noise.length + i, by omega, fun j hj => ?before, fun j hij hjo => ?run⟩,
    fun hn => ?last⟩
  case before =>
    rcases Nat.lt_or_ge j noise.length with hjn | hjn
    · exact List.getD_append noise suf 0 j hjn ▸ getD_ne_flagByte noise hnoise j hjn
    · obtain ⟨k, rfl⟩ := Nat.exists_eq_add_of_le hjn
      exact getD_append_length_add noise suf k ▸ hbefore k (by omega)
  case run =>
    obtain ⟨k, rfl⟩ := Nat.exists_eq_add_of_le (Nat.le_trans (Nat.le_add_right _ i) hij)
    exact (getD_append_length_add noise suf k).trans (hrun k (by omega) (by omega))
  case last =>
    rw [List.length_append] at hn
    rw [Nat.add_assoc]
    exact getD_append_length_add noise suf (o + 1) ▸ hlast (by omega)

/-- A flag in front of a flag joins its run, which still ends at the same flag. -/
theorem OpensAt.cons_flag {rest : List Byte} {o : Nat}
    (ho : OpensAt (flagByte :: rest).length (fun i => (flagByte :: rest).getD i 0) o) :
    OpensAt (flagByte :: flagByte :: rest).length (fun i => (flagByte :: flagByte :: rest).getD i 0) (1 + o) := by
  obtain ⟨hlt, ⟨i, hi, hbefore, hrun⟩, hlast⟩ := ho
  have hi0 : i = 0 := by
    by_contra hne
    exact hbefore 0 (Nat.pos_of_ne_zero hne) rfl
  subst hi0
  refine ⟨?lt, ⟨0, Nat.zero_le _, fun j hj => absurd hj (Nat.not_lt_zero j), fun j _ hjo => ?run⟩, fun hn => ?last⟩
  case lt =>
    rw [List.length_cons]
    omega
  case run =>
    cases j with
    | zero => rfl
    | succ k => exact hrun k (Nat.zero_le k) (by omega)
  case last =>
    rw [List.length_cons] at hn
    rw [Nat.add_comm 1 o]
    exact hlast (by omega)

theorem exists_flag_of_cons (rest : List Byte) :
    ∃ j < (flagByte :: rest).length, (flagByte :: rest).getD j 0 = flagByte := ⟨0, Nat.succ_pos _, rfl⟩

/-- Settles O17: noise and the earlier flags of a run move the opening flag and nothing else. -/
theorem noiseAndFlagRunsAreConsumed : Obligations.NoiseAndFlagRunsAreConsumed := by
  intro p w noise rest hnoise
  refine ⟨?noFlag, ?noise, ?run⟩
  case noFlag => exact parseSource_no_flag p noise.length _ w (getD_ne_flagByte noise hnoise)
  case noise =>
    exact parseBytes_skip p w noise (flagByte :: rest) (exists_flag_of_cons rest) fun o ho => ho.append_noise hnoise
  case run =>
    exact parseBytes_skip p w [flagByte] (flagByte :: rest) (exists_flag_of_cons rest) fun o ho => ho.cons_flag

/-! ### The extent of a frame (R143 to R145) -/

section
variable (p : Params) (n : Nat) (peek : Nat → Byte) (w : AddrFilter) (o hdr ln : Nat) (lf : List Byte)

theorem judgeFrame_of_too_long (h : p.maxInfoLen < ln) :
    judgeFrame p n peek w o hdr ln lf = .malformed (o + 1) := if_pos h

theorem judgeFrame_of_missing_bytes (hlen : ln ≤ p.maxInfoLen) (h : n - o < hdr + ln + 2) :
    judgeFrame p n peek w o hdr ln lf = .incomplete o := by
  rw [judgeFrame, if_neg (Nat.not_lt.2 hlen), if_pos h]

theorem judgeFrame_of_no_closing_flag (hlen : ln ≤ p.maxInfoLen) (hn : hdr + ln + 2 ≤ n - o)
    (h : peek (o + (hdr + ln + 2) - 1) ≠ flagByte) : judgeFrame p n peek w o hdr ln lf = .malformed (o + 1) := by
  rw [judgeFrame, if_neg (Nat.not_lt.2 hlen), if_neg (Nat.not_lt.2 hn), if_pos h]

end

/-- Settles O18: behind a whole header the parse judges the extent, in the order of R143 to R145. -/
theorem extentIsCheckedFirst : Obligations.ExtentIsCheckedFirst := by
  intro p w a c lf body n ha hl
  have hlen : ([flagByte, a, c] ++ lf ++ body).length = 3 + lf.length + body.length := by
    simp only [List.length_append, List.length_cons, List.length_nil]
  rw [parseBytes_of_header p w a c lf body n ha hl]
  refine ⟨fun hn => ?tooLong, fun hn hshort => ?missing, fun hn hbody hflag => ?noFlag⟩
  case tooLong => exact judgeFrame_of_too_long p _ _ w 0 _ n lf hn
  case missing => exact judgeFrame_of_missing_bytes p _ _ w 0 _ n lf hn (by omega)
  case noFlag =>
    have hidx : 0 + (3 + lf.length + n + 2) - 1 = ([flagByte, a, c] ++ lf).length + (n + 1) := by
      simp only [List.length_append, List.length_cons, List.length_nil]
      omega
    refine judgeFrame_of_no_closing_flag p _ _ w 0 _ n lf hn (by omega) ?_
    rw [hidx, getD_append_length_add, List.getD_eq_getElem body 0 (by omega)]
    rwa [List.getElem?_eq_getElem (by omega), ne_eq, Option.some.injEq] at hflag

/-! ### The fields of a delimited frame (R147 to R149) -/

/-- A code stands for one type only (R93). -/
theorem FrameType.code_of_ofCode {c : Byte} {t : FrameType} (h : FrameType.ofCode c = some t) : c = t.code := by
  unfold FrameType.ofCode at h
  split_ifs at h with h1 h2 h3 h4 h5 h6 <;> cases h <;> assumption

/-- The information types are those with the codes 0xEF and 0x03 (R93, R98). -/
theorem carriesInfo_eq_false_of_ofCode {c : Byte} {t : FrameType} (h : FrameType.ofCode c = some t) :
    carriesInfo t = false ↔ c ≠ 0xEF ∧ c ≠ 0x03 := by
  rw [FrameType.code_of_ofCode h]
  cases t <;> decide

/-- The address field is the address byte without its two low bits (R92). -/
theorem toNat_addressField (a : Byte) : (a >>> 2).toNat = a.toNat / 4 := by
  rw [BitVec.toNat_ushiftRight, Nat.shiftRight_eq_div_pow]

theorem admits_iff (w : AddrFilter) (n : Nat) : admits w n = true ↔ w = .any ∨ w = .id n := by
  cases w with
  | any => simp [admits]
  | id m => simp [admits]

theorem judgeFields_of_invalid (a c : Byte) (info : List Byte) (w : AddrFilter) (done : Nat)
    (h : a.getLsbD 0 = false ∨ 61 < a.toNat / 4 ∨ FrameType.ofCode (c &&& 0xEF) = none ∨
      (c &&& 0xEF ≠ 0xEF ∧ c &&& 0xEF ≠ 0x03 ∧ info ≠ [])) : judgeFields a c info w done = .malformed done := by
  rw [judgeFields, toNat_addressField]
  cases ht : FrameType.ofCode (c &&& 0xEF) with
  | none => rfl
  | some t =>
    refine if_pos ?_
    rcases h with hea | haddr | hnone | ⟨huih, hui, hne⟩
    · exact .inl hea
    · exact .inr (.inl haddr)
    · rw [ht] at hnone
      cases hnone
    · exact .inr (.inr ⟨(carriesInfo_eq_false_of_ofCode ht).2 ⟨huih, hui⟩, hne⟩)

theorem judgeFields_of_valid (a c : Byte) (info : List Byte) (w : AddrFilter) (done : Nat) (t : FrameType)
    (ht : FrameType.ofCode (c &&& 0xEF) = some t) (hea : a.getLsbD 0 = true) (haddr : a.toNat / 4 ≤ 61)
    (hinfo : carriesInfo t = true ∨ info = []) : judgeFields a c info w done =
      if admits w (a.toNat / 4) then .frame done ⟨a.toNat / 4, a.getLsbD 1, t, c.getLsbD 4, info⟩
      else .notFound done := by
  have hvalid : ¬(a.getLsbD 0 = false ∨ addrMax < a.toNat / 4 ∨ (carriesInfo t = false ∧ info ≠ [])) := by
    rintro (h | h | ⟨hc, hne⟩)
    · rw [hea] at h
      cases h
    · exact Nat.not_lt.2 haddr h
    · rw [hc] at hinfo
      exact hne (hinfo.resolve_left Bool.false_ne_true)
  rw [judgeFields, toNat_addressField, ht]
  exact if_neg hvalid

/-- Settles O19: the FCS decides first, then the fields, then the filter. -/
theorem delimitedFramesAreJudged : Obligations.DelimitedFramesAreJudged := by
  intro p w a c x lf info tail ha hl hm buf r
  have hlen : buf.length = 5 + lf.length + info.length := by
    simp only [buf, List.length_append, List.length_cons, List.length_nil]
    omega
  have hr : r = if x ≠ fcs ([a, c] ++ lf) then .fcsError buf.length else judgeFields a c info w buf.length := by
    rw [hlen]
    exact parseBytes_of_delimited p w a c x lf info tail ha hl hm
  rw [hr]
  refine ⟨fun hx => if_pos hx, fun hx => ?_⟩
  rw [if_neg (not_not.2 hx)]
  refine ⟨judgeFields_of_invalid a c info w buf.length, fun t ht hea haddr hinfo => ?_⟩
  rw [← or_assoc, ← carriesInfo_iff] at hinfo
  simp only [judgeFields_of_valid a c info w buf.length t ht hea haddr hinfo, admits_iff]

/-! ### An encoded frame, decoded (R153) -/

/-- The C/R bit this block sends is 0 on the two responses only (R104). -/
theorem sentCr_eq (t : FrameType) : sentCr t = decide (t ≠ .ua ∧ t ≠ .dm) := by
  cases t <;> rfl

/-- `PARSE` of a sendable frame's wire form, with the wildcard, hands the frame back. -/
theorem exec_parse_wire (s : State) (f : Frame) (tail : List Byte) (hs : f.Sendable s.par) :
    exec (.parse (f.wire s.par ++ tail) .any) s =
      .next { s with result := some ⟨.ok, .parsed (f.wire s.par).length (some f)⟩ } :=
  exec_parse_of_parseBytes s _ .any (.frame (f.wire s.par).length f)
    (parseBytes_wire s.par .any f tail hs (maxInfoLen_le s.cfg))

/-- Settles O14: an `ENCODE` that answers bytes built the wire form of a sendable frame. -/
theorem parseInvertsEncode : Obligations.ParseInvertsEncode := by
  intro s a t pf info b tail h
  obtain ⟨rfl, hs⟩ := encodeFrame_ok _ _ _ _ _ _ (encodeFrame_of_exec_encode s a t pf info b h)
  rw [exec_parse_wire s _ tail hs, sentCr_eq]

/-! ### A part of a frame (R141, R144, R155) -/

/-- With fewer bytes in the buffer a header is read as before, or is short. -/
theorem readHeader_of_fewer (p : Params) (m n : Nat) (peek : Nat → Byte) (o hdr ln : Nat) (lf : List Byte)
    (hmn : m ≤ n) (h : readHeader p n peek o = .read hdr ln lf) :
    readHeader p m peek o = .short ∨ readHeader p m peek o = .read hdr ln lf := by
  rw [← h]
  unfold readHeader
  by_cases h3 : m - o < 3
  · exact .inl (if_pos h3)
  rw [if_neg h3, if_neg (show ¬n - o < 3 by omega)]
  split
  case isFalse => exact .inr rfl
  by_cases h4 : m - o < 4
  · exact .inl (if_pos h4)
  rw [if_neg h4, if_neg (show ¬n - o < 4 by omega)]
  split
  case isTrue => exact .inr rfl
  by_cases h5 : m - o < 5
  · exact .inl (if_pos h5)
  · rw [if_neg h5, if_neg (show ¬n - o < 5 by omega)]
    exact .inr rfl

/-- Where the header announces more bytes than there are, the parse waits at its opening flag. -/
theorem parseFrom_of_fewer (p : Params) (m n : Nat) (peek : Nat → Byte) (w : AddrFilter) (o hdr ln : Nat)
    (lf : List Byte) (hmn : m ≤ n) (h : readHeader p n peek o = .read hdr ln lf) (hlen : ln ≤ p.maxInfoLen)
    (hm : m - o < hdr + ln + 2) : parseFrom p m peek w o = .incomplete o := by
  unfold parseFrom
  rcases readHeader_of_fewer p m n peek o hdr ln lf hmn h with e | e
  · rw [e]
  · rw [e]
    exact judgeFrame_of_missing_bytes p m peek w o hdr ln lf hlen hm

/-- A part of a buffer is parsed as the buffer cut off there. -/
theorem parseBytes_take (p : Params) (b : List Byte) (k : Nat) (w : AddrFilter) (hk : k ≤ b.length) :
    parseBytes p (b.take k) w = parseSource p k (fun i => b.getD i 0) w := by
  have hlen : (b.take k).length = k := List.length_take_of_le hk
  unfold parseBytes
  rw [hlen]
  refine parseSource_congr p k _ _ w fun i hi => ?_
  rw [List.getD_eq_getElem?_getD, List.getElem?_take_of_lt hi, List.getD_eq_getElem?_getD]

/-- The opening flag of a buffer that starts with one is the same in each of its non-empty parts. -/
theorem opensAt_zero_take (a : Byte) (r : List Byte) (k : Nat) (ha : a ≠ flagByte) (hk : 0 < k)
    (hle : k ≤ (flagByte :: a :: r).length) : OpensAt k (fun i => (flagByte :: a :: r).getD i 0) 0 := by
  obtain ⟨-, hfirst, hlast⟩ := opensAt_zero a r ha
  exact ⟨hk, hfirst, fun hn => hlast (Nat.lt_of_lt_of_le hn hle)⟩

/-- A non-empty part of a buffer waits while it holds fewer bytes than the header of the buffer announces. -/
theorem parseBytes_take_of_header (p : Params) (w : AddrFilter) (a c : Byte) (lf body : List Byte) (n k : Nat)
    (ha : a ≠ flagByte) (hl : LengthBytes p c lf n) (hn : n ≤ p.maxInfoLen) (hk : 0 < k)
    (hle : k ≤ ([flagByte, a, c] ++ lf ++ body).length) (hlt : k < 3 + lf.length + n + 2) :
    parseBytes p (([flagByte, a, c] ++ lf ++ body).take k) w = .incomplete 0 := by
  have hopens := parseSource_opens p k _ w 0 (opensAt_zero_take a ([c] ++ lf ++ body) k ha hk hle)
  have hread := readHeader_of_lengthBytes p a c lf body n hl
  exact (parseBytes_take p _ k w hle).trans
    (hopens.trans (parseFrom_of_fewer p k _ _ w 0 _ n lf hle hread hn hlt))

/-- A proper non-empty part of a sendable frame's wire form waits. -/
theorem parseBytes_take_wire (p : Params) (w : AddrFilter) (f : Frame) (k : Nat) (hs : f.Sendable p)
    (hm : p.maxInfoLen ≤ lenFieldMax) (hk : 0 < k) (hlt : k < (f.wire p).length) :
    parseBytes p ((f.wire p).take k) w = .incomplete 0 := by
  obtain ⟨haddr, hinfo, hnone⟩ := hs
  obtain ⟨ha, -⟩ := addressByte_fields f.address (Nat.lt_succ_of_le haddr) f.cr
  have hl := lengthBytes_of_type p f.type f.pollFinal f.information.length (Nat.le_trans hinfo hm)
    (fun hc => by rw [hnone hc]; rfl)
  have hle := hlt.le
  rw [Frame.length_wire] at hlt
  rw [Frame.wire_shape, List.append_assoc _ f.information] at hle ⊢
  exact parseBytes_take_of_header p w _ _ _ _ f.information.length k ha hl hinfo hk hle (by omega)

/-- Settles O15: every proper part waits for the rest, the whole is the frame, and nothing is left behind it. -/
theorem partialFramesWait : Obligations.PartialFramesWait := by
  intro s a t pf info b h
  refine ⟨fun k hk hlt => ?part, ?whole, ?rest⟩
  case part =>
    obtain ⟨rfl, hs⟩ := encodeFrame_ok _ _ _ _ _ _ (encodeFrame_of_exec_encode s a t pf info b h)
    exact exec_parse_of_parseBytes s _ .any (.incomplete 0)
      (parseBytes_take_wire s.par .any _ k hs (maxInfoLen_le s.cfg) hk hlt)
  case whole =>
    have hwhole := parseInvertsEncode s a t pf info b [] h
    rwa [List.append_nil] at hwhole
  case rest =>
    rw [List.drop_length]
    exact exec_parse_of_parseBytes s [] .any (.notFound 0) rfl

end Sys2Proof.Machine

/-! The Channel Manager's operations (41_channel_manager.md R170 to R196): what each answers where it refuses, and what it does to
the context, the link and the trace where it does not. -/

namespace Sys2Proof.Machine

open Sys2Proof

/-! ### The context and its handles (R22, R275) -/

namespace State

theorem enabled_iff_mux_ne_none (s : State) : s.enabled = true ↔ s.mux ≠ none := Option.isSome_iff_ne_none

theorem enabled_eq_false_iff (s : State) : s.enabled = false ↔ s.mux = none :=
  Option.isSome_eq_false_iff.trans Option.isNone_iff_eq_none

theorem handleOk_iff (s : State) (n : Nat) : s.handleOk n = true ↔ s.mux ≠ none ∧ n ≤ s.par.maxChannels := by
  rw [handleOk, Bool.and_eq_true, enabled_iff_mux_ne_none, decide_eq_true_eq]

theorem dataHandleOk_iff (s : State) (n : Nat) :
    s.dataHandleOk n = true ↔ s.mux ≠ none ∧ 1 ≤ n ∧ n ≤ s.par.maxChannels := by
  rw [dataHandleOk, Bool.and_eq_true, handleOk_iff, decide_eq_true_eq, and_assoc, and_comm (a := n ≤ _)]

theorem handleOk_eq_false_iff (s : State) (n : Nat) :
    s.handleOk n = false ↔ s.mux = none ∨ s.par.maxChannels < n := by
  rw [← Bool.not_eq_true, handleOk_iff, not_and_or, not_not, Nat.not_le]

theorem dataHandleOk_eq_false_iff (s : State) (n : Nat) :
    s.dataHandleOk n = false ↔ s.mux = none ∨ n = 0 ∨ s.par.maxChannels < n := by
  rw [← Bool.not_eq_true, dataHandleOk_iff, not_and_or, not_not, not_and_or, Nat.not_le, Nat.not_le, Nat.lt_one_iff]

/-! ### What a change of one channel entry leaves alone -/

theorem SameOutsideCmux.of_ran {s t : State} (h : CmuxRan s t) : s.SameOutsideCmux t := ⟨h.cfg, h.fg, h.requests⟩

theorem SameButChannel.trans {s t u : State} {n : Nat} (h : s.SameButChannel t n) (k : t.SameButChannel u n) :
    s.SameButChannel u n := by
  obtain ⟨he, hrx, hhold, hch⟩ := h
  obtain ⟨ke, krx, khold, kch⟩ := k
  exact ⟨ke.trans he, krx.trans hrx, khold.trans hhold, fun i hi => (kch i hi).trans (hch i hi)⟩

theorem chan_eq_of_mux_eq {s t : State} (h : t.mux = s.mux) (n : Nat) : t.chan n = s.chan n := by
  rw [chan, chan, h]

/-- The relation looks at the context only. -/
theorem SameButChannel.of_mux_eq {s t : State} (h : t.mux = s.mux) (n : Nat) : s.SameButChannel t n :=
  ⟨by rw [enabled, enabled, h], by rw [muxRx, muxRx, h], by rw [muxHold, muxHold, h],
    fun i _ => chan_eq_of_mux_eq h i⟩

theorem sameButChannel_setChan (s : State) (n : Nat) (c : Channel) : s.SameButChannel (s.setChan n c) n :=
  ⟨s.setChan_enabled n c, s.setChan_muxRx n c, s.setChan_muxHold n c, fun i hi => s.setChan_chan_ne n i c hi⟩

/-! ### A send, and the entry that changes only where the link took it whole (R173, R175, R176) -/

/-- The state after a link write of `b`, whatever the answer. -/
def linkSent (s : State) (b : List Byte) : State :=
  { s with env := s.takeLinkReply.2.env, out := s.out ++ [.linkWrite b s.takeLinkReply.1] }

theorem linkSend_eq_linkSent (s : State) (b : List Byte) :
    s.linkSend b = (s.takeLinkReply.1.covers b.length, s.linkSent b) := s.linkSend_eq b

@[simp] theorem linkSent_mux (s : State) (b : List Byte) : (s.linkSent b).mux = s.mux := rfl

@[simp] theorem linkSent_enabled (s : State) (b : List Byte) : (s.linkSent b).enabled = s.enabled := rfl

@[simp] theorem linkSent_chan (s : State) (b : List Byte) (n : Nat) : (s.linkSent b).chan n = s.chan n := rfl

/-- `b` is sent; where the link took it whole entry `n` becomes `c` and the status is `Ok`, else it is `TransportError`. -/
def sendThenSetChan (s : State) (b : List Byte) (n : Nat) (c : Channel) : State :=
  if s.takeLinkReply.1.covers b.length then ((s.linkSent b).setChan n c).finish .ok .none
  else (s.linkSent b).fail .transportError

section
variable (s : State) (b : List Byte) (n : Nat) (c : Channel)

theorem sendThenSetChan_of_covers (h : s.takeLinkReply.1.covers b.length = true) :
    s.sendThenSetChan b n c = ((s.linkSent b).setChan n c).finish .ok .none := if_pos h

theorem sendThenSetChan_of_not_covers (h : s.takeLinkReply.1.covers b.length = false) :
    s.sendThenSetChan b n c = (s.linkSent b).fail .transportError := if_neg (by simp [h])

/-- Either way the send leaves one trace entry, takes one answer, and touches nothing but that entry and the result. -/
theorem sendThenSetChan_frame :
    (s.sendThenSetChan b n c).out = s.out ++ [.linkWrite b s.takeLinkReply.1] ∧
    (s.sendThenSetChan b n c).env = s.takeLinkReply.2.env ∧
    s.SameButChannel (s.sendThenSetChan b n c) n ∧ s.SameOutsideCmux (s.sendThenSetChan b n c) := by
  cases h : s.takeLinkReply.1.covers b.length with
  | true =>
    rw [sendThenSetChan_of_covers s b n c h]
    have hset : s.SameButChannel ((s.linkSent b).setChan n c) n :=
      (SameButChannel.of_mux_eq (s.linkSent_mux b) n).trans (sameButChannel_setChan _ n c)
    exact ⟨rfl, rfl, hset.trans (.of_mux_eq rfl n), rfl, rfl, rfl⟩
  | false =>
    rw [sendThenSetChan_of_not_covers s b n c h]
    exact ⟨rfl, rfl, .of_mux_eq rfl n, rfl, rfl, rfl⟩

theorem sendThenSetChan_sent (he : s.enabled = true) (h : s.takeLinkReply.1.covers b.length = true) :
    (s.sendThenSetChan b n c).result = some ⟨.ok, .none⟩ ∧ (s.sendThenSetChan b n c).chan n = c := by
  rw [sendThenSetChan_of_covers s b n c h]
  exact ⟨rfl, setChan_chan_same (s.linkSent b) he n c⟩

theorem sendThenSetChan_failed (h : s.takeLinkReply.1.covers b.length = false) :
    (s.sendThenSetChan b n c).result = some ⟨.transportError, .none⟩ ∧
      (s.sendThenSetChan b n c).chan n = s.chan n := by
  rw [sendThenSetChan_of_not_covers s b n c h]
  exact ⟨rfl, rfl⟩

end

end State

/-! ### Creating and destroying the context (R170, R171) -/

theorem exec_muxEnable_of_context (s : State) (h : s.mux ≠ none) :
    exec .muxEnable s = .next (s.fail .invalidArgument) :=
  congrArg Host.Outcome.next (if_pos (s.enabled_iff_mux_ne_none.2 h))

theorem exec_muxEnable_of_no_context (s : State) (h : s.mux = none) :
    exec .muxEnable s = .next ({ s with mux := some (freshMux s.par) }.finish .ok .none) :=
  congrArg Host.Outcome.next (if_neg (by simp [s.enabled_eq_false_iff.2 h]))

theorem exec_muxDisable_of_context (s : State) (h : s.mux ≠ none) :
    exec .muxDisable s = .next ({ s with mux := none }.finish .ok .none) :=
  congrArg Host.Outcome.next (if_pos (s.enabled_iff_mux_ne_none.2 h))

theorem exec_muxDisable_of_no_context (s : State) (h : s.mux = none) :
    exec .muxDisable s = .next (s.fail .invalidArgument) :=
  congrArg Host.Outcome.next (if_neg (by simp [s.enabled_eq_false_iff.2 h]))

theorem freshTable_getElem? (k n : Nat) (h : n ≤ k) : (freshTable k)[n]? = some (Channel.fresh n) := by
  rw [freshTable, List.getElem?_map, List.getElem?_range (Nat.lt_succ_of_le h), Option.map_some]

/-- Settles O23: the context is `freshMux`, whose table is fresh at every index. -/
theorem muxEnableCreatesContext : Obligations.MuxEnableCreatesContext := by
  intro s
  refine ⟨fun h => ⟨freshMux s.par, exec_muxEnable_of_no_context s h, rfl, rfl, ?table, ?entries⟩,
    exec_muxEnable_of_context s⟩
  case table => exact freshTable_length s.par.maxChannels
  case entries => exact freshTable_getElem? s.par.maxChannels

/-! ### What each operation answers where it refuses -/

section
variable (s : State) (n : Nat)

theorem exec_openChannel_invalid (hs : Bool) (h : s.mux = none ∨ addrMax < n) :
    exec (.openChannel n hs) s = .next (s.fail .invalidArgument) :=
  congrArg Host.Outcome.next
    ((ite_or _ _ _ _).symm.trans (if_pos (h.imp_left s.enabled_eq_false_iff.2)))

theorem exec_closeChannel_invalid (h : s.handleOk n = false ∨ (s.chan n).state ≠ .opened) :
    exec (.closeChannel n) s = .next (s.fail .invalidArgument) :=
  congrArg Host.Outcome.next ((ite_or _ _ _ _).symm.trans (if_pos h))

theorem exec_write_invalid (data : List Byte) (h : s.dataHandleOk n = false ∨ (s.chan n).state ≠ .opened) :
    exec (.write n data) s = .next (s.fail .invalidArgument) :=
  congrArg Host.Outcome.next ((ite_or _ _ _ _).symm.trans (if_pos h))

theorem exec_channelRead_invalid (k : Nat) (h : s.dataHandleOk n = false ∨ (s.chan n).state = .null) :
    exec (.channelRead n k) s = .next (s.fail .invalidArgument) :=
  congrArg Host.Outcome.next ((ite_or _ _ _ _).symm.trans (if_pos h))

theorem exec_sendFrame_invalid (t : TypeOperand) (pf : Bool) (info : List Byte) (w : WantedOperand)
    (h : s.handleOk n = false) : exec (.sendFrame n t pf info w) s = .next (s.fail .invalidArgument) :=
  congrArg Host.Outcome.next (if_pos h)

theorem exec_onBytesReceived_of_no_context (data : List Byte) (h : s.mux = none) :
    exec (.onBytesReceived data) s = .next (s.finish .invalidArgument (.accepted 0)) :=
  congrArg Host.Outcome.next (if_pos (s.enabled_eq_false_iff.2 h))

end

/-- `ENCODE` hands back what the codec answers and changes nothing else (R130). -/
theorem exec_encode (s : State) (a : Nat) (t : TypeOperand) (pf : Bool) (info : List Byte) :
    exec (.encode a t pf info) s = .next (s.finishEncode (encodeOperand s.par a t pf info)) := rfl

/-- Settles O25: each operation looks for the context, or for a handle of it, first; the codec does not look at it. -/
theorem noContextRefusesOperations : Obligations.NoContextRefusesOperations := by
  intro s hm
  have hhandle (n : Nat) : s.handleOk n = false := (s.handleOk_eq_false_iff n).2 (.inl hm)
  have hdata (n : Nat) : s.dataHandleOk n = false := (s.dataHandleOk_eq_false_iff n).2 (.inl hm)
  refine ⟨exec_muxDisable_of_no_context s hm, fun n ok => exec_openChannel_invalid s n ok (.inl hm),
    fun n => exec_closeChannel_invalid s n (.inl (hhandle n)),
    fun n d => ⟨.none, exec_write_invalid s n d (.inl (hdata n))⟩,
    fun d => exec_onBytesReceived_of_no_context s d hm,
    fun n k => exec_channelRead_invalid s n k (.inl (hdata n)),
    fun n t pf info w => exec_sendFrame_invalid s n t pf info w (hhandle n),
    fun m => ⟨fun a t pf info => ?encode, fun buf w => ?parse⟩⟩
  case encode =>
    obtain ⟨r, hs, hctx⟩ := s.exists_finishEncode { s with mux := some m } (encodeOperand s.par a t pf info)
    exact ⟨r, congrArg Host.Outcome.next hs, congrArg Host.Outcome.next hctx⟩
  case parse =>
    exact ⟨_, exec_parse_of_parseBytes s buf w _ rfl,
      exec_parse_of_parseBytes { s with mux := some m } buf w _ rfl⟩

/-- Settles O24: the state left has no context, where every handle is refused (R196). -/
theorem muxDisableDestroysContext : Obligations.MuxDisableDestroysContext := by
  intro s
  refine ⟨fun h => ⟨_, rfl, exec_muxDisable_of_context s h, fun n => ?_⟩, exec_muxDisable_of_no_context s⟩
  obtain ⟨-, -, hclose, hwrite, -, hread, -, -⟩ :=
    noContextRefusesOperations { s with mux := none, result := some ⟨.ok, .none⟩ } rfl
  exact ⟨hclose n, hwrite n, hread n⟩

/-! ### `OPEN_CHANNEL` (R172, R47) -/

/-- Behind the checks of the id the entry's state decides, then the handshake. -/
theorem exec_openChannel_of_id (s : State) (n : Nat) (hs : Bool) (hm : s.mux ≠ none) (hn : n ≤ s.par.maxChannels) :
    exec (.openChannel n hs) s = .next
      (if (s.chan n).state ≠ .null then s.fail .alreadyOpen
      else if hs = false then s.fail .protocolError
      else (s.setChan n (openedChannel s.par (s.chan n))).finish .ok (.handle n)) := by
  have he : ¬s.enabled = false := fun e => hm (s.enabled_eq_false_iff.1 e)
  have haddr : ¬addrMax < n := Nat.not_lt.2 (hn.trans (maxChannels_le s.cfg).2)
  refine congrArg Host.Outcome.next ?_
  rw [if_neg he, if_neg haddr, if_neg (Nat.not_lt.2 hn)]

theorem exec_openChannel_exhausted (s : State) (n : Nat) (hs : Bool) (hm : s.mux ≠ none) (ha : n ≤ addrMax)
    (hn : s.par.maxChannels < n) : exec (.openChannel n hs) s = .next (s.fail .resourceExhausted) := by
  have he : ¬s.enabled = false := fun e => hm (s.enabled_eq_false_iff.1 e)
  refine congrArg Host.Outcome.next ?_
  rw [if_neg he, if_neg (Nat.not_lt.2 ha), if_pos hn]

/-- Settles O26: the checks in their order, and the entry `openedChannel` behind them. -/
theorem openChannelOpens : Obligations.OpenChannelOpens := by
  intro s n hs
  refine ⟨exec_openChannel_invalid s n hs, exec_openChannel_exhausted s n hs, fun hm hn => ?_⟩
  rw [exec_openChannel_of_id s n hs hm hn]
  refine ⟨fun hne => ?used, fun hnull hbad => ?handshake, fun hnull hgood => ?opens⟩
  case used => rw [if_pos hne]; rfl
  case handshake => rw [if_neg (not_not.2 hnull), if_pos hbad]; rfl
  case opens =>
    rw [if_neg (not_not.2 hnull), if_neg (by simp [hgood])]
    refine ⟨_, rfl, rfl, ?_, ?_, ⟨rfl, rfl, rfl⟩, rfl, rfl⟩
    · exact s.setChan_chan_same (s.enabled_iff_mux_ne_none.2 hm) n _
    · exact (s.sameButChannel_setChan n _).trans (.of_mux_eq rfl n)

/-! ### `CLOSE_CHANNEL` (R173) -/

theorem exec_closeChannel_opened (s : State) (n : Nat) (hh : s.handleOk n = true) (ho : (s.chan n).state = .opened) :
    exec (.closeChannel n) s =
      .next (s.sendThenSetChan (frameBytes s.par n .disc true []) n (closedChannel (s.chan n))) := by
  refine congrArg Host.Outcome.next ?_
  rw [if_neg (by simp [hh]), if_neg (not_not.2 ho), State.linkSend_eq_linkSent, State.sendThenSetChan]
  cases s.takeLinkReply.1.covers (frameBytes s.par n .disc true []).length <;> rfl

/-- `ENCODE` of a sendable descriptor answers the bytes the block's own senders build. -/
theorem exec_encode_of_sendable (s : State) (a : Nat) (t : FrameType) (pf : Bool) (info : List Byte)
    (h : Frame.Sendable s.par ⟨a, sentCr t, t, pf, info⟩) : exec (.encode a (.legal t) pf info) s =
      .next { s with result := some ⟨.ok, .bytes (frameBytes s.par a t pf info)⟩ } := by
  rw [exec_encode_legal, encodeFrame_of_sendable s.par a t pf info h, frameBytes_eq_wire]
  rfl

/-- Settles O27: the DISC frame is sendable, so `ENCODE` builds it, and the entry changes with a whole send only. -/
theorem closeChannelSendsDisc : Obligations.CloseChannelSendsDisc := by
  intro s n
  refine ⟨fun h => ?refused, fun hm hn ho => ?sends⟩
  case refused =>
    refine exec_closeChannel_invalid s n ?_
    rwa [State.handleOk_eq_false_iff, or_assoc]
  case sends =>
    have haddr : n ≤ addrMax := hn.trans (maxChannels_le s.cfg).2
    have he : s.enabled = true := s.enabled_iff_mux_ne_none.2 hm
    obtain ⟨hout, henv, hbut, hsame⟩ :=
      s.sendThenSetChan_frame (frameBytes s.par n .disc true []) n (closedChannel (s.chan n))
    exact ⟨_, _, exec_encode_of_sendable s n .disc true [] ⟨haddr, Nat.zero_le _, fun _ => rfl⟩,
      exec_closeChannel_opened s n ((s.handleOk_iff n).2 ⟨hm, hn⟩) ho, hout, henv, hbut, hsame,
      s.sendThenSetChan_sent _ n _ he, s.sendThenSetChan_failed _ n _⟩

/-! ### `WRITE` (R174) -/

section
variable (s : State) (n : Nat) (data : List Byte) (hh : s.dataHandleOk n = true) (ho : (s.chan n).state = .opened)

include hh ho in
theorem exec_write_stopped (hoff : (s.chan n).txIsFlowControlledOff = true) :
    exec (.write n data) s = .next (s.fail .flowControlled) := by
  refine congrArg Host.Outcome.next ?_
  rw [if_neg (by simp [hh]), if_neg (not_not.2 ho), if_pos hoff]

include hh ho in
theorem exec_write_nothing (hoff : (s.chan n).txIsFlowControlledOff = false)
    (hk : min data.length s.par.maxInfoLen = 0) :
    exec (.write n data) s = .next (s.finish .ok (.bytesWritten 0)) := by
  refine congrArg Host.Outcome.next ?_
  rw [if_neg (by simp [hh]), if_neg (not_not.2 ho), if_neg (by simp [hoff])]
  exact if_pos hk

include hh ho in
theorem exec_write_sends (hoff : (s.chan n).txIsFlowControlledOff = false) (b : List Byte)
    (hk : 0 < min data.length s.par.maxInfoLen)
    (hb : b = frameBytes s.par n .uih false (data.take (min data.length s.par.maxInfoLen))) :
    exec (.write n data) s = .next { s.linkSent b with
      result := some (if s.takeLinkReply.1.covers b.length then ⟨.ok, .bytesWritten (min data.length s.par.maxInfoLen)⟩
        else ⟨.transportError, .bytesWritten 0⟩) } := by
  refine congrArg Host.Outcome.next ?_
  rw [if_neg (by simp [hh]), if_neg (not_not.2 ho), if_neg (by simp [hoff])]
  dsimp only
  rw [if_neg hk.ne', ← hb, State.linkSend_eq_linkSent]
  cases s.takeLinkReply.1.covers b.length <;> rfl

end

/-- Settles O28: a part of at most `MAX_INFO_LEN` bytes is sendable, so `ENCODE` builds the frame that goes out. -/
theorem writeSendsOneFrame : Obligations.WriteSendsOneFrame := by
  intro s n data
  refine ⟨fun h => ?refused, fun hm h1 hn ho => ?accepted⟩
  case refused =>
    refine ⟨.none, exec_write_invalid s n data ?_⟩
    rwa [State.dataHandleOk_eq_false_iff, or_assoc, or_assoc]
  case accepted =>
    have hh : s.dataHandleOk n = true := (s.dataHandleOk_iff n).2 ⟨hm, h1, hn⟩
    refine ⟨fun hoff => ⟨.none, exec_write_stopped s n data hh ho hoff⟩, fun hoff =>
      ⟨exec_write_nothing s n data hh ho hoff, fun hk => ⟨_, ?_, exec_write_sends s n data hh ho hoff _ hk rfl⟩⟩⟩
    have haddr : n ≤ addrMax := hn.trans (maxChannels_le s.cfg).2
    have hlen : (data.take (min data.length s.par.maxInfoLen)).length ≤ s.par.maxInfoLen :=
      (List.length_take_le _ _).trans (Nat.min_le_right _ _)
    exact exec_encode_of_sendable s n .uih false _ ⟨haddr, hlen, fun h => nomatch h⟩

/-! ### `SEND_FRAME` (R175) -/

/-- Behind the checks of the id and of `wanted`, what `ENCODE` answers decides. -/
theorem exec_sendFrame_of_legal (s : State) (n : Nat) (t : TypeOperand) (pf : Bool) (info : List Byte) (w : WantedOperand)
    (v : Option FrameType) (hh : s.handleOk n = true) (hw : legalWanted w = some v) :
    exec (.sendFrame n t pf info w) s = .next (match encodeOperand s.par n t pf info with
      | .error e => s.fail e
      | .ok b => s.sendThenSetChan b n { s.chan n with wanted := v }) := by
  refine congrArg Host.Outcome.next ?_
  rw [if_neg (by simp [hh]), hw]
  cases encodeOperand s.par n t pf info with
  | error e => rfl
  | ok b =>
    dsimp only
    rw [State.linkSend_eq_linkSent, State.sendThenSetChan]
    cases s.takeLinkReply.1.covers b.length <;> rfl

/-- Settles O29: `ENCODE` and `SEND_FRAME` ask the same of the codec. -/
theorem sendFrameArmsWanted : Obligations.SendFrameArmsWanted := by
  intro s n ty pf info w
  refine ⟨fun h => exec_sendFrame_invalid s n ty pf info w ((s.handleOk_eq_false_iff n).2 h), fun v hv hm hn => ?_⟩
  have hw : legalWanted w = some v := by
    rcases hv with ⟨rfl, rfl⟩ | ⟨t, rfl, rfl⟩ <;> rfl
  rw [exec_encode, exec_sendFrame_of_legal s n ty pf info w v ((s.handleOk_iff n).2 ⟨hm, hn⟩) hw]
  cases encodeOperand s.par n ty pf info with
  | error e => exact .inl ⟨e, rfl, rfl⟩
  | ok b =>
    obtain ⟨hout, henv, hbut, hsame⟩ := s.sendThenSetChan_frame b n { s.chan n with wanted := v }
    exact .inr ⟨b, _, rfl, rfl, hout, henv, hbut, hsame,
      s.sendThenSetChan_sent b n _ (s.enabled_iff_mux_ne_none.2 hm), s.sendThenSetChan_failed b n _⟩

end Sys2Proof.Machine

/-! What a received frame does to one channel (41_channel_manager.md R178 to R181, R187 to R189), and reading (R190). -/

namespace Sys2Proof.Machine

open Sys2Proof

namespace State

/-! ### Delivery (R179, R180) -/

section
variable (s : State) (n : Nat) (info : List Byte)

/-- Something is lost exactly where not all of it fits. -/
theorem fitting_lt_iff : s.fitting n info < info.length ↔ 0 < info.length - s.fitting n info :=
  Nat.sub_pos_iff_lt.symm

theorem pushChan_enabled (d : List Byte) : (s.pushChan n d).enabled = s.enabled := s.setChan_enabled n _

theorem pushChan_chan_same (he : s.enabled = true) (d : List Byte) :
    (s.pushChan n d).chan n = { s.chan n with rx := (s.chan n).rx.push d } := s.setChan_chan_same he n _

theorem overflow_chan_same (he : s.enabled = true) (lost : Nat) :
    (s.overflow n lost).chan n = { s.chan n with overflowCount := (s.chan n).overflowCount + 1 } :=
  s.setChan_chan_same he n _

theorem sameButChannel_pushChan (d : List Byte) : s.SameButChannel (s.pushChan n d) n := s.sameButChannel_setChan n _

theorem sameButChannel_overflow (lost : Nat) : s.SameButChannel (s.overflow n lost) n :=
  (s.sameButChannel_setChan n _).trans (.of_mux_eq rfl n)

/-- What is lost is counted and logged, after what fits was stored. -/
def storeCounted : State :=
  let s1 := s.pushChan n (info.take (s.fitting n info))
  if s.fitting n info < info.length then s1.overflow n (info.length - s.fitting n info) else s1

/-- `Deliver` before flow control: `storeCounted`, then DATA where a byte was stored. -/
theorem store_eq : s.store n info =
    if 0 < s.fitting n info then (s.storeCounted n info).event n evData else s.storeCounted n info := rfl

theorem storeCounted_of_fits (h : ¬s.fitting n info < info.length) :
    s.storeCounted n info = s.pushChan n (info.take (s.fitting n info)) := if_neg h

theorem storeCounted_of_lost (h : s.fitting n info < info.length) : s.storeCounted n info =
    (s.pushChan n (info.take (s.fitting n info))).overflow n (info.length - s.fitting n info) := if_pos h

theorem store_mux : (s.store n info).mux = (s.storeCounted n info).mux := by
  rw [store_eq]
  split <;> rfl

theorem store_chan_same (he : s.enabled = true) : (s.store n info).chan n = { s.chan n with
    rx := (s.chan n).rx.push (info.take (s.fitting n info))
    overflowCount := (s.chan n).overflowCount + if s.fitting n info < info.length then 1 else 0 } := by
  have hpush := s.pushChan_chan_same n he (info.take (s.fitting n info))
  rw [chan_eq_of_mux_eq (s.store_mux n info)]
  by_cases h : s.fitting n info < info.length
  case pos =>
    rw [storeCounted_of_lost s n info h, if_pos h, overflow_chan_same _ n ((s.pushChan_enabled n _).trans he), hpush]
  case neg =>
    rw [storeCounted_of_fits s n info h, if_neg h, hpush]
    rfl

theorem sameButChannel_store : s.SameButChannel (s.store n info) n := by
  have hpush := s.sameButChannel_pushChan n (info.take (s.fitting n info))
  refine SameButChannel.trans (t := s.storeCounted n info) ?_ (.of_mux_eq (s.store_mux n info) n)
  by_cases h : s.fitting n info < info.length
  case pos =>
    rw [storeCounted_of_lost s n info h]
    exact hpush.trans (sameButChannel_overflow _ n _)
  case neg =>
    rw [storeCounted_of_fits s n info h]
    exact hpush

theorem store_env : (s.store n info).env = s.env := by
  have hcounted : (s.storeCounted n info).env = s.env := by
    unfold storeCounted
    dsimp only
    split <;> rfl
  rw [store_eq]
  split <;> exact hcounted

/-- The log entry of a loss comes before the event. -/
theorem store_out : (s.store n info).out = s.out ++
    (if s.fitting n info < info.length then [.log (.overflow n (info.length - s.fitting n info))] else []) ++
    (if 0 < s.fitting n info then [.event n evData] else []) := by
  have hcounted : (s.storeCounted n info).out = s.out ++
      if s.fitting n info < info.length then [.log (.overflow n (info.length - s.fitting n info))] else [] := by
    by_cases h : s.fitting n info < info.length
    · rw [storeCounted_of_lost s n info h, if_pos h]
      rfl
    · rw [storeCounted_of_fits s n info h, if_neg h, List.append_nil]
      rfl
  rw [store_eq, ← hcounted]
  split
  · rfl
  · rw [List.append_nil]

end

/-! ### Dispatch (R178) -/

section
variable (s : State) (f : Frame)

theorem dispatch_of_unknown (h : s.par.maxChannels < f.address) :
    s.dispatch f = (.ok, s.log (.unknownChannel f.address)) := if_pos h

theorem dispatch_of_uih (ha : f.address ≤ s.par.maxChannels) (ht : f.type = .uih) :
    s.dispatch f = s.dispatchUih f := by
  rw [dispatch, if_neg (Nat.not_lt.2 ha), if_pos ht]

theorem dispatch_of_other (ha : f.address ≤ s.par.maxChannels) (ht : f.type ≠ .uih) :
    s.dispatch f = (.ok, s.dispatchOther f) := by
  rw [dispatch, if_neg (Nat.not_lt.2 ha), if_neg ht]

theorem dispatchUih_of_not_open (h : (s.chan f.address).state ≠ .opened) :
    s.dispatchUih f = (.ok, s.log (.notOpen f.address)) := if_pos h

theorem dispatchUih_of_data (h : (s.chan f.address).state = .opened) (h1 : 1 ≤ f.address) :
    s.dispatchUih f = (s.store f.address f.information).evalRxFlow f.address := by
  rw [dispatchUih, if_neg (not_not.2 h), if_neg (Nat.ne_of_gt h1), deliver]

/-! ### A frame that is not UIH (R187 to R189) -/

theorem matchesWanted_iff : s.matchesWanted f = true ↔ (s.chan f.address).wanted = some f.type := decide_eq_true_iff

theorem disconnects_iff : s.disconnects f = true ↔
    (f.type = .disc ∨ f.type = .dm) ∧ (s.chan f.address).state = .opened := decide_eq_true_iff

theorem dispatchOther_of_neither (hw : s.matchesWanted f = false) (hd : s.disconnects f = false) :
    s.dispatchOther f = s.log (.unexpectedFrame f.address f.type) := by
  rw [dispatchOther, if_neg (by simp [hw, hd])]

theorem dispatchOther_of_either (h : s.matchesWanted f = true ∨ s.disconnects f = true) : s.dispatchOther f =
    (s.setChan f.address (s.answeredChan f)).event f.address (s.answerMask f) := by
  rw [dispatchOther, if_pos (by simpa using h)]

/-- The event bit is `EV_RESPONSE` alone (R187). -/
theorem answer_of_matchesWanted_only (hw : s.matchesWanted f = true) (hd : s.disconnects f = false) :
    s.answerMask f = 0x08 ∧ s.answeredChan f = { s.chan f.address with wanted := none } := by
  simp [answerMask, answeredChan, hw, hd, evResponse]

/-- The event bit is `EV_DISCONNECTED` alone (R188). -/
theorem answer_of_disconnects_only (hw : s.matchesWanted f = false) (hd : s.disconnects f = true) :
    s.answerMask f = 0x04 ∧ s.answeredChan f = { s.chan f.address with state := .openDisconnected } := by
  simp [answerMask, answeredChan, hw, hd, evDisconnected]

/-- Both bits are in the one event (R188). -/
theorem answer_of_both (hw : s.matchesWanted f = true) (hd : s.disconnects f = true) :
    s.answerMask f = 0x0C ∧
      s.answeredChan f = { s.chan f.address with state := .openDisconnected, wanted := none } := by
  simp [answerMask, answeredChan, hw, hd, evResponse, evDisconnected]

end

end State

/-- Settles O32: such a frame is delivered, and `store` is all of the delivery but flow control. -/
theorem deliveryStoresAndCounts : Obligations.DeliveryStoresAndCounts := by
  intro s f hm ht h1 ha ho c w lost
  have hlost : (0 < lost) = (s.fitting f.address f.information < f.information.length) :=
    propext (s.fitting_lt_iff f.address f.information).symm
  have hran := s.store_ran f.address f.information
  refine ⟨s.store f.address f.information, ?dispatch, ?chan, ?out, s.sameButChannel_store _ _,
    .of_ran hran, s.store_env _ _, hran.result⟩
  case dispatch => rw [s.dispatch_of_uih f ha ht, s.dispatchUih_of_data f ho h1]
  case chan =>
    rw [s.store_chan_same _ _ (s.enabled_iff_mux_ne_none.2 hm)]
    simp only [hlost]
    rfl
  case out =>
    rw [s.store_out]
    simp only [hlost]
    rfl

/-- Settles O37: the four cases of `matchesWanted` and `disconnects`. -/
theorem otherFramesAnswerOrDisconnect : Obligations.OtherFramesAnswerOrDisconnect := by
  intro s f hm
  refine ⟨s.dispatch_of_unknown f, fun ha ht hs => ?notOpen, fun ha ht => ?other⟩
  case notOpen => exact (s.dispatch_of_uih f ha ht).trans (s.dispatchUih_of_not_open f hs)
  case other =>
    intro c answers cuts
    have hw : s.matchesWanted f = true ↔ answers := s.matchesWanted_iff f
    have hd : s.disconnects f = true ↔ cuts := s.disconnects_iff f
    rw [s.dispatch_of_other f ha ht, ← hw, ← hd, Bool.not_eq_true, Bool.not_eq_true]
    refine ⟨fun hw hd => ?neither, fun h => ?either⟩
    case neither => rw [s.dispatchOther_of_neither f hw hd]; rfl
    case either =>
      have hchan := s.setChan_chan_same (s.enabled_iff_mux_ne_none.2 hm) f.address (s.answeredChan f)
      refine ⟨_, s.answerMask f, rfl, ?_⟩
      rw [s.dispatchOther_of_either f h, State.event_chan, hchan]
      exact ⟨rfl, rfl, rfl, (s.sameButChannel_setChan f.address _).trans (.of_mux_eq rfl _), ⟨rfl, rfl, rfl⟩,
        s.answer_of_matchesWanted_only f, s.answer_of_disconnects_only f, s.answer_of_both f⟩

/-! ### `CHANNEL_READ` (R190) -/

section
variable (s : State) (n k : Nat)

theorem State.popChan_chan_same (he : s.enabled = true) :
    (s.popChan n k).chan n = { s.chan n with rx := (s.chan n).rx.advance k } := s.setChan_chan_same he n _

variable (hh : s.dataHandleOk n = true)

include hh in
theorem exec_channelRead_opened (ho : (s.chan n).state = .opened) : exec (.channelRead n k) s =
    .next (((s.popChan n k).evalRxFlow n).2.finish ((s.popChan n k).evalRxFlow n).1 (.bytes ((s.chan n).rx.popped k))) := by
  refine congrArg Host.Outcome.next ?_
  rw [if_neg (by simp [hh]), if_neg (by simp [ho])]
  exact if_pos ho

include hh in
theorem exec_channelRead_disconnected (hd : (s.chan n).state = .openDisconnected) : exec (.channelRead n k) s =
    .next ((s.popChan n k).finish .ok (.bytes ((s.chan n).rx.popped k))) := by
  refine congrArg Host.Outcome.next ?_
  rw [if_neg (by simp [hh]), if_neg (by simp [hd])]
  exact if_neg (by simp [hd])

end

/-- Settles O38: the bytes are taken first, and flow control is looked at on an open channel only. -/
theorem channelReadTakesOldest : Obligations.ChannelReadTakesOldest := by
  intro s n k
  refine ⟨fun h => ?refused, fun hm h1 hn _ => ?reads⟩
  case refused =>
    refine exec_channelRead_invalid s n k ?_
    rwa [State.dataHandleOk_eq_false_iff, or_assoc, or_assoc]
  case reads =>
    have hh : s.dataHandleOk n = true := (s.dataHandleOk_iff n).2 ⟨hm, h1, hn⟩
    exact ⟨s.popChan n k, s.popChan_chan_same n k (s.enabled_iff_mux_ne_none.2 hm), s.sameButChannel_setChan n _,
      ⟨rfl, rfl, rfl⟩, rfl, rfl, exec_channelRead_disconnected s n k hh, exec_channelRead_opened s n k hh⟩

end Sys2Proof.Machine

/-! The FG unit's operations (42_fuel_gauge.md R220 to R245) run against listed bus answers. `State.during` is the one form every
state inside such a run has; each primitive takes that form to that form, so that an operation is run by rewriting. -/

namespace Sys2Proof.Machine

open Sys2Proof

/-! ### A state in the course of an FG operation -/

/-- `s` in the course of an FG operation: the gauge's state is `g`, `bus` lists the answers still to come, and `new` has been
traced so far. -/
def State.during (s : State) (g : Fg) (bus : List BusReply) (new : List TraceEntry) : State :=
  { s with fg := g, env := { s.env with bus := bus }, out := s.out ++ new }

namespace State

theorem eq_during {s : State} {bus : List BusReply} (h : s.env.bus = bus) : s = s.during s.fg bus [] := by
  subst h
  simp [during]

theorem exec_of_listed {s : State} {bus : List BusReply} (h : s.env.bus = bus) (i : Instr) :
    exec i s = exec i (s.during s.fg bus []) := congrArg (exec i) (eq_during h)

section
variable (s : State) (g : Fg) (bus : List BusReply) (new : List TraceEntry)

@[simp] theorem during_par : (s.during g bus new).par = s.par := rfl

@[simp] theorem during_fg : (s.during g bus new).fg = g := rfl

@[simp] theorem during_setLastSubCmd (cmd : U16) :
    (s.during g bus new).setLastSubCmd cmd = s.during { g with lastSubCmd := cmd } bus new := rfl

@[simp] theorem during_setLastChecksum (cs : Byte) :
    (s.during g bus new).setLastChecksum cs = s.during { g with lastChecksum := cs } bus new := rfl

@[simp] theorem during_setLastCtrl (v : U16) :
    (s.during g bus new).setLastCtrl v = s.during { g with lastCtrl := v } bus new := rfl

@[simp] theorem during_delay (t : Nat) : (s.during g bus new).delay t = s.during g bus (new ++ [.delay t]) := by
  simp [during, delay, emit]

@[simp] theorem during_log (e : LogEntry) : (s.during g bus new).log e = s.during g bus (new ++ [.log e]) := by
  simp [during, log, emit]

theorem during_finish (st : Status) (o : Output) : (s.during g bus new).finish st o = { s with
    fg := g, env := { s.env with bus := bus }, out := s.out ++ new, result := some ⟨st, o⟩ } := rfl

end

/-! ### Register transactions (R64, R65) -/

section
variable (s : State) (g : Fg) (rest : List BusReply) (new : List TraceEntry) (reg : Byte) (t : Nat) (x : List Byte)

@[simp] theorem during_regWrite_ok (d : List Byte) : (s.during g (.ok x :: rest) new).regWrite reg d t =
    (true, s.during { g with lastReg := reg } rest (new ++ [.busWrite s.par.fgDevAddr (reg :: d) true, .delay t])) := by
  rw [regWrite_ok _ reg d t x rest rfl]
  simp [during]

@[simp] theorem during_regWrite_error (d : List Byte) : (s.during g (.error :: rest) new).regWrite reg d t =
    (false, s.during { g with lastReg := reg } rest (new ++ [.busWrite s.par.fgDevAddr (reg :: d) false])) := by
  rw [regWrite_error _ reg d t rest rfl]
  simp [during]

theorem during_regRead_ok (n : Nat) (d : List Byte) (hd : d.length = n) :
    (s.during g (.ok x :: .ok d :: rest) new).regRead reg n t =
    (some d, s.during { g with lastReg := reg } rest
      (new ++ [.busWrite s.par.fgDevAddr [reg] true, .busRead s.par.fgDevAddr n (some d), .delay t])) := by
  rw [regRead_ok _ reg n t x d rest rfl hd.ge, List.take_of_length_le hd.le]
  simp [during]

@[simp] theorem during_regRead_one (a : Byte) : (s.during g (.ok x :: .ok [a] :: rest) new).regRead reg 1 t =
    (some [a], s.during { g with lastReg := reg } rest
      (new ++ [.busWrite s.par.fgDevAddr [reg] true, .busRead s.par.fgDevAddr 1 (some [a]), .delay t])) :=
  during_regRead_ok s g rest new reg t x 1 [a] rfl

@[simp] theorem during_regRead_write_error (n : Nat) : (s.during g (.error :: rest) new).regRead reg n t =
    (none, s.during { g with lastReg := reg } rest (new ++ [.busWrite s.par.fgDevAddr [reg] false])) := by
  rw [regRead_write_error _ reg n t rest rfl]
  simp [during]

@[simp] theorem during_regRead_read_error (n : Nat) : (s.during g (.ok x :: .error :: rest) new).regRead reg n t =
    (none, s.during { g with lastReg := reg } rest
      (new ++ [.busWrite s.par.fgDevAddr [reg] true, .busRead s.par.fgDevAddr n none])) := by
  rw [regRead_read_error _ reg n t x .error rest rfl rfl]
  simp [during]

end

end State

/-! ### Register access (R220, R221) -/

theorem legalReadLength_eq_false_iff (n : Nat) : legalReadLength n = false ↔ n < 1 ∨ 32 < n := by
  rw [legalReadLength, decide_eq_false_iff_not]
  omega

theorem legalWriteLength_eq_false_iff (n : Nat) : legalWriteLength n = false ↔ n < 1 ∨ 34 < n := by
  rw [legalWriteLength, decide_eq_false_iff_not]
  omega

/-- Settles O45: the refused lengths, then the two transfers answered, and each of them failing. -/
theorem registerRead : Obligations.RegisterRead := by
  intro s reg n
  refine ⟨fun hn => ?refused, fun h1 h32 => ?run⟩
  case refused =>
    simp only [exec, execFgRegRead, if_pos ((legalReadLength_eq_false_iff n).2 hn)]
    rfl
  case run =>
    have hl : ¬legalReadLength n = false := (legalReadLength_eq_false_iff n).not.2 (by omega)
    refine ⟨fun x d rest hb hd => ?answered, fun x rest hb => ?readFails, fun rest hb => ?pointerFails⟩ <;>
      rw [State.exec_of_listed hb] <;> simp only [exec, execFgRegRead, if_neg hl]
    case answered => rw [State.during_regRead_ok _ _ _ _ _ _ _ _ d hd]; rfl
    case readFails => rw [State.during_regRead_read_error]; rfl
    case pointerFails => rw [State.during_regRead_write_error]; rfl

/-- Settles O46: the refused lengths, then the write answered, and failing. -/
theorem registerWrite : Obligations.RegisterWrite := by
  intro s reg data
  refine ⟨fun hn => ?refused, fun h1 h34 => ?run⟩
  case refused =>
    simp only [exec, execFgRegWrite, if_pos ((legalWriteLength_eq_false_iff data.length).2 hn)]
    rfl
  case run =>
    have hl : ¬legalWriteLength data.length = false := (legalWriteLength_eq_false_iff data.length).not.2 (by omega)
    refine ⟨fun x rest hb => ?answered, fun rest hb => ?fails⟩ <;>
      rw [State.exec_of_listed hb] <;> simp only [exec, execFgRegWrite, if_neg hl]
    case answered => rw [State.during_regWrite_ok]; rfl
    case fails => rw [State.during_regWrite_error]; rfl

/-! ### Checksum and length registers (R222, R223) -/

/-- Settles O47: each listing of answers ends at the first that is an error. -/
theorem checksumAndLengthRegisters : Obligations.ChecksumAndLengthRegisters := by
  intro s sum len rest p after got put
  refine ⟨fun a b x y hb => ?read, fun hb => ?sumPointerFails, fun x hb => ?sumReadFails, fun a x hb => ?lenPointerFails,
    fun a x y hb => ?lenReadFails, fun x y hb => ?written, fun hb => ?sumWriteFails, fun x hb => ?lenWriteFails⟩ <;>
    rw [State.exec_of_listed hb]
  case read | sumPointerFails | sumReadFails | lenPointerFails | lenReadFails =>
    simp only [exec, execFgSumlenRead, State.sumLenRead, State.during_par, State.during_regRead_one,
      State.during_regRead_write_error, State.during_regRead_read_error, List.nil_append]
    rfl
  case written | sumWriteFails | lenWriteFails =>
    simp only [exec, execFgSumlenWrite, State.sumLenWrite, State.during_par, State.during_setLastChecksum,
      State.during_regWrite_ok, State.during_regWrite_error, List.nil_append]
    rfl

/-! ### Sub-commands (R224 to R226) -/

theorem toNat_append_bytes (a b : Byte) : (a ++ b : U16).toNat = 256 * a.toNat + b.toNat := by
  have h := BitVec.toNat_append a b
  rw [← Nat.shiftLeft_add_eq_or_of_lt b.isLt, Nat.shiftLeft_eq] at h
  omega

theorem rd16_pair (a b : Byte) : rd16 [a, b] = a ++ b := by
  have hab : (a ++ b : U16).toNat = a.toNat <<< 8 ||| b.toNat := BitVec.toNat_append a b
  have ha : a.toNat <<< 8 < 2 ^ 16 := by rw [Nat.shiftLeft_eq]; omega
  refine BitVec.eq_of_toNat_eq ?_
  rw [hab, rd16, BitVec.toNat_or, BitVec.toNat_shiftLeft, BitVec.toNat_setWidth_of_le (by decide),
    BitVec.toNat_setWidth_of_le (by decide)]
  exact congrArg (· ||| b.toNat) (Nat.mod_eq_of_lt ha)

/-- The sentinel's bytes are 0xA5 then 0xFF (R225). -/
theorem append_eq_fgSentinel_iff (a b : Byte) : (a ++ b : U16) = fgSentinel ↔ a = 0xA5 ∧ b = 0xFF := by
  refine ⟨fun h => ?_, fun ⟨ha, hb⟩ => by rw [ha, hb]; rfl⟩
  have hn : 256 * a.toNat + b.toNat = 0xA5FF := (toNat_append_bytes a b).symm.trans (congrArg BitVec.toNat h)
  constructor <;> bv_omega

/-- The value the last of the polls `vs` reads, and `v` where there is none (R225). -/
def lastPolled (v : U16) (vs : List (Byte × Byte)) : U16 := (vs.map fun w => w.1 ++ w.2).getLastD v

theorem lastPolled_cons (v : U16) (w : Byte × Byte) (vs : List (Byte × Byte)) :
    lastPolled v (w :: vs) = lastPolled (w.1 ++ w.2) vs := List.getLastD_cons

theorem pollReplies_append (vs ws : List (Byte × Byte)) : pollReplies (vs ++ ws) = pollReplies vs ++ pollReplies ws :=
  List.flatMap_append

theorem pollTrace_append (p : Params) (vs ws : List (Byte × Byte)) :
    pollTrace p (vs ++ ws) = pollTrace p vs ++ pollTrace p ws := List.flatMap_append

section
variable (s : State) (g : Fg) (rest : List BusReply) (new : List TraceEntry) (left k : Nat)

/-- One answered poll (R225): its value is recorded, and the loop goes on unless that is the sentinel. -/
theorem pollLoop_succ (v : Byte × Byte) (hg : g.lastReg = s.par.fgRegControl) :
    pollLoop (left + 1) k (s.during g (pollReplies [v] ++ rest) new) =
    if (v.1 ++ v.2 : U16) = fgSentinel then
      (.sentinel k, s.during { g with lastCtrl := v.1 ++ v.2 } rest (new ++ pollTrace s.par [v]))
    else pollLoop left (k + 1) (s.during { g with lastCtrl := v.1 ++ v.2 } rest (new ++ pollTrace s.par [v])) := by
  obtain ⟨raw, buf, reg, cmd, sum, ctrl⟩ := g
  obtain rfl : reg = s.par.fgRegControl := hg
  have hreplies : pollReplies [v] ++ rest = .ok [] :: .ok [v.1, v.2] :: rest := rfl
  rw [pollLoop, hreplies, State.during_par, State.during_regRead_ok _ _ _ _ _ _ _ 2 [v.1, v.2] rfl]
  simp only [rd16_pair, State.during_setLastCtrl]
  rfl

/-- Polls that do not read the sentinel are made one after another, and the loop goes on behind them (R225). -/
theorem pollLoop_notSentinel (vs : List (Byte × Byte)) (hvs : ∀ v ∈ vs, NotSentinel v) (hg : g.lastReg = s.par.fgRegControl) :
    pollLoop (vs.length + left) k (s.during g (pollReplies vs ++ rest) new) = pollLoop left (k + vs.length)
      (s.during { g with lastCtrl := lastPolled g.lastCtrl vs } rest (new ++ pollTrace s.par vs)) := by
  induction vs generalizing g new k with
  | nil => simp [pollReplies, pollTrace, lastPolled]
  | cons v vs ih =>
    have hv : ¬(v.1 ++ v.2 : U16) = fgSentinel := (append_eq_fgSentinel_iff _ _).not.2 (hvs v List.mem_cons_self)
    have hlen : (v :: vs).length + left = vs.length + left + 1 := by rw [List.length_cons]; omega
    have hk : k + (v :: vs).length = k + 1 + vs.length := by rw [List.length_cons]; omega
    rw [hlen, hk, lastPolled_cons, ← List.singleton_append, pollReplies_append, pollTrace_append, List.append_assoc,
      pollLoop_succ _ _ _ _ _ _ _ hg, if_neg hv,
      ih { g with lastCtrl := v.1 ++ v.2 } _ _ (fun w hw => hvs w (List.mem_cons_of_mem v hw)) hg, List.append_assoc]

theorem pollLoop_pointer_error (hg : g.lastReg = s.par.fgRegControl) :
    pollLoop (left + 1) k (s.during g (.error :: rest) new) =
    (.busError, s.during g rest (new ++ [.busWrite s.par.fgDevAddr [s.par.fgRegControl] false])) := by
  rw [pollLoop, State.during_par, State.during_regRead_write_error, ← hg]

theorem pollLoop_read_error (hg : g.lastReg = s.par.fgRegControl) :
    pollLoop (left + 1) k (s.during g (.ok [] :: .error :: rest) new) =
    (.busError, s.during g rest
      (new ++ [.busWrite s.par.fgDevAddr [s.par.fgRegControl] true, .busRead s.par.fgDevAddr 2 none])) := by
  rw [pollLoop, State.during_par, State.during_regRead_read_error, ← hg]

end

/-- What `FG_SEND_SUBCOMMAND` hands back at each end of its poll loop (R225, R226). -/
def State.answerPolls (s : State) (cmd : U16) : PollEnd → State
  | .busError => s.fail .transportError
  | .sentinel k => s.finish .ok (.polled .sentinel k)
  | .exhausted =>
    (s.log (.timeoutSubCommand cmd s.fg.lastCtrl)).finish .ok (.polled (.directValue s.fg.lastCtrl) fgPollMax)

/-- `s` when `cmd` is written and recorded and no poll is made yet (R224). -/
def State.subcommandSent (s : State) (cmd : U16) (bus : List BusReply) : State :=
  s.during { s.fg with lastReg := s.par.fgRegControl, lastSubCmd := cmd } bus
    [.busWrite s.par.fgDevAddr (s.par.fgRegControl :: le16 cmd) true, .delay s.par.fgTSettle]

theorem exec_fgSendSubcommand_sent (s : State) (cmd : U16) (x : List Byte) (bus : List BusReply) (e : PollEnd) (t : State)
    (hb : s.env.bus = .ok x :: bus) (h : pollLoop fgPollMax 1 (s.subcommandSent cmd bus) = (e, t)) :
    exec (.fgSendSubcommand cmd) s = .next (t.answerPolls cmd e) := by
  unfold State.subcommandSent at h
  rw [State.exec_of_listed hb]
  simp only [exec, execFgSendSubcommand, State.during_par, State.during_regWrite_ok, State.during_setLastSubCmd,
    List.nil_append, h]
  cases e <;> rfl

/-- Settles O48: the polls that do not see the sentinel, and then what ends the loop. -/
theorem subcommandPolls : Obligations.SubcommandPolls := by
  intro s cmd vs rest hvs p sent point after last
  have hloop (left : Nat) (hl : fgPollMax = vs.length + left) (bus : List BusReply) :
      pollLoop fgPollMax 1 (s.subcommandSent cmd (pollReplies vs ++ bus)) = pollLoop left (1 + vs.length)
        (s.during { s.fg with lastReg := p.fgRegControl, lastSubCmd := cmd, lastCtrl := last } bus
          ([sent true, .delay p.fgTSettle] ++ pollTrace p vs)) := by
    rw [hl]
    exact pollLoop_notSentinel s _ bus _ left 1 vs hvs rfl
  have hleft (h : vs.length < 100) : fgPollMax = vs.length + (99 - vs.length + 1) := by unfold fgPollMax; omega
  refine ⟨fun hl hb => ?sentinel, fun hl hb => ?exhausted, fun hb => ?unsent, fun hl hb => ?pointerFails,
    fun hl hb => ?readFails⟩
  case sentinel =>
    have h := (hloop _ (hleft hl) (pollReplies [(0xA5, 0xFF)] ++ rest)).trans
      ((pollLoop_succ _ _ _ _ _ _ _ rfl).trans (if_pos rfl))
    rw [pollReplies_append, List.append_assoc] at hb
    rw [exec_fgSendSubcommand_sent s cmd [] _ _ _ hb h, Nat.add_comm 1]
    simp only [after, pollTrace_append, List.append_assoc]
    rfl
  case exhausted =>
    rw [exec_fgSendSubcommand_sent s cmd [] _ _ _ hb (hloop 0 hl.symm rest)]
    simp only [State.answerPolls, State.during_log, after, List.append_assoc]
    rfl
  case unsent =>
    rw [State.exec_of_listed hb]
    simp only [exec, execFgSendSubcommand, State.during_par, State.during_regWrite_error]
    rfl
  case pointerFails =>
    have h := (hloop _ (hleft hl) (.error :: rest)).trans (pollLoop_pointer_error _ _ _ _ _ _ rfl)
    rw [exec_fgSendSubcommand_sent s cmd [] _ _ _ hb h]
    simp only [after, List.append_assoc]
    rfl
  case readFails =>
    have h := (hloop _ (hleft hl) (.ok [] :: .error :: rest)).trans (pollLoop_read_error _ _ _ _ _ _ rfl)
    rw [exec_fgSendSubcommand_sent s cmd [] _ _ _ hb h]
    simp only [after, List.append_assoc]
    rfl

/-! ### Extended memory: reading (R229 to R231) -/

/-- The buffer with `d` written over its front (R38). Irreducible: two states are compared without looking into their buffers. -/
@[irreducible] def overFront (buf : Vector Byte 32) (d : List Byte) : Vector Byte 32 :=
  Vector.ofFn fun i => if i.val < d.length then d.getD i.val 0 else buf[i]

theorem toList_overFront (buf : Vector Byte 32) (d : List Byte) (hd : d.length ≤ 32) :
    (overFront buf d).toList = d ++ buf.toList.drop d.length := by
  unfold overFront
  exact (State.reset.modFg fun g => { g with macBuf := buf }).setMacBuf_toList d hd

theorem toList_overFront_whole (buf : Vector Byte 32) (d : List Byte) (hd : d.length = 32) :
    (overFront buf d).toList = d := by
  rw [toList_overFront buf d hd.le, List.drop_of_length_le (by simp [hd]), List.append_nil]

namespace State

section
variable (s : State) (g : Fg) (rest : List BusReply) (new : List TraceEntry) (sub : U16) (n : Nat) (a b : Byte) (d : List Byte)

@[simp] theorem during_setMacBuf :
    (s.during g rest new).setMacBuf d = s.during { g with macBuf := overFront g.macBuf d } rest new := by
  unfold overFront
  rfl

/-- An extended-memory read answered at every transfer (R229 to R231). -/
theorem during_readExt_ok (hd : d.length = n) : (s.during g (readExtReplies a b d ++ rest) new).readExt sub n =
    (some d, s.during
      { g with macBuf := overFront g.macBuf d, lastReg := s.par.fgRegMacData, lastSubCmd := sub } rest
      (new ++ readExtTrace s.par g.lastChecksum sub n a b d)) := by
  have hset := s.during_setMacBuf { g with lastReg := s.par.fgRegMacData, lastSubCmd := sub } rest
    (new ++ readExtTrace s.par g.lastChecksum sub n a b d) d
  rw [readExt_ok _ sub n a b d rest hd rfl, ← hset]
  simp [during]

/-- An extended-memory read whose transfer number `j` fails (R229, R247). -/
theorem during_readExt_stopped (hd : d.length = n) (j : Nat) (hj : j < 7) :
    (s.during g ((readExtReplies a b d).take j ++ .error :: rest) new).readExt sub n =
    (none, s.during
      { g with
        lastReg := (readExtRegs s.par).getD j 0
        lastSubCmd := if j = 0 then g.lastSubCmd else sub } rest
      (new ++ stoppedAt (readExtTrace s.par g.lastChecksum sub n a b d) j)) := by
  rw [readExt_stopped _ sub n a b d rest j hj hd rfl]
  simp [during]

end

end State

/-- Settles O50: the refused lengths, then the seven transfers answered, and each of them failing. -/
theorem extendedRead : Obligations.ExtendedRead := by
  intro s sub n
  refine ⟨fun hn => ?refused, fun h1 h32 a b d rest hd => ?run⟩
  case refused =>
    simp only [exec, execFgReadExt, if_pos ((legalReadLength_eq_false_iff n).2 hn)]
    rfl
  case run =>
    have hl : ¬legalReadLength n = false := (legalReadLength_eq_false_iff n).not.2 (by omega)
    refine ⟨fun hb => ?answered, fun j hj hb => ?stopped⟩ <;> rw [State.exec_of_listed hb]
    case answered =>
      refine ⟨overFront s.fg.macBuf d, hd ▸ toList_overFront s.fg.macBuf d (hd.trans_le h32), ?_⟩
      simp only [exec, execFgReadExt, if_neg hl, s.during_readExt_ok s.fg rest [] sub n a b d hd]
      rw [State.during_finish, List.nil_append]
    case stopped =>
      simp only [exec, execFgReadExt, if_neg hl, s.during_readExt_stopped s.fg rest [] sub n a b d hd j hj]
      rfl

/-! ### The trace of an operation that ends at one of its transfers (R247) -/

/-- A bus transfer. -/
def TraceEntry.isTransfer : TraceEntry → Bool
  | .busWrite _ _ _ | .busRead _ _ _ => true
  | .linkWrite _ _ | .delay _ | .event _ _ | .log _ => false

/-- The number of bus transfers of a trace. -/
def transfers (l : List TraceEntry) : Nat := l.countP TraceEntry.isTransfer

theorem transfers_cons (e : TraceEntry) (l : List TraceEntry) :
    transfers (e :: l) = transfers l + if e.isTransfer then 1 else 0 := List.countP_cons

theorem stoppedAt_cons_zero (e : TraceEntry) (l r : List TraceEntry) (h : e.isTransfer = true) :
    stoppedAt (e :: l) 0 = stoppedAt (e :: r) 0 := by
  cases e with
  | busWrite _ _ _ | busRead _ _ _ => rfl
  | linkWrite _ _ | delay _ | event _ _ | log _ => cases h

/-- An entry in front of the transfer that fails stays as it is. -/
theorem stoppedAt_cons_add (e : TraceEntry) (l : List TraceEntry) (j : Nat) :
    stoppedAt (e :: l) (j + if e.isTransfer then 1 else 0) = e :: stoppedAt l j := by
  cases e <;> rfl

theorem stoppedAt_append_add (l r : List TraceEntry) (j : Nat) :
    stoppedAt (l ++ r) (transfers l + j) = l ++ stoppedAt r j := by
  induction l with
  | nil => rw [transfers, List.countP_nil, Nat.zero_add, List.nil_append, List.nil_append]
  | cons e l ih =>
    rw [transfers_cons, Nat.add_right_comm, List.cons_append, stoppedAt_cons_add, ih, List.cons_append]

theorem stoppedAt_append_of_lt (l r : List TraceEntry) (j : Nat) (hj : j < transfers l) :
    stoppedAt (l ++ r) j = stoppedAt l j := by
  induction l generalizing j with
  | nil => exact absurd hj (Nat.not_lt_zero j)
  | cons e l ih =>
    rw [transfers_cons] at hj
    rcases Nat.lt_or_ge j (if e.isTransfer then 1 else 0) with h | h
    · have he : e.isTransfer = true := by by_contra he; simp [he] at h
      have h0 : j = 0 := by simpa [he] using h
      rw [h0, List.cons_append, stoppedAt_cons_zero e _ l he]
    · obtain ⟨i, rfl⟩ := Nat.exists_eq_add_of_le' h
      rw [List.cons_append, stoppedAt_cons_add, stoppedAt_cons_add, ih i (by omega)]

theorem transfers_readExtTrace (p : Params) (last : Byte) (sub : U16) (n : Nat) (a b : Byte) (d : List Byte) :
    transfers (readExtTrace p last sub n a b d) = 7 := by
  unfold readExtTrace
  split <;> split <;> rfl

/-! ### The scalar of an extended write (R70, R233, R235) -/

theorem scalarBytes_eq (data : U32) (q : Nat) :
    scalarBytes data q = (List.range q).map fun i => BitVec.ofNat 8 (data.toNat / 256 ^ (q - 1 - i)) := by
  refine List.map_congr_left fun i _ => BitVec.eq_of_toNat_eq ?_
  have h256 : 256 ^ (q - 1 - i) = 2 ^ (8 * (q - 1 - i)) := by rw [Nat.pow_mul]
  rw [BitVec.toNat_setWidth, BitVec.toNat_ushiftRight, BitVec.toNat_ofNat, Nat.shiftRight_eq_div_pow, h256]

theorem length_scalarBytes (data : U32) (q : Nat) : (scalarBytes data q).length = q := by simp [scalarBytes]

/-- A byte below the `q`-th does not see the bytes above it. -/
theorem div_pow_mod_congr {m n q k : Nat} (hk : k < q) (h : m % 2 ^ (8 * q) = n % 2 ^ (8 * q)) :
    m / 256 ^ k % 256 = n / 256 ^ k % 256 := by
  have hdvd : 256 ^ k * 256 ∣ 2 ^ (8 * q) := by
    rw [Nat.pow_mul, ← Nat.pow_succ]
    exact Nat.pow_dvd_pow 256 hk
  rw [← Nat.mod_mul_right_div_self, ← Nat.mod_mul_right_div_self, ← Nat.mod_mod_of_dvd m hdvd, h, Nat.mod_mod_of_dvd n hdvd]

/-- Bits of `data` above `q` bytes are ignored (R233). -/
theorem scalarBytes_congr {data data' : U32} {q : Nat} (h : data'.toNat % 2 ^ (8 * q) = data.toNat % 2 ^ (8 * q)) :
    scalarBytes data' q = scalarBytes data q := by
  rw [scalarBytes_eq, scalarBytes_eq]
  refine List.map_congr_left fun i hi => BitVec.eq_of_toNat_eq ?_
  have hk : q - 1 - i < q := by have := List.mem_range.1 hi; omega
  exact div_pow_mod_congr hk h

theorem legalQuantity_iff (q : Nat) : legalQuantity q = true ↔ q = 1 ∨ q = 2 ∨ q = 4 := by
  simp [legalQuantity, or_assoc]

/-- Settles O51: the refusal, and that the scalar is all an extended write takes from `data`. -/
theorem unsupportedQuantity : Obligations.UnsupportedQuantity := by
  intro s sub data q preserve
  refine ⟨fun h1 h2 h4 => ?refused, fun data' h => ?highBits⟩
  case refused =>
    have hq : legalQuantity q = false := by
      rw [Bool.eq_false_iff, Ne, legalQuantity_iff]
      omega
    simp only [exec, execFgWriteExt, if_pos hq]
    rfl
  case highBits => simp only [exec, execFgWriteExt, scalarBytes_congr h]

/-! ### The checksum (R237, R238) -/

theorem toNat_sum_bytes (pay : List Byte) : pay.sum.toNat = (pay.map BitVec.toNat).sum % 256 := by
  induction pay with
  | nil => rfl
  | cons b pay ih => rw [List.sum_cons, BitVec.toNat_add, ih, List.map_cons, List.sum_cons, Nat.add_mod_mod]

theorem toNat_checksumBase (pay : List Byte) : (checksumBase pay).toNat = 255 - (pay.map BitVec.toNat).sum % 256 := by
  have h := toNat_sum_bytes pay
  unfold checksumBase
  bv_omega

/-- Settles O54: the base from the byte sum, then the corrections with and without the special range. -/
theorem checksumFormula : Obligations.ChecksumFormula := by
  intro p sub pay base
  have hbase : (checksumBase pay).toNat = base := toNat_checksumBase pay
  have hle : base ≤ 255 := Nat.sub_le _ _
  refine ⟨hbase, ?_⟩
  unfold fgChecksum fgCsOffset fgCsExtra
  split <;> bv_omega

/-! ### Extended memory: writing (R232 to R240) -/

/-- The gauge's state with the scalar placed (R235). -/
def Fg.withScalar (g : Fg) (data : U32) (q : Nat) : Fg :=
  { g with macBuf := overFront g.macBuf (scalarBytes data q) }

/-- One register write that succeeds, and its settle delay (R64). -/
def putTrace (p : Params) (reg : Byte) (d : List Byte) : List TraceEntry :=
  [.busWrite p.fgDevAddr (reg :: d) true, .delay p.fgTSettle]

/-- The number of writes header and payload take (R236). -/
def payloadWrites (p : Params) : Nat := if p.fgRegMacData.toNat = p.fgRegMacCmd.toNat + 2 then 1 else 2

/-- The registers they are for. -/
def payloadRegs (p : Params) : List Byte :=
  if p.fgRegMacData.toNat = p.fgRegMacCmd.toNat + 2 then [p.fgRegMacCmd] else [p.fgRegMacCmd, p.fgRegMacData]

/-- Their trace. -/
def payloadTrace (p : Params) (sub : U16) (pay : List Byte) : List TraceEntry :=
  if p.fgRegMacData.toNat = p.fgRegMacCmd.toNat + 2 then putTrace p p.fgRegMacCmd (le16 sub ++ pay)
  else putTrace p p.fgRegMacCmd (le16 sub) ++ putTrace p p.fgRegMacData pay

theorem length_payloadRegs (p : Params) : (payloadRegs p).length = payloadWrites p := by
  unfold payloadRegs payloadWrites
  split <;> rfl

theorem transfers_payloadTrace (p : Params) (sub : U16) (pay : List Byte) :
    transfers (payloadTrace p sub pay) = payloadWrites p := by
  unfold payloadTrace payloadWrites
  split <;> rfl

/-- The trace of the checksum and length writes (R223, R237 to R239). -/
def sumLenTrace (p : Params) (sum len : Byte) : List TraceEntry :=
  putTrace p p.fgRegMacSum [sum] ++ putTrace p p.fgRegMacLen [len]

namespace State

section
variable (s : State) (g : Fg) (rest : List BusReply) (new : List TraceEntry) (sub : U16) (pay : List Byte)

theorem during_writePayload_ok :
    (s.during g (List.replicate (payloadWrites s.par) (.ok []) ++ rest) new).writePayload sub pay =
    (true, s.during { g with lastReg := (payloadRegs s.par).getLastD 0 } rest (new ++ payloadTrace s.par sub pay)) := by
  by_cases h : s.par.fgRegMacData.toNat = s.par.fgRegMacCmd.toNat + 2 <;>
    simp [writePayload, payloadWrites, payloadRegs, payloadTrace, putTrace, h, List.replicate_succ]

theorem during_writePayload_stopped (j : Nat) (hj : j < payloadWrites s.par) :
    (s.during g (List.replicate j (.ok []) ++ .error :: rest) new).writePayload sub pay =
    (false, s.during { g with lastReg := (payloadRegs s.par).getD j 0 } rest
      (new ++ stoppedAt (payloadTrace s.par sub pay) j)) := by
  unfold payloadWrites at hj
  by_cases h : s.par.fgRegMacData.toNat = s.par.fgRegMacCmd.toNat + 2
  · obtain rfl : j = 0 := by simpa [h] using hj
    simp [writePayload, payloadRegs, payloadTrace, putTrace, stoppedAt, h]
  · have hj : j = 0 ∨ j = 1 := by simp [h] at hj; omega
    rcases hj with rfl | rfl <;>
      simp [writePayload, payloadRegs, payloadTrace, putTrace, stoppedAt, h]

theorem during_sumLenWrite_ok (sum len : Byte) :
    (s.during g (.ok [] :: .ok [] :: rest) new).sumLenWrite sum len =
    (true, s.during { g with lastReg := s.par.fgRegMacLen, lastChecksum := sum } rest (new ++ sumLenTrace s.par sum len)) := by
  simp [sumLenWrite, sumLenTrace, putTrace]

theorem during_sumLenWrite_stopped (sum len : Byte) (j : Nat) (hj : j < 2) :
    (s.during g (List.replicate j (.ok []) ++ .error :: rest) new).sumLenWrite sum len =
    (false, s.during { g with lastReg := [s.par.fgRegMacSum, s.par.fgRegMacLen].getD j 0, lastChecksum := sum } rest
      (new ++ stoppedAt (sumLenTrace s.par sum len) j)) := by
  have hj : j = 0 ∨ j = 1 := by omega
  rcases hj with rfl | rfl <;> simp [sumLenWrite, sumLenTrace, putTrace, stoppedAt]

end

end State

/-- The trace of an extended write from the payload on (R236 to R240). -/
def commitTrace (p : Params) (sub : U16) (pay : List Byte) (a b : Byte) (d : List Byte) : List TraceEntry :=
  payloadTrace p sub pay ++ putTrace p p.fgRegMacSum [fgChecksum p sub pay] ++ putTrace p p.fgRegMacLen [lengthByte p] ++
    readExtTrace p (fgChecksum p sub pay) sub 32 a b d ++ if d = pay then [] else [.log (.confirmMismatch sub)]

/-- Its three parts: payload, checksum and length, confirming read. -/
theorem commitTrace_eq (p : Params) (sub : U16) (pay : List Byte) (a b : Byte) (d : List Byte) :
    commitTrace p sub pay a b d = payloadTrace p sub pay ++ (sumLenTrace p (fgChecksum p sub pay) (lengthByte p) ++
      (readExtTrace p (fgChecksum p sub pay) sub 32 a b d ++ if d = pay then [] else [.log (.confirmMismatch sub)])) := by
  simp only [commitTrace, sumLenTrace, List.append_assoc]

/-- The answers to its transfers, all of them granted. -/
def commitReplies (p : Params) (a b : Byte) (d : List Byte) : List BusReply :=
  List.replicate (payloadWrites p + 2) (.ok []) ++ readExtReplies a b d

theorem commitReplies_eq (p : Params) (a b : Byte) (d : List Byte) : commitReplies p a b d =
    List.replicate (payloadWrites p) (.ok []) ++ (List.replicate 2 (.ok []) ++ readExtReplies a b d) := by
  rw [commitReplies, List.replicate_add, List.append_assoc]

theorem take_replicate_append_of_le {α : Type} (n j : Nat) (x : α) (r : List α) (hj : j ≤ n) :
    (List.replicate n x ++ r).take j = List.replicate j x := by
  rw [List.take_append_of_le_length (by simpa using hj), List.take_replicate, Nat.min_eq_left hj]

theorem take_replicate_append_add {α : Type} (n i : Nat) (x : α) (r : List α) :
    (List.replicate n x ++ r).take (n + i) = List.replicate n x ++ r.take i := by
  have h := List.take_length_add_append (l₁ := List.replicate n x) (l₂ := r) i
  rwa [List.length_replicate] at h

/-- The registers its transfers are for. -/
def commitRegs (p : Params) : List Byte := payloadRegs p ++ [p.fgRegMacSum, p.fgRegMacLen] ++ readExtRegs p

namespace State

section
variable (s : State) (g : Fg) (rest : List BusReply) (new : List TraceEntry) (sub : U16) (a b : Byte) (d : List Byte)

theorem during_commitExt_ok (hd : d.length = 32) :
    (s.during g (commitReplies s.par a b d ++ rest) new).commitExt sub =
    (if d = g.macBuf.toList then .ok else .protocolError, s.during
      { g with
        macBuf := overFront g.macBuf d
        lastReg := s.par.fgRegMacData
        lastSubCmd := sub
        lastChecksum := fgChecksum s.par sub g.macBuf.toList } rest
      (new ++ commitTrace s.par sub g.macBuf.toList a b d)) := by
  have hbus : commitReplies s.par a b d ++ rest = List.replicate (payloadWrites s.par) (.ok []) ++
      .ok [] :: .ok [] :: (readExtReplies a b d ++ rest) := by
    rw [commitReplies_eq, List.append_assoc]
    rfl
  rw [hbus, commitTrace_eq]
  simp only [commitExt, during_fg, during_writePayload_ok, during_setLastSubCmd, during_par, lengthRegister_eq,
    during_sumLenWrite_ok, fgMacLen, during_readExt_ok _ _ _ _ _ _ _ _ _ hd]
  by_cases h : d = g.macBuf.toList <;> simp [h]

/-- The header or payload write fails (R236, R247): neither sub-command nor checksum is recorded. -/
theorem during_commitExt_payload_stopped (j : Nat) (hj : j < payloadWrites s.par) :
    (s.during g (List.replicate j (.ok []) ++ .error :: rest) new).commitExt sub =
    (.transportError, s.during { g with lastReg := (payloadRegs s.par).getD j 0 } rest
      (new ++ stoppedAt (payloadTrace s.par sub g.macBuf.toList) j)) := by
  simp only [commitExt, during_fg, during_writePayload_stopped _ _ _ _ _ _ j hj]

/-- The checksum or length write fails (R223, R247): the new checksum stays recorded. -/
theorem during_commitExt_sumLen_stopped (i : Nat) (hi : i < 2) :
    (s.during g (List.replicate (payloadWrites s.par) (.ok []) ++ (List.replicate i (.ok []) ++ .error :: rest)) new).commitExt
      sub =
    (.transportError, s.during
      { g with
        lastReg := [s.par.fgRegMacSum, s.par.fgRegMacLen].getD i 0
        lastSubCmd := sub
        lastChecksum := fgChecksum s.par sub g.macBuf.toList } rest
      (new ++ payloadTrace s.par sub g.macBuf.toList ++
        stoppedAt (sumLenTrace s.par (fgChecksum s.par sub g.macBuf.toList) (lengthByte s.par)) i)) := by
  simp only [commitExt, during_fg, during_writePayload_ok, during_setLastSubCmd, during_par, lengthRegister_eq,
    during_sumLenWrite_stopped _ _ _ _ _ _ i hi]

/-- The confirming read fails (R240, R247): the payload stays in the buffer. -/
theorem during_commitExt_confirm_stopped (hd : d.length = 32) (k : Nat) (hk : k < 7) :
    (s.during g (List.replicate (payloadWrites s.par) (.ok []) ++
      .ok [] :: .ok [] :: ((readExtReplies a b d).take k ++ .error :: rest)) new).commitExt sub =
    (.transportError, s.during
      { g with
        lastReg := (readExtRegs s.par).getD k 0
        lastSubCmd := sub
        lastChecksum := fgChecksum s.par sub g.macBuf.toList } rest
      (new ++ payloadTrace s.par sub g.macBuf.toList ++
        sumLenTrace s.par (fgChecksum s.par sub g.macBuf.toList) (lengthByte s.par) ++
        stoppedAt (readExtTrace s.par (fgChecksum s.par sub g.macBuf.toList) sub 32 a b d) k)) := by
  simp only [commitExt, during_fg, during_writePayload_ok, during_setLastSubCmd, during_par, lengthRegister_eq,
    during_sumLenWrite_ok, fgMacLen, during_readExt_stopped _ _ _ _ _ _ _ _ _ hd k hk, ite_self]

/-- An extended write whose transfer number `j`, counted from the payload, fails (R247). -/
theorem during_commitExt_stopped (hd : d.length = 32) (j : Nat) (hj : j < payloadWrites s.par + 9) :
    (s.during g ((commitReplies s.par a b d).take j ++ .error :: rest) new).commitExt sub =
    (.transportError, s.during
      { g with
        lastReg := (commitRegs s.par).getD j 0
        lastSubCmd := if j < payloadWrites s.par then g.lastSubCmd else sub
        lastChecksum := if j < payloadWrites s.par then g.lastChecksum else fgChecksum s.par sub g.macBuf.toList } rest
      (new ++ stoppedAt (commitTrace s.par sub g.macBuf.toList a b d) j)) := by
  rw [commitTrace_eq, commitReplies_eq, commitRegs, List.append_assoc]
  have hw := transfers_payloadTrace s.par sub g.macBuf.toList
  have hl := length_payloadRegs s.par
  by_cases hpayload : j < payloadWrites s.par
  · rw [take_replicate_append_of_le _ _ _ _ hpayload.le, during_commitExt_payload_stopped _ _ _ _ _ j hpayload,
      stoppedAt_append_of_lt _ _ _ (by omega), List.getD_append _ _ _ _ (by omega), if_pos hpayload, if_pos hpayload]
  obtain ⟨i, rfl⟩ := Nat.exists_eq_add_of_le (Nat.le_of_not_lt hpayload)
  rw [if_neg hpayload, if_neg hpayload, take_replicate_append_add, List.append_assoc,
    List.getD_append_right _ _ _ _ (by omega), hl, Nat.add_sub_cancel_left, ← hw, stoppedAt_append_add, hw]
  by_cases hsum : i < 2
  · rw [take_replicate_append_of_le _ _ _ _ hsum.le, during_commitExt_sumLen_stopped _ _ _ _ _ i hsum,
      stoppedAt_append_of_lt _ _ _ hsum, List.getD_append _ _ _ _ hsum, List.append_assoc]
  obtain ⟨k, rfl⟩ := Nat.exists_eq_add_of_le (Nat.le_of_not_lt hsum)
  have hk : k < 7 := by omega
  have h2 : transfers (sumLenTrace s.par (fgChecksum s.par sub g.macBuf.toList) (lengthByte s.par)) = 2 := rfl
  have hbus : List.replicate 2 (BusReply.ok []) ++ (readExtReplies a b d).take k ++ .error :: rest =
      .ok [] :: .ok [] :: ((readExtReplies a b d).take k ++ .error :: rest) := rfl
  have hreg : ([s.par.fgRegMacSum, s.par.fgRegMacLen] ++ readExtRegs s.par).getD (2 + k) 0 = (readExtRegs s.par).getD k 0 := by
    rw [List.getD_append_right _ _ _ _ (Nat.le_add_right 2 k)]
    exact congrArg (List.getD _ · 0) (Nat.add_sub_cancel_left 2 k)
  rw [take_replicate_append_add, hbus, hreg, during_commitExt_confirm_stopped _ _ _ _ _ a b d hd k hk, ← h2,
    stoppedAt_append_add, stoppedAt_append_of_lt _ _ _ (by rwa [transfers_readExtTrace]), List.append_assoc, List.append_assoc]

end

/-! ### The read in front (R234) -/

section
variable (s : State) (rest : List BusReply) (sub : U16) (a b : Byte) (d : List Byte)

theorem preRead_ok (hd : d.length = 32) (hb : s.env.bus = readExtReplies a b d ++ rest) : s.preRead sub true =
    (true, s.during
      { s.fg with macBuf := overFront s.fg.macBuf d, lastReg := s.par.fgRegMacData, lastSubCmd := sub } rest
      (readExtTrace s.par s.fg.lastChecksum sub 32 a b d)) := by
  refine (congrArg (preRead · sub true) (eq_during hb)).trans ?_
  simp only [preRead, if_true, fgMacLen, during_readExt_ok _ _ _ _ _ _ _ _ _ hd, List.nil_append]

theorem preRead_stopped (hd : d.length = 32) (j : Nat) (hj : j < 7)
    (hb : s.env.bus = (readExtReplies a b d).take j ++ .error :: rest) : s.preRead sub true =
    (false, s.during
      { s.fg with
        lastReg := (readExtRegs s.par).getD j 0
        lastSubCmd := if j = 0 then s.fg.lastSubCmd else sub } rest
      (stoppedAt (readExtTrace s.par s.fg.lastChecksum sub 32 a b d) j)) := by
  refine (congrArg (preRead · sub true) (eq_during hb)).trans ?_
  simp only [preRead, if_true, fgMacLen, during_readExt_stopped _ _ _ _ _ _ _ _ _ hd j hj, List.nil_append]

end

/-! ### `FG_WRITE_EXT` (R232 to R240) -/

section
variable (s : State) (sub : U16) (data : U32) (q : Nat) (preserve : Bool) (g : Fg) (rest : List BusReply) (new : List TraceEntry)
  (hq : legalQuantity q = true)

include hq in
theorem exec_fgWriteExt_of_preRead (bus : List BusReply) (hpre : s.preRead sub preserve = (true, s.during g bus new)) :
    exec (.fgWriteExt sub data q preserve) s =
    .next (((s.during (g.withScalar data q) bus new).commitExt sub).2.fail
      ((s.during (g.withScalar data q) bus new).commitExt sub).1) := by
  simp only [exec, execFgWriteExt, if_neg (ne_false_of_eq_true hq), hpre, during_setMacBuf]
  rfl

include hq in
theorem exec_fgWriteExt_of_preRead_failed (hpre : s.preRead sub preserve = (false, s.during g rest new)) :
    exec (.fgWriteExt sub data q preserve) s = .next { s with
      fg := g, env := { s.env with bus := rest }, out := s.out ++ new, result := some ⟨.transportError, .none⟩ } := by
  simp only [exec, execFgWriteExt, if_neg (ne_false_of_eq_true hq), hpre, fail, during_finish]

variable (a b : Byte) (d : List Byte) (hd : d.length = 32)

include hq hd in
/-- The payload and everything behind it answered (R236 to R240). -/
theorem exec_fgWriteExt_answered
    (hpre : s.preRead sub preserve = (true, s.during g (commitReplies s.par a b d ++ rest) new)) :
    exec (.fgWriteExt sub data q preserve) s = .next { s with
      fg := { g with
        macBuf := overFront (g.withScalar data q).macBuf d
        lastReg := s.par.fgRegMacData
        lastSubCmd := sub
        lastChecksum := fgChecksum s.par sub (g.withScalar data q).macBuf.toList }
      env := { s.env with bus := rest }
      out := s.out ++ (new ++ commitTrace s.par sub (g.withScalar data q).macBuf.toList a b d)
      result := some ⟨if d = (g.withScalar data q).macBuf.toList then .ok else .protocolError, .none⟩ } := by
  rw [exec_fgWriteExt_of_preRead s sub data q preserve g new hq _ hpre, during_commitExt_ok _ _ _ _ _ a b d hd, fail,
    during_finish]
  rfl

include hq hd in
/-- Transfer number `j` from the payload on fails (R247). -/
theorem exec_fgWriteExt_stopped (j : Nat) (hj : j < payloadWrites s.par + 9)
    (hpre : s.preRead sub preserve = (true, s.during g ((commitReplies s.par a b d).take j ++ .error :: rest) new)) :
    exec (.fgWriteExt sub data q preserve) s = .next { s with
      fg := { g.withScalar data q with
        lastReg := (commitRegs s.par).getD j 0
        lastSubCmd := if j < payloadWrites s.par then g.lastSubCmd else sub
        lastChecksum := if j < payloadWrites s.par then g.lastChecksum
          else fgChecksum s.par sub (g.withScalar data q).macBuf.toList }
      env := { s.env with bus := rest }
      out := s.out ++ (new ++ stoppedAt (commitTrace s.par sub (g.withScalar data q).macBuf.toList a b d) j)
      result := some ⟨.transportError, .none⟩ } := by
  rw [exec_fgWriteExt_of_preRead s sub data q preserve g new hq _ hpre, during_commitExt_stopped _ _ _ _ _ a b d hd j hj,
    fail, during_finish]
  rfl

end

end State

/-- Settles O52: what comes before the payload, and from there `commitExt`. -/
theorem extendedWrite : Obligations.ExtendedWrite := by
  intro s sub data q a b d rest hq hd p scalar head adjacent put payWrites regs commit replies after rule
  have hl : legalQuantity q = true := (legalQuantity_iff q).2 hq
  have hrule (preserve : Bool) (buf : Vector Byte 32) (reg : Byte) (cmd : U16) (before : List BusReply) (new : List TraceEntry)
      (hpre : ∀ bus, s.env.bus = before ++ bus → s.preRead sub preserve =
        (true, s.during { s.fg with macBuf := buf, lastReg := reg, lastSubCmd := cmd } bus new)) :
      rule preserve (scalar ++ buf.toList.drop q) cmd before new := by
    have hpay : (overFront buf (scalarBytes data q)).toList = scalar ++ buf.toList.drop q := by
      rw [toList_overFront _ _ (by rw [length_scalarBytes]; omega), length_scalarBytes, scalarBytes_eq]
    rw [← hpay]
    refine ⟨fun hb => ⟨overFront (overFront buf (scalarBytes data q)) d, toList_overFront_whole _ d hd, ?answered⟩,
      fun j hj hb => ⟨_, rfl, ?stopped⟩⟩ <;> rw [List.append_assoc] at hb
    case answered =>
      exact s.exec_fgWriteExt_answered sub data q preserve { s.fg with macBuf := buf, lastReg := reg, lastSubCmd := cmd }
        rest new hl a b d hd (hpre _ hb)
    case stopped =>
      exact s.exec_fgWriteExt_stopped sub data q preserve { s.fg with macBuf := buf, lastReg := reg, lastSubCmd := cmd }
        rest new hl a b d hd j hj (hpre _ hb)
  refine ⟨hrule false s.fg.macBuf s.fg.lastReg s.fg.lastSubCmd [] [] fun bus hb => ?plain,
    fun a' b' d' hd' => ⟨?preserved, fun j hj hb => ?readFails⟩⟩
  case plain => exact congrArg (Prod.mk true) (State.eq_during hb)
  case preserved =>
    have h := hrule true (overFront s.fg.macBuf d') p.fgRegMacData sub (readExtReplies a' b' d')
      (readExtTrace p s.fg.lastChecksum sub 32 a' b' d') fun bus hb => s.preRead_ok bus sub a' b' d' hd' hb
    rwa [toList_overFront_whole _ d' hd'] at h
  case readFails =>
    exact s.exec_fgWriteExt_of_preRead_failed sub data q true _ rest _ hl (s.preRead_stopped rest sub a' b' d' hd' j hj hb)

/-! ### Mode commands (R241 to R245) -/

/-- The trace of the words of a mode command, each written to the control register (R245). -/
def modeTrace (p : Params) (words : List U16) : List TraceEntry :=
  words.flatMap fun w => [.busWrite p.fgDevAddr (p.fgRegControl :: le16 w) true, .delay p.fgTSettle]

/-- The gauge's state when those words are written. -/
def Fg.afterWords (g : Fg) (p : Params) (words : List U16) : Fg := { g with
  lastReg := if words = [] then g.lastReg else p.fgRegControl
  lastSubCmd := words.getLastD g.lastSubCmd }

theorem Fg.afterWords_cons (g : Fg) (p : Params) (w : U16) (words : List U16) : g.afterWords p (w :: words) =
    Fg.afterWords { g with lastReg := p.fgRegControl, lastSubCmd := w } p words := by
  simp only [Fg.afterWords, List.getLastD_cons, ite_self, reduceCtorEq, if_false]

section
variable (s : State) (g : Fg) (new : List TraceEntry) (rest : List BusReply)

/-- Words whose writes are answered go out one after another, each recorded, and the rest of the sequence follows (R245). -/
theorem writeModeWords_append (done left : List U16) :
    writeModeWords (done ++ left) (s.during g (List.replicate done.length (.ok []) ++ rest) new) =
    writeModeWords left (s.during (g.afterWords s.par done) rest (new ++ modeTrace s.par done)) := by
  induction done generalizing g new with
  | nil => simp [modeTrace, Fg.afterWords]
  | cons w done ih =>
    rw [List.length_cons, List.replicate_succ, List.cons_append, List.cons_append, writeModeWords, State.during_par,
      State.during_regWrite_ok, Fg.afterWords_cons]
    simp only [State.during_setLastSubCmd, ih]
    simp [modeTrace]

/-- Every word answered (R245): the long delay comes last. -/
theorem modeCommand_answered (words : List U16) :
    modeCommand words (s.during g (List.replicate words.length (.ok []) ++ rest) new) =
    (s.during (g.afterWords s.par words) rest (new ++ modeTrace s.par words ++ [.delay s.par.fgTMode])).finish .ok .none := by
  have h := writeModeWords_append s g new rest words []
  rw [List.append_nil, writeModeWords] at h
  rw [modeCommand, h]
  simp only [State.during_par, State.during_delay]

/-- A word whose write fails (R245): the words before it stand, and there is no long delay. -/
theorem modeCommand_stopped (done : List U16) (w : U16) (left : List U16) :
    modeCommand (done ++ w :: left) (s.during g (List.replicate done.length (.ok []) ++ .error :: rest) new) =
    (s.during { g.afterWords s.par done with lastReg := s.par.fgRegControl } rest
      (new ++ modeTrace s.par done ++ [.busWrite s.par.fgDevAddr (s.par.fgRegControl :: le16 w) false])).fail
        .transportError := by
  rw [modeCommand, writeModeWords_append, writeModeWords, State.during_par, State.during_regWrite_error]

end

/-- Settles O53: each command is `modeCommand` of its own sequence. -/
theorem modeCommandsWriteTheirWords : Obligations.ModeCommandsWriteTheirWords := by
  intro s rest p sent after rule
  have hrule (i : Instr) (ws : List U16)
      (hi : ∀ bus, exec i (s.during s.fg bus []) = .next (modeCommand ws (s.during s.fg bus []))) : rule i ws := by
    refine ⟨fun hb => ?answered, fun done w left hws hb => ?stopped⟩
    case answered =>
      rw [State.exec_of_listed hb, hi, modeCommand_answered]
      simp only [after, List.append_assoc]
      rfl
    case stopped =>
      rw [State.exec_of_listed hb, hi, hws, modeCommand_stopped]
      simp only [after, List.append_assoc]
      rfl
  exact ⟨hrule _ _ fun _ => rfl, hrule _ _ fun _ => rfl, hrule _ _ fun _ => rfl, hrule _ _ fun _ => rfl⟩

end Sys2Proof.Machine

/-! Power-on (70_reset_and_hazards.md R310): what it sets, and that nothing runs until the host asks. -/

namespace Sys2Proof.Machine

open Sys2Proof

/-! ### What power-on sets (R46) -/

namespace State

@[simp] theorem powerOn_mux (c : Config) : (powerOn c).mux = none := rfl

@[simp] theorem powerOn_fg (c : Config) : (powerOn c).fg = fgAtReset := rfl

@[simp] theorem powerOn_requests (c : Config) : (powerOn c).requests = [] := rfl

@[simp] theorem fgAtReset_macBuf : fgAtReset.macBuf = Vector.replicate 32 0 := rfl

@[simp] theorem fgAtReset_lastReg : fgAtReset.lastReg = 0 := rfl

@[simp] theorem fgAtReset_lastSubCmd : fgAtReset.lastSubCmd = 0 := rfl

@[simp] theorem fgAtReset_lastChecksum : fgAtReset.lastChecksum = 0 := rfl

@[simp] theorem fgAtReset_lastCtrl : fgAtReset.lastCtrl = 0 := rfl

end State

/-! ### Waiting for a request -/

/-- Nothing is fetched of the block's own accord: any state with an empty request list steps to itself. -/
theorem step_of_no_requests {s : State} (h : s.requests = []) : step s = .next s := by
  simp only [step, h]

/-! ### R310 -/

/-- Settles O6: the FG unit starts as `fgAtReset`, and no request stands at power-on, so a step waits. -/
theorem powerOnState : Obligations.PowerOnState := by
  refine ⟨⟨Config.atReset, rfl⟩, fun c => ?powerOn⟩
  case powerOn =>
    have hwaits : step (State.powerOn c) = .next (State.powerOn c) := step_of_no_requests (State.powerOn_requests c)
    simp [hwaits]

end Sys2Proof.Machine

/-! The request layout (30_encoding.md R112; log 2): each reader takes back what its writer wrote, whatever follows, and so the
decoder takes back what the encoder wrote. -/

namespace Sys2Proof

/-! ### Readers take back what the writers wrote -/

section
variable (r : List Byte)

theorem readNat_writeNat (n : Nat) (h : natFits n = true) : readNat (writeNat n ++ r) = .ok (n, r) := by
  have hn : n < 2 ^ 32 := of_decide_eq_true h
  have hsum : n % 256 + 256 * (n / 256 % 256 + 256 * (n / 65536 % 256 + 256 * (n / 16777216 % 256))) = n := by omega
  exact congrArg (fun k => Except.ok (k, r)) hsum

theorem readU16_writeU16 (v : U16) : readU16 (writeU16 v ++ r) = .ok (v, r) := by
  have hsum : v.toNat % 256 + 256 * (v.toNat / 256 % 256) = v.toNat := by omega
  refine congrArg (fun k => Except.ok (k, r)) ?_
  exact (congrArg (BitVec.ofNat 16) hsum).trans (BitVec.eq_of_toNat_eq (by simp))

theorem readU32_writeNat (v : U32) : readU32 (writeNat v.toNat ++ r) = .ok (v, r) := by
  rw [readU32, readNat_writeNat r v.toNat (decide_eq_true v.isLt)]
  simp

theorem readBit_writeBit (b : Bool) : readBit (writeBit b ++ r) = .ok (b, r) := by
  cases b <;> rfl

theorem readBytes_writeBytes (s : List Byte) (h : bytesFit s = true) : readBytes (writeBytes s ++ r) = .ok (s, r) := by
  rw [readBytes, writeBytes, List.append_assoc, readNat_writeNat (s ++ r) s.length h]
  simp

theorem readType_writeType (t : TypeOperand) : readType (writeType t ++ r) = .ok (t, r) := by
  cases t with
  | legal t => cases t <;> rfl
  | illegal => rfl

theorem readWanted_writeWanted (w : WantedOperand) : readWanted (writeWanted w ++ r) = .ok (w, r) := by
  cases w with
  | none => rfl
  | type t => cases t <;> rfl
  | illegal => rfl

/-- A wanted id is no 0xFF, which stands for `Any`. -/
theorem readFilter_writeFilter (w : AddrFilter) (h : w.fits = true) : readFilter (writeFilter w ++ r) = .ok (w, r) := by
  cases w with
  | any => rfl
  | id n =>
    have hn : n < 255 := of_decide_eq_true h
    have hmod : (BitVec.ofNat 8 n).toNat = n := Nat.mod_eq_of_lt (by omega)
    have hne : BitVec.ofNat 8 n ≠ 0xFF := fun e => by
      have := hmod.symm.trans (congrArg BitVec.toNat e)
      simp at this
      omega
    simp only [writeFilter, List.cons_append, List.nil_append, readFilter, if_neg hne, hmod]

end

/-! ### The decoder takes back what the encoder wrote -/

/-- A frame row's control byte gives its type and P/F bit back (R93). -/
theorem decodeFrameRow_controlByte (t : FrameType) (a : Nat) (pf : Bool) (info tail : List Byte)
    (ha : natFits a = true) (hinfo : bytesFit info = true) :
    decodeFrameRow (controlByte t pf) (writeNat a ++ writeBytes info ++ tail) = .ok (frameInstr t a pf info) := by
  obtain ⟨htype, hpf, -⟩ := Machine.controlByte_fields t pf
  rw [decodeFrameRow, htype, hpf, List.append_assoc]
  simp only [readNat_writeNat _ a ha, readBytes_writeBytes _ info hinfo, bind, Except.bind]

/-- The frame rows: the control byte, then channel id and information (R93). -/
theorem decode_encode_frameInstr (t : FrameType) (a : Nat) (pf : Bool) (info tail : List Byte)
    (h : (natFits a && bytesFit info) = true) :
    decode .frame (controlByte t pf :: (writeNat a ++ writeBytes info) ++ tail) = .ok (frameInstr t a pf info) := by
  rw [Bool.and_eq_true] at h
  exact decodeFrameRow_controlByte t a pf info tail h.1 h.2

/-- Settles O1: one reader after another takes its operand back. -/
theorem decodeInvertsEncode : Obligations.DecodeInvertsEncode := by
  intro i tail h
  cases i with
  | sabm a pf info => exact decode_encode_frameInstr .sabm a pf info tail h
  | ua a pf info => exact decode_encode_frameInstr .ua a pf info tail h
  | dm a pf info => exact decode_encode_frameInstr .dm a pf info tail h
  | disc a pf info => exact decode_encode_frameInstr .disc a pf info tail h
  | uih a pf info => exact decode_encode_frameInstr .uih a pf info tail h
  | ui a pf info => exact decode_encode_frameInstr .ui a pf info tail h
  | muxEnable | muxDisable | fgSumlenRead | fgReadStd | fgSeal | fgUnseal | fgEnterCfgUpdate | fgReset => rfl
  | encode | parse | openChannel | closeChannel | write | onBytesReceived | channelRead | sendFrame | fgRegRead
  | fgRegWrite | fgSumlenWrite | fgSendSubcommand | fgReadExt | fgWriteExt =>
    simp only [Instr.wf, Bool.and_eq_true] at h
    simp [decode, decodeCommand, encode, Instr.selector, encodeOperands, Instr.port, readU8, bind, Except.bind,
      readNat_writeNat, readU16_writeU16, readU32_writeNat, readBit_writeBit, readBytes_writeBytes, readType_writeType,
      readWanted_writeWanted, readFilter_writeFilter, h]

end Sys2Proof

/-! Stepping (10_state.md R21, R45; 30_encoding.md R112), and the operands U16 leaves outside their sets. -/

namespace Sys2Proof.Machine

open Sys2Proof

/-! ### The words of the opcode table and the codes it leaves free -/

/-- Settles O2: the nine words, each run through the decoder. -/
theorem tableWordsDecode : Obligations.TableWordsDecode := by
  unfold Obligations.TableWordsDecode
  decide

/-- The codes R112 leaves unassigned are refused by name. -/
theorem decodeCommand_unassigned (code : Byte) (operands : List Byte)
    (h : 0x09 < code.toNat ∧ code.toNat < 0x10 ∨ 0x1B < code.toNat) :
    decodeCommand code operands = .error (.unassignedOpSelect code) := by
  unfold decodeCommand
  split
  case h_23 => rfl
  all_goals omega

/-! ### One step -/

theorem step_of_instr {s : State} {r : Request} {rest : List Request} {i : Instr} (hr : s.requests = r :: rest)
    (hi : decode r.port r.bytes = .ok i) : step s = exec i { s with requests := rest } := by
  simp only [step, hr, Request.instr, hi]

theorem step_of_error {s : State} {r : Request} {rest : List Request} {e : DecodeError} (hr : s.requests = r :: rest)
    (he : decode r.port r.bytes = .error e) : step s = answerUndecoded e { s with requests := rest } := by
  simp only [step, hr, Request.instr, he]

/-- Settles O4: the definition of a step, on a request that decodes. -/
theorem stepRunsDecodedRequest : Obligations.StepRunsDecodedRequest := fun _ _ _ _ => step_of_instr

/-- Settles O3: such a code is refused by the decoder, and the step answers the refusal. -/
theorem unassignedCodesAreRefused : Obligations.UnassignedCodesAreRefused := fun _ code operands _ hcode hr =>
  step_of_error hr (decodeCommand_unassigned code operands hcode)

/-- Settles O40: there is no context after reset. -/
theorem resetHasInvariant : Obligations.ResetHasInvariant := fun _ hm => nomatch hm

/-! ### Operands outside their sets (U16; log 12) -/

theorem encodeOperand_illegal (p : Params) (a : Nat) (pf : Bool) (info : List Byte) : encodeOperand p a .illegal pf info =
    .error (if p.maxInfoLen < info.length then .invalidLength else .invalidArgument) :=
  (apply_ite Except.error _ _ _).symm

theorem exec_encode_illegal (s : State) (a : Nat) (pf : Bool) (info : List Byte) : exec (.encode a .illegal pf info) s =
    .next (s.fail (if s.par.maxInfoLen < info.length then .invalidLength else .invalidArgument)) := by
  rw [exec_encode, encodeOperand_illegal]
  rfl

/-- A `wanted` operand outside R111's values is refused whatever the handle is. -/
theorem exec_sendFrame_illegal_wanted (s : State) (n : Nat) (t : TypeOperand) (pf : Bool) (info : List Byte) :
    exec (.sendFrame n t pf info .illegal) s = .next (s.fail .invalidArgument) :=
  congrArg Host.Outcome.next (ite_id (α := State) _)

theorem exec_sendFrame_illegal_type (s : State) (n : Nat) (pf : Bool) (info : List Byte) (w : WantedOperand)
    (v : Option FrameType) (hh : s.handleOk n = true) (hw : legalWanted w = some v) :
    exec (.sendFrame n .illegal pf info w) s =
      .next (s.fail (if s.par.maxInfoLen < info.length then .invalidLength else .invalidArgument)) := by
  rw [exec_sendFrame_of_legal s n .illegal pf info w v hh hw, encodeOperand_illegal]

/-- Settles O11: the two places a type is looked at, and the one of `wanted`. -/
theorem illegalOperandsAreRefused : Obligations.IllegalOperandsAreRefused := by
  intro s a pf info w t refused
  refine ⟨exec_encode_illegal s a pf info, fun hm ha => ?sendFrame, exec_sendFrame_illegal_wanted s a t pf info⟩
  case sendFrame =>
    have hw : legalWanted (match w with | none => .none | some v => .type v) = some w := by cases w <;> rfl
    exact exec_sendFrame_illegal_type s a pf info _ w ((s.handleOk_iff a).2 ⟨hm, ha⟩) hw

end Sys2Proof.Machine

/-! The Frame Codec (40_frame_codec.md, 30_encoding.md): the receiver's test of the FCS, the bytes of each frame type, what a
parse consumes, the address filter, and frames with a corrupted header. -/

namespace Sys2Proof.Machine

open Sys2Proof

/-! ### The receiver's test (R146) -/

theorem crc8_concat (s : List Byte) (b : Byte) : crc8 (s ++ [b]) = crcTable (crc8 s ^^^ b) :=
  crcRun_append 0xFF s [b]

/-- The FCS complements the register (R101). -/
theorem fcs_eq_xor (s : List Byte) : fcs s = crc8 s ^^^ 0xFF := by
  have h : ∀ c : Byte, 0xFF - c = c ^^^ 0xFF := by decide
  exact h (crc8 s)

/-- Settles O7: 0xCF is the table's entry for 0xFF, and no other register value leads to it. -/
theorem fcsReceiverTest : Obligations.FcsReceiverTest := by
  intro s b
  have htable : crcTable 0xFF = 0xCF := by decide
  rw [crc8_concat, fcs_eq_xor, ← htable]
  constructor
  · intro h
    rw [← crcTable_injective _ _ h, ← BitVec.xor_assoc, BitVec.xor_self, BitVec.zero_xor]
  · intro h
    rw [h, ← BitVec.xor_assoc, BitVec.xor_self, BitVec.zero_xor]

/-! ### The bytes of a frame (R131 to R136) -/

/-- The address byte of a command (R92). -/
theorem addressByte_true (n : Nat) : addressByte n true = BitVec.ofNat 8 (4 * n + 3) := by
  have h : ∀ x : Byte, (x <<< 2) ||| 0x02 ||| 0x01 = 4 * x + 3 := by decide
  refine (h (BitVec.ofNat 8 n)).trans (BitVec.eq_of_toNat_eq ?_)
  simp [BitVec.toNat_add, BitVec.toNat_mul]

/-- The address byte of a response (R92). -/
theorem addressByte_false (n : Nat) : addressByte n false = BitVec.ofNat 8 (4 * n + 1) := by
  have h : ∀ x : Byte, (x <<< 2) ||| 0x00 ||| 0x01 = 4 * x + 1 := by decide
  refine (h (BitVec.ofNat 8 n)).trans (BitVec.eq_of_toNat_eq ?_)
  simp [BitVec.toNat_add, BitVec.toNat_mul]

/-- A frame without information, with and without a length field (R97, R98). -/
theorem frameBytes_unnumbered (p : Params) (n : Nat) (t : FrameType) (pf : Bool) (ht : carriesInfo t = false) :
    frameBytes p n t pf [] =
      if p.lenAllTypes then [0xF9, addressByte n (sentCr t), controlByte t pf, 0x01,
        fcs [addressByte n (sentCr t), controlByte t pf, 0x01], 0xF9]
      else [0xF9, addressByte n (sentCr t), controlByte t pf, fcs [addressByte n (sentCr t), controlByte t pf], 0xF9] := by
  rw [frameBytes, headerBytes, ht, Bool.false_or]
  split <;> rfl

/-- A frame with information has a length field always (R95, R96). -/
theorem frameBytes_information (p : Params) (n : Nat) (t : FrameType) (pf : Bool) (info : List Byte)
    (ht : carriesInfo t = true) : frameBytes p n t pf info =
      [0xF9, addressByte n (sentCr t), controlByte t pf] ++ lengthField info.length ++ info ++
        [fcs ([addressByte n (sentCr t), controlByte t pf] ++ lengthField info.length), 0xF9] := by
  rw [frameBytes_eq_wire, Frame.wire_shape, ht, Bool.true_or, if_pos rfl]
  rfl

theorem lengthField_eq (n : Nat) : lengthField n = if n < 128 then [BitVec.ofNat 8 (2 * n + 1)]
    else [BitVec.ofNat 8 (2 * (n % 128)), BitVec.ofNat 8 (n / 128)] := by
  split
  case isTrue h => exact (lengthField_short n h).1
  case isFalse h => exact lengthField_long n (Nat.le_of_not_lt h)

/-- A frame-type row means `ENCODE` of its type (R131 to R136; log 4). -/
theorem exec_frameInstr (t : FrameType) (s : State) (n : Nat) (pf : Bool) (info : List Byte) :
    exec (frameInstr t n pf info) s = exec (.encode n (.legal t) pf info) s := by
  cases t <;> rfl

theorem exec_frameInstr_empty (t : FrameType) (s : State) (n : Nat) (pf : Bool) (hn : n ≤ 61) :
    exec (frameInstr t n pf []) s = .next { s with result := some ⟨.ok, .bytes (frameBytes s.par n t pf [])⟩ } := by
  rw [exec_frameInstr, exec_encode_of_sendable s n t pf [] ⟨hn, Nat.zero_le _, fun _ => rfl⟩]

theorem exec_frameInstr_invalid (t : FrameType) (s : State) (n : Nat) (pf : Bool) (info : List Byte)
    (ht : carriesInfo t = false) (hlen : info.length ≤ s.par.maxInfoLen) (h : 61 < n ∨ info ≠ []) :
    exec (frameInstr t n pf info) s = .next { s with result := some ⟨.invalidArgument, .none⟩ } := by
  rw [exec_frameInstr, exec_encode_legal, encodeFrame_of_invalid s.par n t pf info hlen (h.imp_right (And.intro ht))]
  rfl

/-- Settles O8: the four types differ in the C/R bit and the control code only. -/
theorem unnumberedFramesAreBuilt : Obligations.UnnumberedFramesAreBuilt := by
  intro s n pf
  refine ⟨fun hn => ?built, fun info hlen h => ?refused, fun info => ⟨rfl, rfl, rfl, rfl⟩⟩
  case built =>
    intro f cmd rsp
    have hframe (t : FrameType) (ht : carriesInfo t = false) (a c : Byte) (ha : addressByte n (sentCr t) = a)
        (hc : controlByte t pf = c) :
        exec (frameInstr t n pf []) s = .next { s with result := some ⟨.ok, .bytes (f a c)⟩ } := by
      rw [exec_frameInstr_empty t s n pf hn, frameBytes_unnumbered s.par n t pf ht, ha, hc]
    exact ⟨hframe .sabm rfl _ _ (addressByte_true n) (by cases pf <;> rfl),
      hframe .ua rfl _ _ (addressByte_false n) (by cases pf <;> rfl),
      hframe .dm rfl _ _ (addressByte_false n) (by cases pf <;> rfl),
      hframe .disc rfl _ _ (addressByte_true n) (by cases pf <;> rfl)⟩
  case refused =>
    have hrefused (t : FrameType) (ht : carriesInfo t = false) := exec_frameInstr_invalid t s n pf info ht hlen h
    exact ⟨hrefused .sabm rfl, hrefused .ua rfl, hrefused .dm rfl, hrefused .disc rfl⟩

/-- The three answers of `ENCODE` for a type with information (R135 to R137). -/
theorem encodeFrame_information (p : Params) (n : Nat) (t : FrameType) (pf : Bool) (info : List Byte)
    (ht : carriesInfo t = true) : encodeFrame p n t pf info =
      if p.maxInfoLen < info.length then .error .invalidLength
      else if 61 < n then .error .invalidArgument else .ok (frameBytes p n t pf info) := by
  rw [encodeFrame, ht]
  rfl

/-- Settles O9: the two types differ in the control code only. -/
theorem informationFramesAreBuilt : Obligations.InformationFramesAreBuilt := by
  intro s n pf info lf a f answer
  have hframe (t : FrameType) (ht : carriesInfo t = true) (hcr : sentCr t = true) (c : Byte) (hc : controlByte t pf = c) :
      exec (frameInstr t n pf info) s = .next { s with result := some (answer c) } := by
    have hbytes : frameBytes s.par n t pf info = f c := by
      rw [frameBytes_information s.par n t pf info ht, hcr, addressByte_true, hc, lengthField_eq]
    rw [exec_frameInstr, exec_encode_legal, encodeFrame_information s.par n t pf info ht, hbytes]
    simp only [answer]
    split
    · rfl
    · split <;> rfl
  exact ⟨hframe .uih rfl rfl _ (by cases pf <;> rfl), hframe .ui rfl rfl _ (by cases pf <;> rfl), rfl, rfl⟩

/-! ### What a parse consumes (R150) -/

theorem readHeader_bounds (p : Params) (n : Nat) (peek : Nat → Byte) (o hdr ln : Nat) (lf : List Byte)
    (h : readHeader p n peek o = .read hdr ln lf) : hdr = 3 + lf.length ∧ hdr ≤ n - o := by
  unfold readHeader at h
  split_ifs at h <;> cases h <;> simp only [List.length_cons, List.length_nil, true_and] <;> omega

theorem judgeFields_consumed (a c : Byte) (info : List Byte) (w : AddrFilter) (done : Nat) :
    (judgeFields a c info w done).consumed = done ∧ (judgeFields a c info w done).status ≠ .incomplete := by
  unfold judgeFields
  split
  · exact ⟨rfl, nofun⟩
  · split
    · exact ⟨rfl, nofun⟩
    · split <;> exact ⟨rfl, nofun⟩

/-- The ends a parse from an opening flag can have: it waits at the flag, or drops it, or consumes a whole extent. -/
theorem parseFrom_cases (p : Params) (n : Nat) (peek : Nat → Byte) (w : AddrFilter) (o : Nat) :
    parseFrom p n peek w o = .incomplete o ∨ (o < n ∧ parseFrom p n peek w o = .malformed (o + 1)) ∨
    ∃ hdr ln lf, readHeader p n peek o = .read hdr ln lf ∧ ln ≤ p.maxInfoLen ∧ o + (hdr + ln + 2) ≤ n ∧
      peek (o + (hdr + ln + 2) - 1) = flagByte ∧
      parseFrom p n peek w o =
        if peek (o + hdr + ln) ≠ fcs ([peek (o + 1), peek (o + 2)] ++ lf) then .fcsError (o + (hdr + ln + 2))
        else judgeFields (peek (o + 1)) (peek (o + 2)) ((List.range ln).map fun k => peek (o + hdr + k)) w
          (o + (hdr + ln + 2)) := by
  unfold parseFrom
  cases h : readHeader p n peek o with
  | short => exact .inl rfl
  | read hdr ln lf =>
    obtain ⟨hhdr, hle⟩ := readHeader_bounds p n peek o hdr ln lf h
    dsimp only
    by_cases hlen : p.maxInfoLen < ln
    · exact .inr (.inl ⟨by omega, judgeFrame_of_too_long p n peek w o hdr ln lf hlen⟩)
    by_cases hn : n - o < hdr + ln + 2
    · exact .inl (judgeFrame_of_missing_bytes p n peek w o hdr ln lf (Nat.le_of_not_lt hlen) hn)
    by_cases hflag : peek (o + (hdr + ln + 2) - 1) = flagByte
    · refine .inr (.inr ⟨hdr, ln, lf, rfl, Nat.le_of_not_lt hlen, by omega, hflag, ?_⟩)
      rw [judgeFrame, if_neg hlen, if_neg hn, if_neg (not_not.2 hflag)]
    · exact .inr (.inl ⟨by omega, judgeFrame_of_no_closing_flag p n peek w o hdr ln lf (Nat.le_of_not_lt hlen) (by omega) hflag⟩)

/-- R150 for a parse from an opening flag. -/
theorem parseFrom_consumed (p : Params) (n : Nat) (peek : Nat → Byte) (w : AddrFilter) (o : Nat) (ho : o < n) :
    parseFrom p n peek w o = .incomplete o ∨ (parseFrom p n peek w o).status ≠ .incomplete ∧
      o < (parseFrom p n peek w o).consumed ∧ (parseFrom p n peek w o).consumed ≤ n := by
  rcases parseFrom_cases p n peek w o with h | ⟨-, h⟩ | ⟨hdr, ln, lf, -, -, hle, -, h⟩
  · exact .inl h
  · rw [h]
    exact .inr ⟨nofun, Nat.lt_succ_self o, ho⟩
  · rw [h]
    split
    · exact .inr ⟨nofun, by simp only [ParseResult.consumed]; omega, hle⟩
    · obtain ⟨hc, hs⟩ := judgeFields_consumed (peek (o + 1)) (peek (o + 2))
        ((List.range ln).map fun k => peek (o + hdr + k)) w (o + (hdr + ln + 2))
      rw [hc]
      exact .inr ⟨hs, by omega, hle⟩

/-- A buffer holds no flag, or opens somewhere. -/
theorem no_flag_or_opensAt (buf : List Byte) :
    (∀ b ∈ buf, b ≠ flagByte) ∨ ∃ o, OpensAt buf.length (fun i => buf.getD i 0) o := by
  by_cases h : ∃ j < buf.length, buf.getD j 0 = flagByte
  · exact .inr (exists_opensAt _ _ h)
  · refine .inl fun b hb e => h ?_
    obtain ⟨j, hj, rfl⟩ := List.getElem_of_mem hb
    exact ⟨j, hj, (List.getD_eq_getElem buf 0 hj).trans e⟩

theorem parseBytes_no_flag (p : Params) (buf : List Byte) (w : AddrFilter) (h : ∀ b ∈ buf, b ≠ flagByte) :
    parseBytes p buf w = .notFound buf.length := parseSource_no_flag p _ _ w (getD_ne_flagByte buf h)

theorem parseBytes_opens (p : Params) (buf : List Byte) (w : AddrFilter) (o : Nat)
    (h : OpensAt buf.length (fun i => buf.getD i 0) o) :
    parseBytes p buf w = parseFrom p buf.length (fun i => buf.getD i 0) w o := parseSource_opens p _ _ w o h

theorem OpensAt.peek_eq {n o : Nat} {peek : Nat → Byte} (h : OpensAt n peek o) : peek o = flagByte := by
  obtain ⟨i, hi, -, hrun⟩ := h.first
  exact hrun o hi (Nat.le_refl o)

theorem ParseResult.descriptor_isSome_iff (r : ParseResult) : r.descriptor.isSome = true ↔ r.status = .ok := by
  cases r <;> simp [descriptor, status]

/-- Settles O16: with no flag everything is consumed; from an opening flag on `parseFrom_consumed` says how much. -/
theorem parseConsumption : Obligations.ParseConsumption := by
  intro s buf w r
  refine ⟨rfl, ?_⟩
  rw [← and_assoc, ← and_assoc]
  refine ⟨?_, r.descriptor_isSome_iff⟩
  rcases no_flag_or_opensAt buf with hno | ⟨o, ho⟩
  case inl =>
    have hr : r = .notFound buf.length := parseBytes_no_flag s.par buf w hno
    rw [hr]
    exact ⟨⟨Nat.le_refl _, nofun⟩, fun _ hne => List.length_pos_of_ne_nil hne⟩
  case inr =>
    have hr : r = parseFrom s.par buf.length (fun i => buf.getD i 0) w o := parseBytes_opens s.par buf w o ho
    have hflag : (buf.drop o).head? = some flagByte := by
      rw [List.head?_drop, List.getElem?_eq_getElem ho.lt, ← ho.peek_eq, List.getD_eq_getElem buf 0 ho.lt]
    rcases parseFrom_consumed s.par buf.length (fun i => buf.getD i 0) w o ho.lt with h | ⟨hst, hlt, hle⟩
    · rw [hr, h]
      exact ⟨⟨ho.lt.le, fun _ => hflag⟩, fun hne => absurd rfl hne⟩
    · rw [← hr] at hst hlt hle
      exact ⟨⟨hle, fun e => absurd e hst⟩, fun _ _ => Nat.one_le_of_lt hlt⟩

/-! ### The address filter (R148) -/

/-- The answer with a wanted id, from the answer with the wildcard (R148). -/
def ParseResult.admitOnly (w : Nat) : ParseResult → ParseResult
  | .frame n f => if w = f.address then .frame n f else .notFound n
  | r => r

theorem judgeFields_id (a c : Byte) (info : List Byte) (w done : Nat) :
    judgeFields a c info (.id w) done = (judgeFields a c info .any done).admitOnly w := by
  unfold judgeFields
  split
  · rfl
  · split
    · rfl
    · simp [admits, ParseResult.admitOnly]

theorem parseFrom_id (p : Params) (n : Nat) (peek : Nat → Byte) (w o : Nat) :
    parseFrom p n peek (.id w) o = (parseFrom p n peek .any o).admitOnly w := by
  unfold parseFrom
  split
  · rfl
  · simp only [judgeFrame, judgeFields_id, apply_ite (ParseResult.admitOnly w)]
    rfl

/-- Settles O21: the filter is looked at in the last step of a parse only. -/
theorem addressFilterComesLast : Obligations.AddressFilterComesLast := by
  intro p buf w
  have h : parseBytes p buf (.id w) = (parseBytes p buf .any).admitOnly w := by
    rcases no_flag_or_opensAt buf with hno | ⟨o, ho⟩
    · rw [parseBytes_no_flag p buf _ hno, parseBytes_no_flag p buf _ hno]
      rfl
    · rw [parseBytes_opens p buf _ o ho, parseBytes_opens p buf _ o ho, parseFrom_id]
  rw [h]
  cases parseBytes p buf .any <;> rfl

end Sys2Proof.Machine

/-! Frames with a corrupted header (40_frame_codec.md R154): what a parse that answers a frame has found in the buffer, and why
one flipped bit of address, control or length contradicts it. -/

namespace Sys2Proof.Machine

open Sys2Proof

/-! ### What a parse that answers a frame has found -/

/-- A header that is read has its length bytes behind the control byte (R142). -/
theorem lengthBytes_of_readHeader (p : Params) (a c : Byte) (rest : List Byte) (hdr ln : Nat) (lf : List Byte)
    (h : readHeader p (flagByte :: a :: c :: rest).length (fun i => (flagByte :: a :: c :: rest).getD i 0) 0 = .read hdr ln lf) :
    lf <+: rest ∧ LengthBytes p c lf ln ∧ hdr = 3 + lf.length := by
  unfold readHeader at h
  simp only [List.length_cons, Nat.sub_zero, Nat.zero_add, List.getD_cons_succ, List.getD_cons_zero] at h
  split_ifs at h with h3 hp h4 hb h5
  · obtain ⟨b0, r, rfl⟩ := List.exists_cons_of_length_pos (l := rest) (by omega)
    cases h
    exact ⟨⟨r, rfl⟩, ⟨hp, hb, rfl⟩, rfl⟩
  · obtain ⟨b0, r, rfl⟩ := List.exists_cons_of_length_pos (l := rest) (by omega)
    obtain ⟨b1, r, rfl⟩ := List.exists_cons_of_length_pos (l := r) (by simp only [List.length_cons] at h5; omega)
    cases h
    exact ⟨⟨r, rfl⟩, ⟨hp, Bool.eq_false_iff.2 hb, rfl⟩, rfl⟩
  · cases h
    exact ⟨List.nil_prefix, ⟨Bool.eq_false_iff.2 hp, rfl⟩, rfl⟩

/-- A frame that is answered has its length bytes, its extent and its FCS in the buffer (R142 to R146). -/
theorem parseBytes_frame_inv (p : Params) (a c : Byte) (rest : List Byte) (done : Nat) (f : Frame) (ha : a ≠ flagByte)
    (h : parseBytes p (flagByte :: a :: c :: rest) .any = .frame done f) :
    ∃ lf n body, rest = lf ++ body ∧ LengthBytes p c lf n ∧ done = 5 + lf.length + n ∧
      body.getD n 0 = fcs ([a, c] ++ lf) := by
  rw [parseBytes_opens p _ _ 0 (opensAt_zero a (c :: rest) ha)] at h
  rcases parseFrom_cases p _ (fun i => (flagByte :: a :: c :: rest).getD i 0) .any 0 with
    e | ⟨-, e⟩ | ⟨hdr, n, lf, hread, -, -, -, e⟩
  · rw [e] at h
    cases h
  · rw [e] at h
    cases h
  · obtain ⟨⟨body, rfl⟩, hl, rfl⟩ := lengthBytes_of_readHeader p a c rest hdr n lf hread
    rw [e] at h
    split at h
    · cases h
    next hx =>
      have hdone := (judgeFields_consumed a c _ .any _).1.symm.trans (congrArg ParseResult.consumed h)
      refine ⟨lf, n, body, rfl, hl, ?_, ?_⟩
      · simp only [ParseResult.consumed] at hdone
        omega
      · refine Eq.trans ?_ (not_not.1 hx)
        rw [← getD_append_length_add (flagByte :: a :: c :: lf) body n]
        simp only [List.length_cons, List.cons_append]
        exact congrArg (List.getD _ · 0) (by omega)

/-! ### A frame's bytes, part by part -/

/-- A delimited frame with the given address, control, length, information and FCS bytes (R90). -/
def delimited (a c : Byte) (lf info : List Byte) (x : Byte) : List Byte :=
  flagByte :: a :: c :: (lf ++ (info ++ [x, flagByte]))

theorem length_delimited (a c : Byte) (lf info : List Byte) (x : Byte) :
    (delimited a c lf info x).length = 5 + lf.length + info.length := by
  simp only [delimited, List.length_cons, List.length_append, List.length_nil]
  omega

section
variable {p : Params} {a c : Byte} {lf info : List Byte} (x : Byte) (tail : List Byte)

/-- A frame whose FCS byte is not its header's (R146). -/
theorem parseBytes_delimited_bad (ha : a ≠ flagByte) (hl : LengthBytes p c lf info.length)
    (hm : info.length ≤ p.maxInfoLen) (hx : x ≠ fcs ([a, c] ++ lf)) :
    parseBytes p (delimited a c lf info x ++ tail) .any = .fcsError (5 + lf.length + info.length) := by
  have h := parseBytes_of_delimited p .any a c x lf info tail ha hl hm
  rw [if_pos hx] at h
  simpa [delimited] using h

/-- The header read in place of a damaged one: of the damaged frame's extent, it has the FCS byte in the same place. -/
theorem parseBytes_delimited_frame (f : Frame) (ha : a ≠ flagByte)
    (h : parseBytes p (delimited a c lf info x ++ tail) .any = .frame (delimited a c lf info x).length f) :
    ∃ lf' n', lf' <+: lf ++ (info ++ [x, flagByte]) ++ tail ∧ LengthBytes p c lf' n' ∧
      lf'.length + n' = lf.length + info.length ∧ x = fcs ([a, c] ++ lf') := by
  obtain ⟨lf', n', body, hrest, hl', hdone, hx⟩ := parseBytes_frame_inv p a c _ _ f ha h
  rw [length_delimited] at hdone
  have hlen : lf'.length + n' = lf.length + info.length := by omega
  refine ⟨lf', n', ⟨body, hrest.symm⟩, hl', hlen, ?_⟩
  have hplace : (lf ++ (info ++ [x, flagByte]) ++ tail).getD (lf.length + info.length) 0 = x := by
    rw [List.append_assoc, getD_append_length_add, List.append_assoc]
    exact getD_append_length_add info ([x, flagByte] ++ tail) 0
  calc x = (lf ++ (info ++ [x, flagByte]) ++ tail).getD (lf.length + info.length) 0 := hplace.symm
    _ = (lf' ++ body).getD (lf'.length + n') 0 := by rw [hlen]; exact congrArg (List.getD · _ 0) hrest
    _ = fcs ([a, c] ++ lf') := (getD_append_length_add lf' body n').trans hx

end

theorem LengthBytes.length_le {p : Params} {c : Byte} {lf : List Byte} {n : Nat} (h : LengthBytes p c lf n) : lf.length ≤ 2 := by
  rcases lf with _ | ⟨b0, _ | ⟨b1, _ | ⟨b2, r⟩⟩⟩
  · exact Nat.zero_le _
  · exact Nat.le_succ _
  · exact Nat.le_refl _
  · exact h.elim

/-- No length bytes mean no information (R142). -/
theorem LengthBytes.eq_zero_of_nil {p : Params} {c : Byte} {n : Nat} (h : LengthBytes p c [] n) : n = 0 := h.2

/-- The first length byte's EA bit says whether there is a second (R95, R96). -/
theorem LengthBytes.ea_iff {p : Params} {c b : Byte} {lf : List Byte} {n : Nat} (h : LengthBytes p c (b :: lf) n) :
    b.getLsbD 0 = true ↔ lf = [] := by
  rcases lf with _ | ⟨b1, _ | ⟨b2, r⟩⟩
  · exact iff_of_true h.2.1 rfl
  · exact iff_of_false (Bool.eq_false_iff.1 h.2.1) (List.cons_ne_nil _ _)
  · exact h.elim

/-- Length bytes that stand in the same place, for headers whose extents are equal, are the same bytes. -/
theorem LengthBytes.eq_of_prefix {p : Params} {c c' : Byte} {lf lf' rest : List Byte} {n n' : Nat} (h : LengthBytes p c lf n)
    (h' : LengthBytes p c' lf' n') (hpre : lf' <+: lf ++ rest) (hlen : lf'.length + n' = lf.length + n) : lf' = lf := by
  rcases lf with _ | ⟨b, l⟩ <;> rcases lf' with _ | ⟨b', l'⟩
  · rfl
  · have := h.eq_zero_of_nil
    simp only [List.length_cons, List.length_nil] at hlen
    omega
  · have := h'.eq_zero_of_nil
    simp only [List.length_cons, List.length_nil] at hlen
    omega
  · obtain ⟨rfl, hpre⟩ := List.cons_prefix_cons.1 hpre
    have hiff : l' = [] ↔ l = [] := h'.ea_iff.symm.trans h.ea_iff
    have hl := h.length_le
    have hl' := h'.length_le
    have hsame : l'.length = l.length := by
      simp only [List.length_cons] at hl hl'
      rw [← List.length_eq_zero_iff, ← List.length_eq_zero_iff] at hiff
      omega
    have hcut := List.prefix_iff_eq_take.1 hpre
    have hcount : (b' :: l').length = (b' :: l).length := congrArg Nat.succ hsame
    rw [hcount, List.take_left] at hcut
    rw [hcut]

/-! ### Damage by one bit -/

section
variable {p : Params} {a c : Byte} {lf info : List Byte} (tail : List Byte) (f : Frame)

/-- Another control byte is no frame of the same extent: were the length bytes the same, the FCS would not be. -/
theorem parseBytes_control_damaged (c' : Byte) (ha : a ≠ flagByte) (hl : LengthBytes p c lf info.length) (hc : c' ≠ c) :
    parseBytes p (delimited a c' lf info (fcs ([a, c] ++ lf)) ++ tail) .any ≠ .frame (5 + lf.length + info.length) f := by
  intro h
  rw [← length_delimited a c' lf info (fcs ([a, c] ++ lf))] at h
  obtain ⟨lf', n', hpre, hl', hlen, hfcs⟩ := parseBytes_delimited_frame _ tail f ha h
  rw [List.append_assoc] at hpre
  obtain rfl := hl.eq_of_prefix hl' hpre hlen
  exact hc (fcs_one_byte [a] lf' c c' hfcs).symm

/-- A flip of the EA bit of a length byte leaves the seven bits above it (R95). -/
theorem half_of_ea_flipped : ∀ (b : Byte), ∀ j < 8, (b ^^^ (1#8 <<< j)).getLsbD 0 ≠ b.getLsbD 0 →
    (b ^^^ (1#8 <<< j)).toNat / 2 = b.toNat / 2 := by decide

theorem flip_ne (b : Byte) (j : Nat) (hj : j < 8) : b ^^^ (1#8 <<< j) ≠ b := by
  intro h
  have hz : ∀ j < 8, 1#8 <<< j ≠ 0#8 := by decide
  refine hz j hj ?_
  have e := congrArg (b ^^^ ·) h
  simpa [← BitVec.xor_assoc] using e

theorem eq_of_half_of_ea {b b' : Byte} (h : b'.toNat / 2 = b.toNat / 2) (he : b'.getLsbD 0 = b.getLsbD 0) : b' = b := by
  refine BitVec.eq_of_toNat_eq ?_
  simp only [BitVec.getLsbD, Nat.testBit_zero, decide_eq_decide] at he
  omega

/-- A flipped bit in the first length byte changes the length, or the number of length bytes. -/
theorem extent_ne_of_first_flipped {b : Byte} {l l' : List Byte} {n n' : Nat} (j : Nat) (hj : j < 8)
    (h : LengthBytes p c (b :: l) n) (h' : LengthBytes p c ((b ^^^ (1#8 <<< j)) :: l') n') (rest : List Byte)
    (hpre : l' <+: l ++ rest) : l'.length + n' ≠ l.length + n := by
  intro hsum
  rcases l with _ | ⟨b1, _ | ⟨b2, r⟩⟩ <;> rcases l' with _ | ⟨b1', _ | ⟨b2', r'⟩⟩
  case nil.nil =>
    have hhalf : (b ^^^ (1#8 <<< j)).toNat / 2 = b.toNat / 2 := by
      rw [← h.2.2, ← h'.2.2]
      exact Nat.add_left_cancel hsum
    exact flip_ne b j hj (eq_of_half_of_ea hhalf (h'.2.1.trans h.2.1.symm))
  case nil.cons.nil =>
    have hhalf := half_of_ea_flipped b j hj (by rw [h.2.1, h'.2.1]; exact Bool.false_ne_true)
    have hn := h.2.2
    have hn' := h'.2.2
    simp only [List.length_cons, List.length_nil] at hsum
    omega
  case cons.nil.nil =>
    have hhalf := half_of_ea_flipped b j hj (by rw [h.2.1, h'.2.1]; exact Bool.false_ne_true.symm)
    have hn := h.2.2
    have hn' := h'.2.2
    simp only [List.length_cons, List.length_nil] at hsum
    omega
  case cons.nil.cons.nil =>
    obtain ⟨rfl, -⟩ := List.cons_prefix_cons.1 hpre
    have hn := h.2.2
    have hn' := h'.2.2
    simp only [List.length_cons, List.length_nil] at hsum
    exact flip_ne b j hj (eq_of_half_of_ea (by omega) (h'.2.1.trans h.2.1.symm))
  case cons.cons.nil | cons.cons.cons.nil | cons.cons.cons.cons => exact h.elim
  case nil.cons.cons | cons.nil.cons.cons => exact h'.elim

/-- Another second length byte is another length. -/
theorem extent_ne_of_second_changed {b b1 b1' : Byte} {l' : List Byte} {n n' : Nat} (hb : b1' ≠ b1)
    (h : LengthBytes p c [b, b1] n) (h' : LengthBytes p c (b :: l') n') (rest : List Byte)
    (hpre : l' <+: b1' :: rest) : l'.length + n' ≠ 1 + n := by
  intro hsum
  rcases l' with _ | ⟨b2, _ | ⟨b3, r⟩⟩
  · exact Bool.false_ne_true (h.2.1.symm.trans h'.2.1)
  · obtain ⟨rfl, -⟩ := List.cons_prefix_cons.1 hpre
    have hn := h.2.2
    have hn' := h'.2.2
    simp only [List.length_cons, List.length_nil] at hsum
    exact hb (BitVec.eq_of_toNat_eq (by omega))
  · exact h'.elim

/-- A flipped bit in the length field changes the extent. -/
theorem parseBytes_length_damaged (x : Byte) (i j : Nat) (ha : a ≠ flagByte) (hl : LengthBytes p c lf info.length)
    (hi : i < lf.length) (hj : j < 8) :
    parseBytes p (delimited a c (lf.set i (lf.getD i 0 ^^^ (1#8 <<< j))) info x ++ tail) .any ≠
      .frame (5 + lf.length + info.length) f := by
  intro h
  have hlen := length_delimited a c (lf.set i (lf.getD i 0 ^^^ (1#8 <<< j))) info x
  rw [List.length_set] at hlen
  rw [← hlen] at h
  obtain ⟨lf', n', hpre, hl', hsum, -⟩ := parseBytes_delimited_frame _ tail f ha h
  rw [List.length_set] at hsum
  rw [List.append_assoc] at hpre
  obtain ⟨b, l, rfl⟩ := List.exists_cons_of_length_pos (Nat.zero_lt_of_lt hi)
  rcases lf' with _ | ⟨b', l'⟩
  · have hn := hl'.eq_zero_of_nil
    simp only [List.length_cons, List.length_nil] at hsum
    omega
  rw [List.length_cons, List.length_cons, Nat.add_right_comm, Nat.add_right_comm l.length, Nat.succ_inj] at hsum
  rcases i with _ | i
  · obtain ⟨rfl, hrest⟩ := List.cons_prefix_cons.1 hpre
    exact extent_ne_of_first_flipped j hj hl hl' _ hrest hsum
  · obtain ⟨rfl, hrest⟩ := List.cons_prefix_cons.1 hpre
    have hle := hl.length_le
    obtain ⟨b1, rfl⟩ : ∃ b1, l = [b1] := List.length_eq_one_iff.1 (by simp only [List.length_cons] at hi hle; omega)
    obtain rfl : i = 0 := by simpa using hi
    exact extent_ne_of_second_changed (flip_ne b1 j hj) hl hl' _ hrest (hsum.trans (by simp))

/-- A frame with a length field on every type takes six bytes at least. -/
theorem five_le_of_frame {a c : Byte} {rest : List Byte} {done : Nat} (ha : a ≠ flagByte)
    (h : parseBytes p (flagByte :: a :: c :: rest) .any = .frame done f) :
    5 + (if p.lenAllTypes then 1 else 0) ≤ done := by
  obtain ⟨lf, n, body, -, hl, rfl, -⟩ := parseBytes_frame_inv p a c rest done f ha h
  split
  next hall =>
    rcases lf with _ | ⟨b, l⟩
    · have hp := hl.1
      simp [lengthPresent, hall] at hp
    · simp only [List.length_cons]
      omega
  · omega

/-- An address byte turned into a flag joins the run (R140; log 23): the frame behind it is shorter than any frame can be. -/
theorem parseBytes_address_flag (x : Byte) (hc : c ≠ flagByte) (hinfo : info = [])
    (hlf : lf.length = if p.lenAllTypes then 1 else 0) :
    parseBytes p (delimited flagByte c lf info x ++ tail) .any ≠ .frame (5 + lf.length + info.length) f := by
  intro h
  obtain ⟨c', rest, hrest⟩ : ∃ c' rest, lf ++ (info ++ [x, flagByte]) ++ tail = c' :: rest :=
    List.exists_cons_of_length_pos (by simp)
  have hbuf : delimited flagByte c lf info x ++ tail = flagByte :: flagByte :: c :: c' :: rest := by
    rw [← hrest]
    rfl
  have hshift := parseBytes_skip p .any [flagByte] (flagByte :: c :: c' :: rest) (exists_flag_of_cons _) fun o ho => ho.cons_flag
  rw [hbuf] at h
  rw [List.singleton_append, h] at hshift
  subst hinfo
  cases hr : parseBytes p (flagByte :: c :: c' :: rest) .any with
  | frame m g =>
    rw [hr] at hshift
    have hle := five_le_of_frame g hc hr
    simp only [ParseResult.shift, ParseResult.frame.injEq, List.length_cons, List.length_nil] at hshift
    omega
  | notFound | incomplete | fcsError | malformed =>
    rw [hr] at hshift
    cases hshift

end

/-! ### R154 -/

theorem Frame.wire_eq_delimited (p : Params) (f : Frame) : f.wire p =
    delimited (addressByte f.address f.cr) (controlByte f.type f.pollFinal)
      (if carriesInfo f.type || p.lenAllTypes then lengthField f.information.length else []) f.information
      (fcs ([addressByte f.address f.cr, controlByte f.type f.pollFinal] ++
        (if carriesInfo f.type || p.lenAllTypes then lengthField f.information.length else []))) := by
  rw [Frame.wire_shape]
  simp [delimited]

/-- Only a response has an address byte one bit away from a flag (R104; log 23). -/
theorem cr_of_address_flipped : ∀ n < 62, ∀ cr : Bool, ∀ j < 8, addressByte n cr ^^^ (1#8 <<< j) = flagByte → cr = false := by
  decide

/-- The responses carry no information (R98, R104). -/
theorem carriesInfo_of_response (t : FrameType) (h : sentCr t = false) : carriesInfo t = false := by
  revert h
  cases t <;> decide

theorem controlByte_ne_flag (t : FrameType) (pf : Bool) : controlByte t pf ≠ flagByte := by
  cases t <;> cases pf <;> decide

/-- A flip of the P/F bit leaves the rest of the control byte (R93). -/
theorem LengthBytes.of_pollFinal_flipped {p : Params} {c : Byte} {lf : List Byte} {n : Nat} (h : LengthBytes p c lf n) :
    LengthBytes p (c ^^^ 0x10) lf n := by
  have hmask : ∀ c : Byte, (c ^^^ 0x10) &&& 0xEF = c &&& 0xEF := by decide
  unfold LengthBytes at h ⊢
  rw [hmask]
  exact h

section
variable (a c y : Byte) (lf info : List Byte) (x : Byte)

theorem set_address : (delimited a c lf info x).set 1 y = delimited y c lf info x := rfl

theorem set_control : (delimited a c lf info x).set 2 y = delimited a y lf info x := rfl

theorem set_length (i : Nat) (hi : i < lf.length) :
    (delimited a c lf info x).set (3 + i) y = delimited a c (lf.set i y) info x := by
  rw [delimited, delimited, Nat.add_comm 3 i, List.set_cons_succ, List.set_cons_succ, List.set_cons_succ,
    List.set_append_left _ _ hi]

theorem getD_length (i : Nat) (hi : i < lf.length) : (delimited a c lf info x).getD (3 + i) 0 = lf.getD i 0 := by
  rw [delimited, Nat.add_comm 3 i, List.getD_cons_succ, List.getD_cons_succ, List.getD_cons_succ,
    List.getD_append _ _ _ _ hi]

theorem delimited_split : delimited a c lf info x = (flagByte :: a :: c :: (lf ++ info)) ++ [x, flagByte] := by
  simp [delimited]

theorem fcs_place : (delimited a c lf info x).length - 2 = (flagByte :: a :: c :: (lf ++ info)).length := by
  rw [delimited_split, List.length_append]
  exact Nat.add_sub_cancel _ 2

theorem set_fcs : (delimited a c lf info x).set ((delimited a c lf info x).length - 2) y = delimited a c lf info y := by
  rw [fcs_place, delimited_split, delimited_split, List.set_append_right _ _ (Nat.le_refl _), Nat.sub_self]
  rfl

theorem getElem?_fcs : (delimited a c lf info x)[(delimited a c lf info x).length - 2]? = some x := by
  rw [fcs_place, delimited_split, List.getElem?_append_right (Nat.le_refl _), Nat.sub_self]
  rfl

end

/-- Settles O20: each damage in its place; an address byte turned into a flag is the one that moves the opening flag. -/
theorem corruptHeadersAreRejected : Obligations.CorruptHeadersAreRejected := by
  intro s addr t pf info b tail y h
  obtain ⟨rfl, haddr, hm, hinfo⟩ := encodeFrame_ok _ _ _ _ _ _ (encodeFrame_of_exec_encode s addr t pf info b h)
  have hnone : carriesInfo t = false → info = [] := hinfo
  have hl := lengthBytes_of_type s.par t pf info.length (Nat.le_trans hm (maxInfoLen_le s.cfg))
    (fun hc => by rw [hnone hc]; rfl)
  obtain ⟨ha, -⟩ := addressByte_fields addr (Nat.lt_succ_of_le haddr) (sentCr t)
  have hcr := cr_of_address_flipped addr (Nat.lt_succ_of_le haddr) (sentCr t)
  have hlf : carriesInfo t = false →
      (if carriesInfo t || s.par.lenAllTypes then lengthField info.length else []).length = if s.par.lenAllTypes then 1 else 0 := by
    intro hc
    rw [hc, Bool.false_or, hnone hc]
    split <;> rfl
  have hcf := controlByte_ne_flag t pf
  rw [Frame.wire_eq_delimited]
  dsimp only at hm ⊢
  generalize (if carriesInfo t || s.par.lenAllTypes then lengthField info.length else []) = lf at *
  generalize addressByte addr (sentCr t) = a at *
  generalize controlByte t pf = c at *
  rw [set_fcs, getElem?_fcs, set_address, set_control, length_delimited]
  have haddress (a' : Byte) (hflag : a' ≠ flagByte) (hne : a' ≠ a) :
      parseBytes s.par (delimited a' c lf info (fcs ([a, c] ++ lf)) ++ tail) .any = .fcsError (5 + lf.length + info.length) :=
    parseBytes_delimited_bad _ tail hflag hl hm fun e => hne (fcs_one_byte [] (c :: lf) a a' e).symm
  refine ⟨fun hy hne => haddress y hy fun e => hne (congrArg some e.symm), ?pollFinal, fun hne => ?fcs,
    fun k j f hk1 hk hj => ?bit⟩
  case pollFinal =>
    refine parseBytes_delimited_bad _ tail ha hl.of_pollFinal_flipped hm fun e => ?_
    have hflip : ∀ c : Byte, c ≠ c ^^^ 0x10 := by decide
    exact hflip c (fcs_one_byte [a] lf c (c ^^^ 0x10) e)
  case fcs => exact parseBytes_delimited_bad y tail ha hl hm fun e => hne (congrArg some e.symm)
  case bit =>
    obtain rfl | rfl | ⟨i, rfl⟩ : k = 1 ∨ k = 2 ∨ ∃ i, k = 3 + i := by
      rcases Nat.lt_or_ge k 3 with hk3 | hk3
      · omega
      · exact .inr (.inr (Nat.exists_eq_add_of_le hk3))
    · rw [set_address]
      by_cases hflag : a ^^^ (1#8 <<< j) = flagByte
      · have hresp := hcr j hj hflag
        have hc := carriesInfo_of_response t hresp
        exact hflag ▸ parseBytes_address_flag tail f _ hcf (hnone hc) (hlf hc)
      · intro e
        cases (haddress _ hflag (flip_ne a j hj)).symm.trans e
    · exact parseBytes_control_damaged tail f _ ha hl (flip_ne c j hj)
    · have hi : i < lf.length := by omega
      rw [getD_length _ _ _ _ _ i hi, set_length _ _ _ _ _ _ i hi]
      exact parseBytes_length_damaged tail f _ i j ha hl hi hj

end Sys2Proof.Machine

/-! Changes of the state that the Channel Manager does not see: what it does is the same before and after them. -/

namespace Sys2Proof.Machine

open Sys2Proof

/-- A change `g` of the state that neither shows in the channels, the parameters or the link's answers nor is undone by what a
message or a delivery writes. -/
structure Unseen (g : State → State) : Prop where
  cfg (s : State) : (g s).cfg = s.cfg
  env (s : State) : (g s).env = s.env
  chan (s : State) (n : Nat) : (g s).chan n = s.chan n
  emit (s : State) (e : TraceEntry) : (g s).emit e = g (s.emit e)
  setEnv (s : State) (e : Env) : { g s with env := e } = g { s with env := e }
  setChan (s : State) (n : Nat) (c : Channel) : (g s).setChan n c = g (s.setChan n c)

/-- The holding buffer does not show such a change either, so that no dispatch does. -/
structure UnseenByDispatch (g : State → State) : Prop extends Unseen g where
  muxHold (s : State) : (g s).muxHold = s.muxHold
  setMuxHold (s : State) (q : Fifo) : (g s).setMuxHold q = g (s.setMuxHold q)

namespace Unseen

section
variable {g : State → State} (hg : Unseen g) (s : State)

include hg

theorem par : (g s).par = s.par := congrArg Config.params (hg.cfg s)

theorem log (e : LogEntry) : (g s).log e = g (s.log e) := hg.emit s _

theorem event (n : Nat) (m : Byte) : (g s).event n m = g (s.event n m) := hg.emit s _

/-! ### Sending (R176, R183) -/

theorem linkSent (b : List Byte) : (g s).linkSent b = g (s.linkSent b) := by
  obtain ⟨hreply, henv⟩ := s.takeLinkReply_congr (g s) (hg.env s)
  have hsteps (t : State) : t.linkSent b =
      ({ t with env := t.takeLinkReply.2.env } : State).emit (.linkWrite b t.takeLinkReply.1) := rfl
  rw [hsteps, hsteps, hreply, henv, hg.setEnv, hg.emit]

theorem linkSend (b : List Byte) : (g s).linkSend b = Prod.map id g (s.linkSend b) := by
  rw [State.linkSend_eq_linkSent, State.linkSend_eq_linkSent, hg.linkSent,
    (s.takeLinkReply_congr (g s) (hg.env s)).1]
  rfl

theorem drawBool : (g s).drawBool = Prod.map id g s.drawBool := by
  simp only [State.drawBool, hg.env, hg.setEnv, Prod.map, id]

theorem sendControl (info : List Byte) : (g s).sendControl info = Prod.map id g (s.sendControl info) := by
  unfold State.sendControl
  rw [hg.par, hg.drawBool, hg.linkSend]
  split
  · rfl
  · rcases s.drawBool with ⟨ok, s1⟩
    cases ok
    · rfl
    · simp only [Prod.map, id, hg.par, hg.linkSend]

theorem emitMsc (n : Nat) (off : Bool) : (g s).emitMsc n off = Prod.map id g (s.emitMsc n off) := by
  unfold State.emitMsc
  rw [hg.sendControl]
  rcases s.sendControl (mscInfo n off) with ⟨ok, s1⟩
  cases ok
  · simp only [Prod.map, id, hg.log]
  · rfl

/-! ### Receive flow control and delivery (R179 to R182) -/

theorem setRxFlow (n : Nat) (b : Bool) : (g s).setRxFlow n b = g (s.setRxFlow n b) := by
  rw [State.setRxFlow, hg.chan, hg.setChan, ← State.setRxFlow]

theorem setTxFlow (n : Nat) (b : Bool) : (g s).setTxFlow n b = g (s.setTxFlow n b) := by
  rw [State.setTxFlow, hg.chan, hg.setChan, ← State.setTxFlow]

theorem atHighMark (n : Nat) : (g s).atHighMark n = s.atHighMark n := by
  rw [State.atHighMark, State.atHighMark, hg.chan, hg.par]

theorem atLowMark (n : Nat) : (g s).atLowMark n = s.atLowMark n := by
  rw [State.atLowMark, State.atLowMark, hg.chan, hg.par]

theorem evalRxFlow (n : Nat) : (g s).evalRxFlow n = Prod.map id g (s.evalRxFlow n) := by
  unfold State.evalRxFlow
  rw [hg.chan, hg.atHighMark, hg.atLowMark, hg.emitMsc, hg.emitMsc]
  split
  · rcases s.emitMsc n true with ⟨ok, s1⟩
    cases ok
    · rfl
    · simp only [Prod.map, id, hg.setRxFlow, hg.event]
  · split
    · rcases s.emitMsc n false with ⟨ok, s1⟩
      cases ok
      · rfl
      · simp only [Prod.map, id, hg.setRxFlow, hg.event]
    · rfl

theorem fitting (n : Nat) (info : List Byte) : (g s).fitting n info = s.fitting n info := by
  rw [State.fitting, State.fitting, hg.chan]

theorem pushChan (n : Nat) (d : List Byte) : (g s).pushChan n d = g (s.pushChan n d) := by
  rw [State.pushChan, hg.chan, hg.setChan, ← State.pushChan]

theorem overflow (n lost : Nat) : (g s).overflow n lost = g (s.overflow n lost) := by
  rw [State.overflow, hg.chan, hg.setChan, hg.log, ← State.overflow]

theorem storeCounted (n : Nat) (info : List Byte) : (g s).storeCounted n info = g (s.storeCounted n info) := by
  unfold State.storeCounted
  dsimp only
  rw [hg.fitting, hg.pushChan, hg.overflow]
  split <;> rfl

theorem store (n : Nat) (info : List Byte) : (g s).store n info = g (s.store n info) := by
  rw [State.store_eq, State.store_eq, hg.storeCounted, hg.event, hg.fitting]
  split <;> rfl

theorem deliver (n : Nat) (info : List Byte) : (g s).deliver n info = Prod.map id g (s.deliver n info) := by
  rw [State.deliver, State.deliver, hg.store, hg.evalRxFlow]

theorem mustStall (f : Frame) : (g s).mustStall f = s.mustStall f := by
  simp only [State.mustStall, hg.par, hg.chan]

/-! ### Control channel (R184 to R186) -/

theorem peerMsc (v : List Byte) : (g s).peerMsc v = g (s.peerMsc v) := by
  unfold State.peerMsc
  dsimp only
  rw [hg.par, hg.chan, hg.setTxFlow, hg.event, hg.log]
  split
  · split <;> rfl
  · rfl

theorem mscEcho (l : Byte) (v : List Byte) (st : Status) : (g s).mscEcho l v st = Prod.map id g (s.mscEcho l v st) := by
  unfold State.mscEcho
  rw [hg.par, hg.sendControl]
  split
  · rcases s.sendControl ([0xE1, l] ++ v) with ⟨ok, s1⟩
    cases ok
    · simp only [Prod.map, id, hg.log]
    · rfl
  · rfl

theorem controlMessage (t l : Byte) (v : List Byte) (st : Status) :
    (g s).controlMessage t l v st = Prod.map id g (s.controlMessage t l v st) := by
  unfold State.controlMessage
  rw [hg.peerMsc, hg.mscEcho, hg.log]
  split
  · split <;> rfl
  · rfl

/-! ### Answers (R187, R188) -/

theorem matchesWanted (f : Frame) : (g s).matchesWanted f = s.matchesWanted f := by
  rw [State.matchesWanted, State.matchesWanted, hg.chan]

theorem disconnects (f : Frame) : (g s).disconnects f = s.disconnects f := by
  rw [State.disconnects, State.disconnects, hg.chan]

theorem answeredChan (f : Frame) : (g s).answeredChan f = s.answeredChan f := by
  rw [State.answeredChan, State.answeredChan, hg.chan, hg.matchesWanted, hg.disconnects]

theorem answerMask (f : Frame) : (g s).answerMask f = s.answerMask f := by
  rw [State.answerMask, State.answerMask, hg.matchesWanted, hg.disconnects]

theorem dispatchOther (f : Frame) : (g s).dispatchOther f = g (s.dispatchOther f) := by
  unfold State.dispatchOther
  rw [hg.matchesWanted, hg.disconnects, hg.answeredChan, hg.answerMask, hg.setChan, hg.event, hg.log]
  split <;> rfl

end

end Unseen

/-! ### The control loop and the dispatch (R178, R184) -/

namespace UnseenByDispatch

section
variable {g : State → State} (hg : UnseenByDispatch g) (s : State)

include hg

theorem controlLoop (k : Nat) (st : Status) :
    State.controlLoop k st (g s) = Prod.map id g (State.controlLoop k st s) := by
  induction k generalizing st s with
  | zero => rfl
  | succ k ih =>
    unfold State.controlLoop
    dsimp only
    rw [hg.muxHold, hg.setMuxHold, hg.setMuxHold, hg.log, hg.controlMessage]
    split
    · rfl
    · split
      · rfl
      · split
        · rfl
        · exact ih _ _

theorem controlData (info : List Byte) : (g s).controlData info = Prod.map id g (s.controlData info) := by
  unfold State.controlData
  dsimp only
  rw [hg.muxHold, hg.setMuxHold, hg.setMuxHold, hg.log, hg.controlLoop]
  split <;> rfl

theorem dispatchUih (f : Frame) : (g s).dispatchUih f = Prod.map id g (s.dispatchUih f) := by
  unfold State.dispatchUih
  rw [hg.chan, hg.log, hg.controlData, hg.deliver]
  split
  · rfl
  · split <;> rfl

theorem dispatch (f : Frame) : (g s).dispatch f = Prod.map id g (s.dispatch f) := by
  unfold State.dispatch
  rw [hg.par, hg.log, hg.dispatchUih, hg.dispatchOther]
  split
  · rfl
  · split <;> rfl

end

/-! ### Changes that are unseen -/

/-- The receive buffer: a dispatch is handed its frame. -/
theorem of_setMuxRx (q : Fifo) : UnseenByDispatch (·.setMuxRx q) where
  cfg _ := rfl
  env _ := rfl
  chan s n := s.setMuxRx_chan q n
  muxHold s := s.setMuxRx_muxHold q
  emit _ _ := rfl
  setEnv _ _ := rfl
  setChan s n c := by cases h : s.mux <;> simp [State.setChan, State.setMuxRx, State.modMux, h, Mux.setChan]
  setMuxHold s q' := by cases h : s.mux <;> simp [State.setMuxHold, State.setMuxRx, State.modMux, h]

/-- What was traced and returned before (R6, R279). -/
theorem of_history (before : List TraceEntry) (r : Option Result) :
    UnseenByDispatch fun s => { s with out := before ++ s.out, result := r } where
  cfg _ := rfl
  env _ := rfl
  chan _ _ := rfl
  muxHold _ := rfl
  emit s e := by simp [State.emit]
  setEnv _ _ := rfl
  setChan _ _ _ := rfl
  setMuxHold _ _ := rfl

end UnseenByDispatch

/-- The holding buffer: a message is taken from it before it is handled. -/
theorem Unseen.of_setMuxHold (q : Fifo) : Unseen (·.setMuxHold q) where
  cfg _ := rfl
  env _ := rfl
  chan s n := s.setMuxHold_chan q n
  emit _ _ := rfl
  setEnv _ _ := rfl
  setChan s n c := by cases h : s.mux <;> simp [State.setChan, State.setMuxHold, State.modMux, h, Mux.setChan]

end Sys2Proof.Machine

/-! `ON_BYTES_RECEIVED` (41_channel_manager.md R177): its parse loop run to its end, with one equation per answer of `PARSE`. -/

namespace Sys2Proof.Machine

open Sys2Proof

/-! ### Where a parse opens, in parts of a buffer -/

/-- The parse of a buffer works from the index `o` of its opening flag. -/
abbrev OpensIn (buf : List Byte) (o : Nat) : Prop := OpensAt buf.length (fun i => buf.getD i 0) o

/-- From its opening flag on a buffer opens at once. -/
theorem OpensIn.drop {buf : List Byte} {o : Nat} (h : OpensIn buf o) : OpensIn (buf.drop o) 0 := by
  have hpeek (j : Nat) : (buf.drop o).getD j 0 = buf.getD (o + j) 0 := by
    simp only [List.getD_eq_getElem?_getD, List.getElem?_drop]
  have hlt := h.lt
  refine ⟨by rw [List.length_drop]; omega, ⟨0, Nat.le_refl 0, fun j hj => absurd hj (Nat.not_lt_zero j), fun j _ hj => ?_⟩, fun hn => ?_⟩
  · obtain rfl : j = 0 := Nat.le_zero.1 hj
    exact (hpeek 0).trans h.peek_eq
  · rw [List.length_drop] at hn
    exact hpeek 1 ▸ h.last (by omega)

theorem OpensIn.startsAtFlag {buf : List Byte} (h : OpensIn buf 0) : StartsAtFlag buf := by
  obtain ⟨b, rest, rfl⟩ := List.exists_cons_of_length_pos h.lt
  obtain rfl : b = flagByte := h.peek_eq
  refine .inr ⟨rest, rfl, fun e => ?_⟩
  obtain ⟨c, rest, rfl⟩ : ∃ c r, rest = c :: r := by
    cases rest with
    | nil => cases e
    | cons c r => exact ⟨c, r, rfl⟩
  exact h.last (by simp) (Option.some.inj e)

/-- The bytes in front of the opening flag are consumed with every answer (R139, R140). -/
theorem parseBytes_drop_opening (p : Params) (w : AddrFilter) {buf : List Byte} {o : Nat} (h : OpensIn buf o) :
    parseBytes p buf w = (parseBytes p (buf.drop o) w).shift o := by
  have hlen : (buf.take o).length = o := List.length_take_of_le h.lt.le
  have hsplit := List.take_append_drop o buf
  have hopens : OpensIn (buf.take o ++ buf.drop o) ((buf.take o).length + 0) := by rwa [hsplit, hlen]
  have hskip := parseBytes_opens p _ w _ hopens
  rw [parseBytes_opens p _ w _ h.drop]
  rw [List.length_append, parseFrom_shift, hsplit, hlen] at hskip
  rw [hskip]
  congr 2
  funext j
  simp only [List.getD_eq_getElem?_getD, List.getElem?_drop]

/-- Bytes behind an opening flag can only make its run longer. -/
theorem OpensIn.append_run {d ys : List Byte} {o o' : Nat} (h : OpensIn d o) (h' : OpensIn (d.drop o ++ ys) o') :
    OpensIn (d ++ ys) (o + o') := by
  have hpeek (j : Nat) : (d ++ ys).getD (o + j) 0 = (d.drop o ++ ys).getD j 0 := by
    have hlen : (d.take o).length = o := List.length_take_of_le h.lt.le
    rw [← getD_append_length_add (d.take o) (d.drop o ++ ys) j, ← List.append_assoc, List.take_append_drop, hlen]
  have hlow (j : Nat) (hj : j < d.length) : (d ++ ys).getD j 0 = d.getD j 0 := List.getD_append _ _ _ _ hj
  have hlt := h.lt
  have hlt' := h'.lt
  rw [List.length_append, List.length_drop] at hlt'
  obtain ⟨i, hi, hbefore, hrun⟩ := h.first
  obtain ⟨i', hi', hbefore', hrun'⟩ := h'.first
  have hi0 : i' = 0 := by
    by_contra hne
    refine hbefore' 0 (Nat.pos_of_ne_zero hne) ?_
    rw [← hpeek 0, hlow _ (by omega)]
    exact h.peek_eq
  refine ⟨by rw [List.length_append]; omega, ⟨i, by omega, fun j hj => ?before, fun j hij hj => ?run⟩, fun hn => ?last⟩
  case before => rw [hlow j (by omega)]; exact hbefore j hj
  case run =>
    rcases Nat.lt_or_ge j o with hjo | hjo
    · rw [hlow j (by omega)]
      exact hrun j hij hjo.le
    · obtain ⟨k, rfl⟩ := Nat.exists_eq_add_of_le hjo
      rw [hpeek k]
      exact hrun' k (by omega) (by omega)
  case last =>
    rw [List.length_append] at hn
    rw [Nat.add_assoc, hpeek]
    exact h'.last (by rw [List.length_append, List.length_drop]; omega)

/-- `pre` in front of `suf` only moves what a parse finds. -/
def Skips (pre suf : List Byte) : Prop :=
  (∀ b ∈ pre ++ suf, b ≠ flagByte) ∨ ∃ o, OpensIn suf o ∧ OpensIn (pre ++ suf) (pre.length + o)

/-- Noise is skipped (R139). -/
theorem Skips.of_noise {pre : List Byte} (h : ∀ b ∈ pre, b ≠ flagByte) (suf : List Byte) : Skips pre suf := by
  rcases no_flag_or_opensAt suf with hno | ⟨o, ho⟩
  · refine .inl fun b hb => ?_
    rcases List.mem_append.1 hb with hb | hb
    · exact h b hb
    · exact hno b hb
  · exact .inr ⟨o, ho, ho.append_noise h⟩

/-- What stands in front of the opening flag is skipped, whatever is received behind it (R139, R140). -/
theorem Skips.of_opens {d : List Byte} {o : Nat} (h : OpensIn d o) (ys : List Byte) : Skips (d.take o) (d.drop o ++ ys) := by
  have hlen : (d.take o).length = o := List.length_take_of_le h.lt.le
  obtain ⟨o', ho'⟩ : ∃ o', OpensIn (d.drop o ++ ys) o' := by
    refine exists_opensAt _ _ ⟨0, ?_, ?_⟩
    · rw [List.length_append]
      exact Nat.lt_of_lt_of_le h.drop.lt (Nat.le_add_right _ _)
    · exact (List.getD_append _ _ _ _ h.drop.lt).trans h.drop.peek_eq
  refine .inr ⟨o', ho', ?_⟩
  rw [hlen, ← List.append_assoc, List.take_append_drop]
  exact h.append_run ho'

/-! ### A decided parse stays decided -/

theorem readHeader_of_more (p : Params) (m n : Nat) (peek : Nat → Byte) (o hdr ln : Nat) (lf : List Byte)
    (hmn : m ≤ n) (h : readHeader p m peek o = .read hdr ln lf) : readHeader p n peek o = .read hdr ln lf := by
  unfold readHeader at h ⊢
  have h3 : ¬m - o < 3 := fun hs => by rw [if_pos hs] at h; cases h
  rw [if_neg h3] at h
  rw [if_neg (show ¬n - o < 3 by omega)]
  split at h
  case isFalse hp => rwa [if_neg hp]
  case isTrue hp =>
    have h4 : ¬m - o < 4 := fun hs => by rw [if_pos hs] at h; cases h
    rw [if_neg h4] at h
    rw [if_pos hp, if_neg (show ¬n - o < 4 by omega)]
    split at h
    case isTrue hb => rwa [if_pos hb]
    case isFalse hb =>
      have h5 : ¬m - o < 5 := fun hs => by rw [if_pos hs] at h; cases h
      rw [if_neg h5] at h
      rwa [if_neg hb, if_neg (show ¬n - o < 5 by omega)]

/-- More bytes behind a frame do not change what a parse has decided about it. -/
theorem parseFrom_of_more (p : Params) (m n : Nat) (peek : Nat → Byte) (w : AddrFilter) (o : Nat) (hmn : m ≤ n)
    (h : parseFrom p m peek w o ≠ .incomplete o) : parseFrom p n peek w o = parseFrom p m peek w o := by
  unfold parseFrom at h ⊢
  cases hread : readHeader p m peek o with
  | short => rw [hread] at h; exact absurd rfl h
  | read hdr ln lf =>
    rw [hread] at h
    rw [readHeader_of_more p m n peek o hdr ln lf hmn hread]
    dsimp only at h ⊢
    by_cases hlen : p.maxInfoLen < ln
    · rw [judgeFrame_of_too_long _ _ _ _ _ _ _ _ hlen, judgeFrame_of_too_long _ _ _ _ _ _ _ _ hlen]
    · have hm : ¬m - o < hdr + ln + 2 := fun hm =>
        h (judgeFrame_of_missing_bytes p m peek w o hdr ln lf (Nat.le_of_not_lt hlen) hm)
      rw [judgeFrame, judgeFrame, if_neg hlen, if_neg hlen, if_neg hm, if_neg (by omega)]

/-- A parse that is decided has read beyond its opening flag. -/
theorem lt_of_parseFrom_ne_incomplete (p : Params) (n : Nat) (peek : Nat → Byte) (w : AddrFilter) (o : Nat)
    (h : parseFrom p n peek w o ≠ .incomplete o) : o + 1 < n := by
  by_contra hn
  refine h ?_
  unfold parseFrom readHeader
  rw [if_pos (by omega)]

theorem parseBytes_append_of_decided (p : Params) (w : AddrFilter) {d : List Byte} {o : Nat} (ho : OpensIn d o)
    (ys : List Byte) (h : parseBytes p d w ≠ .incomplete o) :
    OpensIn (d ++ ys) o ∧ parseBytes p (d ++ ys) w = parseBytes p d w := by
  rw [parseBytes_opens p d w o ho] at h ⊢
  have hlow (j : Nat) (hj : j < d.length) : d.getD j 0 = (d ++ ys).getD j 0 := (List.getD_append _ _ _ _ hj).symm
  have hlt := lt_of_parseFrom_ne_incomplete p _ _ w o h
  have hle : d.length ≤ (d ++ ys).length := by rw [List.length_append]; omega
  have ho' : OpensIn (d ++ ys) o := by
    obtain ⟨-, hfirst, hlast⟩ := ho.congr hlow
    exact ⟨by omega, hfirst, fun _ => hlast hlt⟩
  refine ⟨ho', ?_⟩
  have hsame := parseFrom_congr p d.length (fun i => d.getD i 0) (fun i => (d ++ ys).getD i 0) w o ho.lt
    fun i _ hi => hlow i hi
  rw [hsame] at h ⊢
  rw [parseBytes_opens p _ w o ho', parseFrom_of_more p d.length _ _ w o hle h]

/-- The wildcard admits every address (R148). -/
theorem judgeFields_any_ne_notFound (a c : Byte) (info : List Byte) (done n : Nat) :
    judgeFields a c info .any done ≠ .notFound n := by
  unfold judgeFields
  split
  · nofun
  · split
    · nofun
    · have hadmit : admits .any (a >>> 2).toNat = true := rfl
      rw [if_pos hadmit]
      nofun

/-- With the wildcard nothing is not found but a flag (R139, R148). -/
theorem parseBytes_any_notFound (p : Params) (buf : List Byte) (n : Nat) (h : parseBytes p buf .any = .notFound n) :
    n = buf.length ∧ ∀ b ∈ buf, b ≠ flagByte := by
  rcases no_flag_or_opensAt buf with hno | ⟨o, ho⟩
  · rw [parseBytes_no_flag p buf .any hno] at h
    exact ⟨(ParseResult.notFound.inj h).symm, hno⟩
  · rw [parseBytes_opens p buf .any o ho] at h
    rcases parseFrom_cases p buf.length (fun i => buf.getD i 0) .any o with e | ⟨-, e⟩ | ⟨hdr, ln, lf, -, -, -, -, e⟩ <;>
      rw [e] at h
    · cases h
    · cases h
    · split at h
      · cases h
      · exact absurd h (judgeFields_any_ne_notFound _ _ _ _ n)

/-- A parse that waits, waits at its opening flag. -/
theorem parseBytes_incomplete (p : Params) (w : AddrFilter) (buf : List Byte) (n : Nat)
    (h : parseBytes p buf w = .incomplete n) : OpensIn buf n := by
  rcases no_flag_or_opensAt buf with hno | ⟨o, ho⟩
  · rw [parseBytes_no_flag p buf w hno] at h
    cases h
  · have hfrom := parseBytes_opens p buf w o ho
    rcases parseFrom_consumed p buf.length (fun i => buf.getD i 0) w o ho.lt with e | ⟨hst, -⟩
    · rw [h, e] at hfrom
      rwa [ParseResult.incomplete.inj hfrom]
    · rw [← hfrom, h] at hst
      exact absurd rfl hst

/-- A decided parse opens somewhere, and consumes something beyond that. -/
theorem parseBytes_decided (p : Params) (buf : List Byte) (h : ∀ n, parseBytes p buf .any ≠ .incomplete n)
    (h' : ∀ n, parseBytes p buf .any ≠ .notFound n) : ∃ o, OpensIn buf o ∧ o < (parseBytes p buf .any).consumed ∧
      (parseBytes p buf .any).consumed ≤ buf.length := by
  rcases no_flag_or_opensAt buf with hno | ⟨o, ho⟩
  · exact absurd (parseBytes_no_flag p buf .any hno) (h' _)
  · refine ⟨o, ho, ?_⟩
    rw [parseBytes_opens p buf .any o ho] at h ⊢
    exact ((parseFrom_consumed p buf.length (fun i => buf.getD i 0) .any o ho.lt).resolve_left (h o)).2

/-! ### The receive buffer under the loop's steps -/

namespace State

section
variable (s : State)

theorem setMuxRx_self : s.setMuxRx s.muxRx = s := by
  rcases s with ⟨cfg, mux, fg, env, requests, result, out⟩
  cases mux <;> rfl

theorem setMuxRx_setMuxRx (q q' : Fifo) : (s.setMuxRx q).setMuxRx q' = s.setMuxRx q' := by
  rcases s with ⟨cfg, mux, fg, env, requests, result, out⟩
  cases mux <;> rfl

theorem muxRx_of_not_enabled (h : s.enabled = false) : s.muxRx = Fifo.empty 0 := by
  rw [muxRx, s.enabled_eq_false_iff.1 h]

/-- Reading back what `Advance(mux.rx, n)` leaves: with no context there is nothing in either. -/
theorem advanceRx_muxRx (n : Nat) : (s.advanceRx n).muxRx = s.muxRx.advance n := by
  cases h : s.enabled with
  | true => exact s.setMuxRx_muxRx h _
  | false =>
    have he : (s.advanceRx n).enabled = s.enabled := s.setMuxRx_enabled _
    rw [muxRx_of_not_enabled _ (he.trans h), s.muxRx_of_not_enabled h]
    exact congrArg (Fifo.mk 0) (List.drop_nil (i := n)).symm

theorem advanceRx_chan (n k : Nat) : (s.advanceRx n).chan k = s.chan k := s.setMuxRx_chan _ k

theorem advanceRx_advanceRx (m n : Nat) : (s.advanceRx m).advanceRx n = s.advanceRx (m + n) := by
  rw [advanceRx, advanceRx_muxRx, advanceRx, setMuxRx_setMuxRx, advanceRx]
  refine congrArg s.setMuxRx (congrArg (Fifo.mk s.muxRx.cap) ?_)
  simp only [Fifo.advance_data, List.drop_drop]

theorem advanceRx_zero : s.advanceRx 0 = s := s.setMuxRx_self

/-- A dispatch leaves the receive buffer alone. -/
theorem dispatch_muxRx (f : Frame) : (s.dispatch f).2.muxRx = s.muxRx := by
  have hran := s.dispatch_ran f
  cases h : s.enabled with
  | true =>
    have hself := (UnseenByDispatch.of_setMuxRx s.muxRx).dispatch s f
    rw [s.setMuxRx_self] at hself
    have hsnd : (s.dispatch f).2 = (s.dispatch f).2.setMuxRx s.muxRx := congrArg Prod.snd hself
    rw [hsnd]
    exact setMuxRx_muxRx _ (hran.enabled.trans h) _
  | false => rw [muxRx_of_not_enabled _ (hran.enabled.trans h), s.muxRx_of_not_enabled h]

theorem stalls_advanceRx_iff (n : Nat) (f : Frame) : (s.advanceRx n).Stalls f ↔ s.Stalls f := by
  unfold Stalls
  rw [advanceRx_chan]
  exact Iff.rfl

end

/-! ### The loop run to its end -/

/-- The parse loop with all the rounds it can take (R177). -/
def settle (s : State) : Status × State := rxLoop (s.muxRx.used + 1) .ok s

theorem receive_eq_settle (s : State) (bytes : List Byte) : s.receive bytes = (s.feed bytes).settle := rfl

/-- A decided parse takes a byte at least (R150), so the next round has fewer in its buffer. -/
theorem used_advanceRx_lt (s : State) (r : ParseResult) (h : parseFifo s.par s.muxRx .any = r) (hi : ∀ n, r ≠ .incomplete n)
    (hn : ∀ n, r ≠ .notFound n) : (s.advanceRx r.consumed).muxRx.used < s.muxRx.used := by
  subst h
  obtain ⟨o, -, hlt, hle⟩ := parseBytes_decided s.par s.muxRx.data hi hn
  rw [advanceRx_muxRx]
  simp only [Fifo.used, Fifo.advance_data, List.length_drop]
  have h := Nat.lt_of_le_of_lt (Nat.zero_le o) hlt
  have e : (parseFifo s.par s.muxRx .any).consumed = (parseBytes s.par s.muxRx.data .any).consumed := rfl
  omega

/-- More rounds than the buffer has bytes change nothing. -/
theorem rxLoop_rounds : ∀ (k k' : Nat) (st : Status) (s : State), s.muxRx.used < k → s.muxRx.used < k' →
    rxLoop k st s = rxLoop k' st s := by
  intro k
  induction k with
  | zero => exact fun k' st s h _ => absurd h (Nat.not_lt_zero _)
  | succ k ih =>
    intro k' st s h h'
    obtain ⟨k', rfl⟩ := Nat.exists_eq_succ_of_ne_zero (Nat.ne_zero_of_lt h')
    have hless := used_advanceRx_lt s _ rfl
    unfold rxLoop
    cases hr : parseFifo s.par s.muxRx .any with
    | incomplete n => rfl
    | notFound n =>
      obtain ⟨rfl, -⟩ := parseBytes_any_notFound s.par s.muxRx.data n hr
      have hempty : (s.advanceRx s.muxRx.data.length).muxRx.used = 0 := by
        rw [advanceRx_muxRx, Fifo.used, Fifo.advance_data, List.drop_length, List.length_nil]
      dsimp only
      rw [if_pos hempty, if_pos hempty]
    | fcsError n =>
      have hlt := hr ▸ hless (hr ▸ nofun) (hr ▸ nofun)
      exact ih k' _ _ (by simp only [log_muxRx]; exact Nat.lt_of_lt_of_le hlt (Nat.le_of_lt_succ h))
        (by simp only [log_muxRx]; exact Nat.lt_of_lt_of_le hlt (Nat.le_of_lt_succ h'))
    | malformed n =>
      have hlt := hr ▸ hless (hr ▸ nofun) (hr ▸ nofun)
      exact ih k' _ _ (by simp only [log_muxRx]; exact Nat.lt_of_lt_of_le hlt (Nat.le_of_lt_succ h))
        (by simp only [log_muxRx]; exact Nat.lt_of_lt_of_le hlt (Nat.le_of_lt_succ h'))
    | frame n f =>
      have hlt := hr ▸ hless (hr ▸ nofun) (hr ▸ nofun)
      dsimp only
      split
      · rfl
      · exact ih k' _ _ (by rw [dispatch_muxRx]; exact Nat.lt_of_lt_of_le hlt (Nat.le_of_lt_succ h))
          (by rw [dispatch_muxRx]; exact Nat.lt_of_lt_of_le hlt (Nat.le_of_lt_succ h'))

end State
end Sys2Proof.Machine

/-! What `ON_BYTES_RECEIVED` does (41_channel_manager.md R177 to R181), from the equations of its settled loop. -/

namespace Sys2Proof.Machine

open Sys2Proof

/-! ### A parse answer from the opening flag on -/

/-- A parse answer whose bytes in front of the opening flag are gone. -/
theorem parseBytes_drop_eq {p : Params} {buf : List Byte} {o : Nat} {r : ParseResult} (ho : OpensIn buf o)
    (h : parseBytes p buf .any = r.shift o) : parseBytes p (buf.drop o) .any = r := by
  rw [parseBytes_drop_opening p .any ho] at h
  cases hr : parseBytes p (buf.drop o) .any <;> cases r <;> rw [hr] at h <;>
    simp only [ParseResult.shift, ParseResult.frame.injEq, ParseResult.notFound.injEq, ParseResult.incomplete.injEq,
      ParseResult.fcsError.injEq, ParseResult.malformed.injEq, Nat.add_left_cancel_iff, reduceCtorEq] at h ⊢ <;> exact h

/-- The frame a parse answers ends behind its opening flag. -/
theorem parseBytes_drop_frame {p : Params} {buf : List Byte} {o n : Nat} {f : Frame} (ho : OpensIn buf o)
    (h : parseBytes p buf .any = .frame n f) : o ≤ n ∧ parseBytes p (buf.drop o) .any = .frame (n - o) f := by
  have hlt : o ≤ n := by
    have hfrom := parseFrom_consumed p buf.length (fun i => buf.getD i 0) .any o ho.lt
    rw [← parseBytes_opens p buf .any o ho, h] at hfrom
    exact (hfrom.resolve_left nofun).2.1.le
  exact ⟨hlt, parseBytes_drop_eq ho (h.trans (congrArg (ParseResult.frame · f) (Nat.add_sub_cancel' hlt).symm))⟩

namespace State

/-! ### One equation per answer of `PARSE` (R177) -/

section
variable {s : State} {n : Nat}

theorem settle_of_incomplete (h : parseBytes s.par s.muxRx.data .any = .incomplete n) : s.settle = (.ok, s.advanceRx n) := by
  have h : parseFifo s.par s.muxRx .any = .incomplete n := h
  rw [settle, rxLoop, h]

theorem settle_of_notFound (h : parseBytes s.par s.muxRx.data .any = .notFound n) : s.settle = (.ok, s.advanceRx n) := by
  obtain ⟨rfl, -⟩ := parseBytes_any_notFound s.par s.muxRx.data n h
  have h : parseFifo s.par s.muxRx .any = .notFound s.muxRx.data.length := h
  have hempty : (s.advanceRx s.muxRx.data.length).muxRx.used = 0 := by
    rw [advanceRx_muxRx, Fifo.used, Fifo.advance_data, List.drop_length, List.length_nil]
  rw [settle, rxLoop, h]
  exact if_pos hempty

theorem used_advanceRx_lt_of_fcsError (h : parseBytes s.par s.muxRx.data .any = .fcsError n) :
    (s.advanceRx n).muxRx.used < s.muxRx.used := used_advanceRx_lt s (.fcsError n) h nofun nofun

theorem used_advanceRx_lt_of_malformed (h : parseBytes s.par s.muxRx.data .any = .malformed n) :
    (s.advanceRx n).muxRx.used < s.muxRx.used := used_advanceRx_lt s (.malformed n) h nofun nofun

theorem used_advanceRx_lt_of_frame {f : Frame} (h : parseBytes s.par s.muxRx.data .any = .frame n f) :
    (s.advanceRx n).muxRx.used < s.muxRx.used := used_advanceRx_lt s (.frame n f) h nofun nofun

theorem settle_of_fcsError (h : parseBytes s.par s.muxRx.data .any = .fcsError n) :
    s.settle = ((s.advanceRx n).log .protocolFcsError).settle := by
  have hr : parseFifo s.par s.muxRx .any = .fcsError n := h
  rw [settle, rxLoop, hr]
  exact rxLoop_rounds _ _ _ _ (used_advanceRx_lt_of_fcsError h) (Nat.lt_succ_self _)

theorem settle_of_malformed (h : parseBytes s.par s.muxRx.data .any = .malformed n) :
    s.settle = ((s.advanceRx n).log .protocolMalformed).settle := by
  have hr : parseFifo s.par s.muxRx .any = .malformed n := h
  rw [settle, rxLoop, hr]
  exact rxLoop_rounds _ _ _ _ (used_advanceRx_lt_of_malformed h) (Nat.lt_succ_self _)

theorem settle_of_stall {f : Frame} (h : parseBytes s.par s.muxRx.data .any = .frame n f) (hs : s.Stalls f) {o : Nat}
    (ho : OpensIn s.muxRx.data o) : s.settle = (.stalled, s.advanceRx o) := by
  have hr : parseFifo s.par s.muxRx .any = .frame n f := h
  have hopen : openingFlag s.muxRx.used s.muxRx.peek = o := (openingFlag_eq _ _ o ho).1
  rw [settle, rxLoop, hr]
  dsimp only
  rw [if_pos ((s.mustStall_iff f).2 hs), hopen]
  rfl

theorem settle_of_frame {f : Frame} (h : parseBytes s.par s.muxRx.data .any = .frame n f) (hs : ¬s.Stalls f) : s.settle =
    (keepFirst ((s.advanceRx n).dispatch f).1 ((s.advanceRx n).dispatch f).2.settle.1,
      ((s.advanceRx n).dispatch f).2.settle.2) := by
  have hr : parseFifo s.par s.muxRx .any = .frame n f := h
  have hlt : ((s.advanceRx n).dispatch f).2.muxRx.used < s.muxRx.used := by
    rw [dispatch_muxRx]
    exact used_advanceRx_lt_of_frame h
  rw [settle, rxLoop, hr]
  dsimp only
  rw [if_neg fun e => hs ((s.mustStall_iff f).1 e), rxLoop_status, rxLoop_rounds _ _ _ _ hlt (Nat.lt_succ_self _)]
  rfl

end

/-- What holds of a state when it holds of every state with less in its receive buffer, holds of every state. -/
theorem receive_induct {P : State → Prop} (h : ∀ s, (∀ t : State, t.muxRx.used < s.muxRx.used → P t) → P s) (s : State) : P s :=
  (measure fun s : State => s.muxRx.used).wf.induction s h

/-! ### Bytes in front, bytes behind -/

/-- Bytes that only move what a parse finds might as well be gone. -/
theorem settle_skip {s : State} {pre suf : List Byte} (hd : s.muxRx.data = pre ++ suf) (h : Skips pre suf) :
    s.settle = (s.advanceRx pre.length).settle := by
  have hsuf : (s.advanceRx pre.length).muxRx.data = suf := by
    rw [advanceRx_muxRx, Fifo.advance_data, hd, List.drop_left]
  rcases h with hno | ⟨o, ho, hpo⟩
  case inl =>
    have hs := settle_of_notFound (s := s) (by rw [hd]; exact parseBytes_no_flag s.par _ .any hno)
    have ht := settle_of_notFound (s := s.advanceRx pre.length)
      (by rw [hsuf]; exact parseBytes_no_flag s.par _ .any fun b hb => hno b (List.mem_append_right _ hb))
    rw [hs, ht, advanceRx_advanceRx, List.length_append]
  case inr =>
    have hshift : parseBytes s.par s.muxRx.data .any = (parseBytes s.par suf .any).shift pre.length := by
      rw [hd, parseBytes_drop_opening s.par .any hpo, parseBytes_drop_opening s.par .any ho, List.drop_append,
        List.drop_eq_nil_of_le (Nat.le_add_right _ _), List.nil_append, Nat.add_sub_cancel_left]
      cases parseBytes s.par (suf.drop o) .any <;> simp only [ParseResult.shift, Nat.add_assoc]
    have hpar : parseBytes (s.advanceRx pre.length).par (s.advanceRx pre.length).muxRx.data .any = parseBytes s.par suf .any := by
      rw [hsuf]
      rfl
    have hadv (n : Nat) : s.advanceRx (pre.length + n) = (s.advanceRx pre.length).advanceRx n :=
      (s.advanceRx_advanceRx _ _).symm
    cases hr : parseBytes s.par suf .any with
    | incomplete n =>
      rw [hr] at hshift
      rw [settle_of_incomplete (n := pre.length + n) hshift, settle_of_incomplete (hpar.trans hr), hadv]
    | notFound n =>
      rw [hr] at hshift
      rw [settle_of_notFound (n := pre.length + n) hshift, settle_of_notFound (hpar.trans hr), hadv]
    | fcsError n =>
      rw [hr] at hshift
      rw [settle_of_fcsError (n := pre.length + n) hshift, settle_of_fcsError (hpar.trans hr), hadv]
    | malformed n =>
      rw [hr] at hshift
      rw [settle_of_malformed (n := pre.length + n) hshift, settle_of_malformed (hpar.trans hr), hadv]
    | frame n f =>
      rw [hr] at hshift
      by_cases hst : s.Stalls f
      · rw [settle_of_stall (n := pre.length + n) hshift hst (hd ▸ hpo),
          settle_of_stall (hpar.trans hr) ((s.stalls_advanceRx_iff _ f).2 hst) (hsuf.symm ▸ ho), hadv]
      · rw [settle_of_frame (n := pre.length + n) hshift hst,
          settle_of_frame (hpar.trans hr) fun e => hst ((s.stalls_advanceRx_iff _ f).1 e), hadv]

/-- `mux.rx` with bytes appended, whether or not they fit. -/
def appendRx (s : State) (ys : List Byte) : State := s.setMuxRx (s.muxRx.push ys)

theorem appendRx_enabled (s : State) (ys : List Byte) : (s.appendRx ys).enabled = s.enabled := s.setMuxRx_enabled _

theorem appendRx_muxRx {s : State} (he : s.enabled = true) (ys : List Byte) : (s.appendRx ys).muxRx = s.muxRx.push ys :=
  s.setMuxRx_muxRx he _

/-- Taking from the front and appending at the back commute. -/
theorem appendRx_advanceRx {s : State} (he : s.enabled = true) (ys : List Byte) {n : Nat} (hn : n ≤ s.muxRx.data.length) :
    (s.appendRx ys).advanceRx n = (s.advanceRx n).appendRx ys := by
  have hdrop : (s.muxRx.push ys).advance n = (s.muxRx.advance n).push ys :=
    congrArg (Fifo.mk s.muxRx.cap) (List.drop_append_of_le_length hn)
  rw [advanceRx, appendRx_muxRx he, appendRx, setMuxRx_setMuxRx, hdrop, appendRx, advanceRx_muxRx, advanceRx,
    setMuxRx_setMuxRx]

/-- Bytes that arrive behind what was settled have the effect of having been there from the start (R155). -/
theorem settle_appendRx (ys : List Byte) (s : State) (he : s.enabled = true) :
    (s.appendRx ys).settle.2 = (s.settle.2.appendRx ys).settle.2 := by
  induction s using receive_induct with
  | h s ih =>
  have hdata : (s.appendRx ys).muxRx.data = s.muxRx.data ++ ys := by rw [appendRx_muxRx he, Fifo.push_data]
  have hskip {o : Nat} (ho : OpensIn s.muxRx.data o) : (s.appendRx ys).settle = ((s.advanceRx o).appendRx ys).settle := by
    have hlen : (s.muxRx.data.take o).length = o := List.length_take_of_le ho.lt.le
    rw [← appendRx_advanceRx he ys ho.lt.le, settle_skip (pre := s.muxRx.data.take o) (suf := s.muxRx.data.drop o ++ ys)
      (by rw [hdata, ← List.append_assoc, List.take_append_drop]) (Skips.of_opens ho ys), hlen]
  have hdecided (hi : ∀ n, parseBytes s.par s.muxRx.data .any ≠ .incomplete n)
      (hn : ∀ n, parseBytes s.par s.muxRx.data .any ≠ .notFound n) : ∃ o, OpensIn s.muxRx.data o ∧
      parseBytes (s.appendRx ys).par (s.appendRx ys).muxRx.data .any = parseBytes s.par s.muxRx.data .any ∧
      (s.appendRx ys).advanceRx (parseBytes s.par s.muxRx.data .any).consumed =
        (s.advanceRx (parseBytes s.par s.muxRx.data .any).consumed).appendRx ys := by
    obtain ⟨o, ho, -, hle⟩ := parseBytes_decided s.par s.muxRx.data hi hn
    refine ⟨o, ho, ?_, appendRx_advanceRx he ys hle⟩
    rw [hdata]
    exact (parseBytes_append_of_decided s.par .any ho ys (hi o)).2
  cases hr : parseBytes s.par s.muxRx.data .any with
  | incomplete n => rw [settle_of_incomplete hr, hskip (parseBytes_incomplete s.par .any _ n hr)]
  | notFound n =>
    obtain ⟨rfl, hno⟩ := parseBytes_any_notFound s.par _ n hr
    rw [settle_of_notFound hr, ← appendRx_advanceRx he ys (Nat.le_refl _), settle_skip hdata (Skips.of_noise hno ys)]
  | fcsError n =>
    obtain ⟨o, ho, hsame, hadv⟩ := hdecided (hr ▸ nofun) (hr ▸ nofun)
    rw [hr] at hsame hadv
    rw [settle_of_fcsError hsame, settle_of_fcsError hr, ← ih ((s.advanceRx n).log .protocolFcsError) (used_advanceRx_lt_of_fcsError hr)
      (((s.advanceRx n).log_enabled _).trans ((s.setMuxRx_enabled _).trans he))]
    exact congrArg (fun u : State => (u.log .protocolFcsError).settle.2) hadv
  | malformed n =>
    obtain ⟨o, ho, hsame, hadv⟩ := hdecided (hr ▸ nofun) (hr ▸ nofun)
    rw [hr] at hsame hadv
    rw [settle_of_malformed hsame, settle_of_malformed hr, ← ih ((s.advanceRx n).log .protocolMalformed) (used_advanceRx_lt_of_malformed hr)
      (((s.advanceRx n).log_enabled _).trans ((s.setMuxRx_enabled _).trans he))]
    exact congrArg (fun u : State => (u.log .protocolMalformed).settle.2) hadv
  | frame n f =>
    obtain ⟨o, ho, hsame, hadv⟩ := hdecided (hr ▸ nofun) (hr ▸ nofun)
    rw [hr] at hsame hadv
    have hstalls : (s.appendRx ys).Stalls f ↔ s.Stalls f := by
      unfold Stalls
      rw [appendRx, setMuxRx_chan]
      exact Iff.rfl
    by_cases hst : s.Stalls f
    · rw [settle_of_stall hr hst ho, hskip ho]
    · have hrx := (s.advanceRx n).dispatch_muxRx f
      rw [settle_of_frame hsame fun e => hst (hstalls.1 e), settle_of_frame hr hst, ← ih ((s.advanceRx n).dispatch f).2
        (by rw [hrx]; exact used_advanceRx_lt_of_frame hr)
        (((s.advanceRx n).dispatch_ran f).enabled.trans ((s.setMuxRx_enabled _).trans he))]
      dsimp only [ParseResult.consumed] at hadv
      rw [hadv, appendRx, (UnseenByDispatch.of_setMuxRx _).dispatch, appendRx, hrx]
      rfl

/-! ### What settling leaves -/

/-- Settling only takes bytes from the front. -/
theorem settle_muxRx (s : State) : ∃ k, s.settle.2.muxRx = s.muxRx.advance k := by
  induction s using receive_induct with
  | h s ih =>
  have hgo (n : Nat) (u : State) (hu : u.muxRx = (s.advanceRx n).muxRx) (hlt : (s.advanceRx n).muxRx.used < s.muxRx.used) :
      ∃ k, u.settle.2.muxRx = s.muxRx.advance k := by
    obtain ⟨k, hk⟩ := ih u (hu ▸ hlt)
    refine ⟨n + k, ?_⟩
    rw [hk, hu, advanceRx_muxRx]
    exact congrArg (Fifo.mk s.muxRx.cap) (List.drop_drop (i := k) (j := n) (l := s.muxRx.data))
  cases hr : parseBytes s.par s.muxRx.data .any with
  | incomplete n => exact ⟨n, by rw [settle_of_incomplete hr, advanceRx_muxRx]⟩
  | notFound n => exact ⟨n, by rw [settle_of_notFound hr, advanceRx_muxRx]⟩
  | fcsError n =>
    rw [settle_of_fcsError hr]
    exact hgo n _ rfl (used_advanceRx_lt_of_fcsError hr)
  | malformed n =>
    rw [settle_of_malformed hr]
    exact hgo n _ rfl (used_advanceRx_lt_of_malformed hr)
  | frame n f =>
    by_cases hst : s.Stalls f
    · obtain ⟨o, ho, -⟩ := parseBytes_decided s.par s.muxRx.data (hr ▸ nofun) (hr ▸ nofun)
      exact ⟨o, by rw [settle_of_stall hr hst ho, advanceRx_muxRx]⟩
    · rw [settle_of_frame hr hst]
      exact hgo n _ ((s.advanceRx n).dispatch_muxRx f) (used_advanceRx_lt_of_frame hr)

/-- When the loop ends, nothing more can be taken (R23, R177). -/
theorem settle_rxSettled (s : State) : s.settle.2.RxSettled := by
  induction s using receive_induct with
  | h s ih =>
  have hopen {o : Nat} (ho : OpensIn s.muxRx.data o) : StartsAtFlag (s.advanceRx o).muxRx.data := by
    rw [advanceRx_muxRx]
    exact ho.drop.startsAtFlag
  cases hr : parseBytes s.par s.muxRx.data .any with
  | incomplete n =>
    have ho := parseBytes_incomplete s.par .any _ n hr
    rw [settle_of_incomplete hr]
    refine ⟨hopen ho, .inr (.inl ?_)⟩
    rw [advanceRx_muxRx]
    exact parseBytes_drop_eq ho hr
  | notFound n =>
    obtain ⟨rfl, -⟩ := parseBytes_any_notFound s.par _ n hr
    have hempty : (s.advanceRx s.muxRx.data.length).muxRx.data = [] := by
      rw [advanceRx_muxRx, Fifo.advance_data, List.drop_length]
    rw [settle_of_notFound hr]
    exact ⟨.inl hempty, .inl hempty⟩
  | fcsError n =>
    rw [settle_of_fcsError hr]
    exact ih _ (used_advanceRx_lt_of_fcsError hr)
  | malformed n =>
    rw [settle_of_malformed hr]
    exact ih _ (used_advanceRx_lt_of_malformed hr)
  | frame n f =>
    by_cases hst : s.Stalls f
    · obtain ⟨o, ho, -⟩ := parseBytes_decided s.par s.muxRx.data (hr ▸ nofun) (hr ▸ nofun)
      rw [settle_of_stall hr hst ho]
      refine ⟨hopen ho, .inr (.inr ⟨n - o, f, ?_, (s.stalls_advanceRx_iff o f).2 hst⟩)⟩
      rw [advanceRx_muxRx]
      exact (parseBytes_drop_frame ho hr).2
    · rw [settle_of_frame hr hst]
      exact ih _ (by rw [dispatch_muxRx]; exact used_advanceRx_lt_of_frame hr)

end State
end Sys2Proof.Machine

/-! `ReceivePart`: what holds of each thing that reception can do holds of `ON_BYTES_RECEIVED`; and the statements about
reception that follow from the equations of the settled loop. -/

namespace Sys2Proof.Machine

open Sys2Proof

namespace State

/-! ### The control loop's status and rounds (R184) -/

/-- The control loop's status is the first that is not `Ok`, as the parse loop's is. -/
theorem controlLoop_keepFirst (k : Nat) (st : Status) (s : State) (hst : st = .ok ∨ st = .transportError) :
    controlLoop k st s = (keepFirst st (controlLoop k .ok s).1, (controlLoop k .ok s).2) := by
  obtain ⟨hsnd, hfst⟩ := controlLoop_status k st s
  refine Prod.ext ?_ hsnd
  rcases hfst with ⟨h, h'⟩ | ⟨h, h'⟩
  · rw [h, h', keepFirst_ok]
  · rw [h, h']
    rcases hst with rfl | rfl <;> rfl

theorem controlMessage_ok_status (s : State) (t l : Byte) (v : List Byte) :
    (s.controlMessage t l v .ok).1 = .ok ∨ (s.controlMessage t l v .ok).1 = .transportError :=
  (s.controlMessage_status t l v .ok).2.imp And.left And.left

theorem evalRxFlow_status (s : State) (n : Nat) : (s.evalRxFlow n).1 = .ok ∨ (s.evalRxFlow n).1 = .transportError := by
  rcases s.evalRxFlow_cases n with h | ⟨off, -, ⟨-, h⟩ | ⟨-, h⟩⟩ <;> rw [h]
  · exact .inl rfl
  · exact .inl rfl
  · exact .inr rfl

theorem controlLoop_ok_status (k : Nat) (s : State) :
    (controlLoop k .ok s).1 = .ok ∨ (controlLoop k .ok s).1 = .transportError :=
  (controlLoop_status k .ok s).2.imp And.left And.left

theorem controlData_status (s : State) (info : List Byte) :
    (s.controlData info).1 = .ok ∨ (s.controlData info).1 = .transportError := by
  unfold controlData
  dsimp only
  split
  · exact .inl rfl
  · exact controlLoop_ok_status _ _

/-- A dispatch ends well or with a send that failed: only a stall ends reception with another status. -/
theorem dispatch_status (s : State) (f : Frame) : (s.dispatch f).1 = .ok ∨ (s.dispatch f).1 = .transportError := by
  unfold dispatch dispatchUih
  split
  · exact .inl rfl
  · split
    · split
      · exact .inl rfl
      · split
        · exact controlData_status s _
        · exact evalRxFlow_status _ _
    · exact .inl rfl

/-- A message leaves the holding buffer alone. -/
theorem controlMessage_muxHold (s : State) (t l : Byte) (v : List Byte) (st : Status) :
    (s.controlMessage t l v st).2.muxHold = s.muxHold := by
  have hpeer : (s.peerMsc v).muxHold = s.muxHold := by
    unfold peerMsc
    dsimp only
    split
    · split <;> simp
    · rfl
  unfold controlMessage
  split
  · split
    · exact (mscEcho_ran _ l v st).muxHold.trans hpeer
    · rfl
  · rfl

end State

/-! ### Reception, part by part -/

/-- `P s st t` holds of each thing reception can do from `s` to `t` with status `st`, and of what is chained from such things. -/
structure ReceivePart (P : State → Status → State → Prop) : Prop where
  refl (s : State) : P s .ok s
  trans {s t u : State} {a b : Status} : a = .ok ∨ a = .transportError → P s a t → P t b u → P s (State.keepFirst a b) u
  feed (s : State) (bytes : List Byte) : P s .ok (s.feed bytes)
  take (s : State) (n : Nat) : P s .ok (s.advanceRx n)
  stall (s : State) (f : Frame) (n : Nat) : s.Stalls f → P s .stalled (s.advanceRx n)
  log (s : State) (e : LogEntry) : P s .ok (s.log e)
  hold (s : State) (q : Fifo) : q.cap = s.muxHold.cap → (s.muxHold.wf = true → q.wf = true) → P s .ok (s.setMuxHold q)
  peer (s : State) (v : List Byte) : P s .ok (s.peerMsc v)
  echo (s : State) (l : Byte) (v : List Byte) : P s (s.mscEcho l v .ok).1 (s.mscEcho l v .ok).2
  deliver (s : State) (n : Nat) (info : List Byte) : 1 ≤ n → n ≤ s.par.maxChannels → (s.chan n).state = .opened →
    P s (s.deliver n info).1 (s.deliver n info).2
  other (s : State) (f : Frame) : f.address ≤ s.par.maxChannels → P s .ok (s.dispatchOther f)

namespace ReceivePart

variable {P : State → Status → State → Prop} (hP : ReceivePart P)
include hP

theorem controlMessage (s : State) (t l : Byte) (v : List Byte) :
    P s (s.controlMessage t l v .ok).1 (s.controlMessage t l v .ok).2 := by
  unfold State.controlMessage
  split
  · split
    · exact hP.trans (.inl rfl) (hP.peer s v) (hP.echo _ l v)
    · exact hP.refl s
  · exact hP.log s _

theorem controlLoop (k : Nat) (s : State) : P s (State.controlLoop k .ok s).1 (State.controlLoop k .ok s).2 := by
  induction k generalizing s with
  | zero => exact hP.refl s
  | succ k ih =>
    unfold State.controlLoop
    dsimp only
    split
    · exact hP.refl s
    · split
      · exact hP.trans (.inl rfl) (hP.hold s { s.muxHold with data := [] } rfl fun _ => s.muxHold.clear_wf) (hP.log _ _)
      · split
        · exact hP.refl s
        · have htake := hP.hold s _ (Fifo.advance_cap _ _) (Fifo.advance_wf _ (2 + (s.muxHold.peek 1).toNat / 2))
          have hmsg := State.controlMessage_ok_status (s.setMuxHold (s.muxHold.advance (2 + (s.muxHold.peek 1).toNat / 2)))
            (s.muxHold.peek 0) (s.muxHold.peek 1) ((s.muxHold.data.drop 2).take ((s.muxHold.peek 1).toNat / 2))
          rw [State.controlLoop_keepFirst _ _ _ hmsg]
          exact hP.trans hmsg (hP.trans (.inl rfl) htake (hP.controlMessage _ _ _ _)) (ih _)

theorem controlData (s : State) (info : List Byte) : P s (s.controlData info).1 (s.controlData info).2 := by
  unfold State.controlData
  dsimp only
  split
  · exact hP.trans (.inl rfl) (hP.hold s { s.muxHold with data := [] } rfl fun _ => s.muxHold.clear_wf) (hP.log _ _)
  · next hfit =>
    have hpush := hP.hold s (s.muxHold.push info) rfl fun h => Fifo.push_wf _ _ h (Nat.le_of_not_lt hfit)
    exact hP.trans (.inl rfl) hpush (hP.controlLoop _ _)

theorem dispatch (s : State) (f : Frame) : P s (s.dispatch f).1 (s.dispatch f).2 := by
  unfold State.dispatch State.dispatchUih
  split
  · exact hP.log s _
  · next hn =>
    split
    · split
      · exact hP.log s _
      · next ho =>
        split
        · exact hP.controlData s _
        · next h0 =>
          exact hP.deliver s _ _ (Nat.one_le_iff_ne_zero.2 h0) (Nat.le_of_not_lt hn) (not_not.1 ho)
    · exact hP.other s f (Nat.le_of_not_lt hn)

theorem settle (s : State) : P s s.settle.1 s.settle.2 := by
  induction s using State.receive_induct with
  | h s ih =>
  cases hr : parseBytes s.par s.muxRx.data .any with
  | incomplete n => rw [State.settle_of_incomplete hr]; exact hP.take s n
  | notFound n => rw [State.settle_of_notFound hr]; exact hP.take s n
  | fcsError n =>
    rw [State.settle_of_fcsError hr]
    exact hP.trans (.inl rfl) (hP.trans (.inl rfl) (hP.take s n) (hP.log _ _)) (ih _ (State.used_advanceRx_lt_of_fcsError hr))
  | malformed n =>
    rw [State.settle_of_malformed hr]
    exact hP.trans (.inl rfl) (hP.trans (.inl rfl) (hP.take s n) (hP.log _ _)) (ih _ (State.used_advanceRx_lt_of_malformed hr))
  | frame n f =>
    by_cases hst : s.Stalls f
    · obtain ⟨o, ho, -⟩ := parseBytes_decided s.par s.muxRx.data (hr ▸ nofun) (hr ▸ nofun)
      rw [State.settle_of_stall hr hst ho]
      exact hP.stall s f o hst
    · rw [State.settle_of_frame hr hst]
      exact hP.trans (State.dispatch_status _ f) (hP.trans (.inl rfl) (hP.take s n) (hP.dispatch _ f))
        (ih _ (by rw [State.dispatch_muxRx]; exact State.used_advanceRx_lt_of_frame hr))

theorem receive (s : State) (bytes : List Byte) : P s (s.receive bytes).1 (s.receive bytes).2 :=
  hP.trans (.inl rfl) (hP.feed s bytes) (hP.settle _)

end ReceivePart

/-! ### The status of reception (R177, R270) -/

/-- The statuses of reception, with the parameters unchanged. -/
def ReceiveStatus (s : State) (st : Status) (t : State) : Prop :=
  t.cfg = s.cfg ∧ (st = .ok ∨ st = .transportError ∨ st = .stalled ∧ s.par.discardOnOverflow = false)

namespace State

theorem mscEcho_ok_status (s : State) (l : Byte) (v : List Byte) :
    (s.mscEcho l v .ok).1 = .ok ∨ (s.mscEcho l v .ok).1 = .transportError := by
  unfold mscEcho
  split
  · split
    · exact .inl rfl
    · exact .inr rfl
  · exact .inl rfl

end State

theorem receiveStatus_part : ReceivePart ReceiveStatus where
  refl s := ⟨rfl, .inl rfl⟩
  trans {s t u a b} := by
    rintro - ⟨hcfg, ha⟩ ⟨hcfg', hb⟩
    refine ⟨hcfg'.trans hcfg, ?_⟩
    rw [State.par, hcfg] at hb
    unfold State.keepFirst
    split
    · exact hb
    · exact ha
  feed s bytes := ⟨rfl, .inl rfl⟩
  take s n := ⟨rfl, .inl rfl⟩
  stall s f n h := ⟨rfl, .inr (.inr ⟨rfl, h.1⟩)⟩
  log s e := ⟨rfl, .inl rfl⟩
  hold s q _ _ := ⟨rfl, .inl rfl⟩
  peer s v := ⟨(s.peerMsc_ran v).cfg, .inl rfl⟩
  echo s l v := ⟨(s.mscEcho_ran l v .ok).cfg, or_assoc.1 (.inl (s.mscEcho_ok_status l v))⟩
  deliver s n info _ _ _ := ⟨(s.deliver_ran n info).cfg, or_assoc.1 (.inl (State.evalRxFlow_status _ n))⟩
  other s f _ := ⟨(s.dispatchOther_ran f).cfg, .inl rfl⟩

/-! ### `ON_BYTES_RECEIVED` with a context -/

section
variable {s : State} (data : List Byte) (hm : s.mux ≠ none)

theorem State.feed_eq (s : State) (data : List Byte) :
    s.feed data = s.setMuxRx ⟨s.muxRx.cap, s.muxRx.data ++ data.take (s.accepting data)⟩ := rfl

include hm in
theorem State.feed_muxRx : (s.feed data).muxRx = ⟨s.muxRx.cap, s.muxRx.data ++ data.take (s.accepting data)⟩ :=
  s.setMuxRx_muxRx (s.enabled_iff_mux_ne_none.2 hm) _

include hm in
theorem State.feed_advanceRx (n : Nat) : (s.feed data).advanceRx n =
    s.setMuxRx ⟨s.muxRx.cap, (s.muxRx.data ++ data.take (s.accepting data)).drop n⟩ := by
  rw [advanceRx, feed_muxRx data hm, feed, setMuxRx_setMuxRx]
  rfl

theorem State.feed_nil (s : State) : s.feed [] = s := by
  rw [feed, List.take_nil]
  refine (congrArg s.setMuxRx ?_).trans s.setMuxRx_self
  exact congrArg (Fifo.mk s.muxRx.cap) (List.append_nil _)

include hm in
theorem exec_onBytesReceived : exec (.onBytesReceived data) s =
    .next ((s.feed data).settle.2.finish (s.feed data).settle.1 (.accepted (s.accepting data))) :=
  congrArg Host.Outcome.next (if_neg fun e => hm (s.enabled_eq_false_iff.1 e))

/-- With no bytes offered the loop runs on what is there. -/
theorem exec_onBytesReceived_nil (hm : s.mux ≠ none) : exec (.onBytesReceived []) s =
    .next (s.settle.2.finish s.settle.1 (.accepted 0)) := by
  rw [exec_onBytesReceived [] hm, State.feed_nil, State.accepting, List.length_nil, Nat.zero_min]

end

/-- Settles O30: what holds in every case is `CmuxRan` and `ReceiveStatus`; each case is one equation of the settled loop. -/
theorem receiveAnswers : Obligations.ReceiveAnswers := by
  intro s data hm k buf left logged ends goesOn
  have hk : k = s.accepting data := rfl
  have hbuf : (s.feed data).muxRx.data = buf := congrArg Fifo.data (State.feed_muxRx data hm)
  have hexec := exec_onBytesReceived data hm
  have hends (u : State) (st : Status) (h : (s.feed data).settle.2.finish (s.feed data).settle.1 (.accepted k) =
      { u with result := some ⟨st, .accepted k⟩ }) : ends u st := hexec.trans (congrArg Host.Outcome.next h)
  have hadv (n : Nat) : (s.feed data).advanceRx n = left n := State.feed_advanceRx data hm n
  have hgoes (u : State) (st : Status) (hu : u.mux ≠ none)
      (h : (s.feed data).settle = (State.keepFirst st u.settle.1, u.settle.2)) : goesOn u st :=
    ⟨_, _, exec_onBytesReceived_nil hu, rfl, hends _ _ (by rw [h]; rfl)⟩
  have hleft (n : Nat) : (left n).enabled = true := (s.setMuxRx_enabled _).trans (s.enabled_iff_mux_ne_none.2 hm)
  refine ⟨?always, ?_⟩
  case always =>
    have hran := s.receive_ran data
    obtain ⟨j, hj⟩ := (s.feed data).settle_muxRx
    refine ⟨_, _, hexec, rfl, (receiveStatus_part.receive s data).2, hran.enabled.trans (s.enabled_iff_mux_ne_none.2 hm),
      ⟨hran.cfg, hran.fg, hran.requests⟩, hran.bus, ?_⟩
    rw [State.finish_muxRx, hj, State.feed_muxRx data hm]
    rfl
  have hparse : parseBytes (s.feed data).par (s.feed data).muxRx.data .any = parseBytes s.par buf .any := by
    rw [hbuf]
    rfl
  cases hr : parseBytes s.par buf .any with
  | incomplete n => exact hends _ _ (by rw [State.settle_of_incomplete (hparse.trans hr), hadv]; rfl)
  | notFound n =>
    exact ⟨(parseBytes_any_notFound s.par buf n hr).1,
      hends _ _ (by rw [State.settle_of_notFound (hparse.trans hr), hadv]; rfl)⟩
  | fcsError n =>
    refine hgoes (logged n .protocolFcsError) .ok (State.enabled_iff_mux_ne_none _ |>.1 (hleft n)) ?_
    rw [State.settle_of_fcsError (hparse.trans hr), hadv]
    rfl
  | malformed n =>
    refine hgoes (logged n .protocolMalformed) .ok (State.enabled_iff_mux_ne_none _ |>.1 (hleft n)) ?_
    rw [State.settle_of_malformed (hparse.trans hr), hadv]
    rfl
  | frame n f =>
    have hstalls : (s.feed data).Stalls f ↔ s.Stalls f := by
      unfold State.Stalls
      rw [State.feed_eq, State.setMuxRx_chan]
      exact Iff.rfl
    refine ⟨fun hst => ?dispatched, fun hst => ?stalled⟩
    case dispatched =>
      have hu : ((left n).dispatch f).2.mux ≠ none :=
        (State.enabled_iff_mux_ne_none _).1 (((left n).dispatch_ran f).enabled.trans (hleft n))
      refine hgoes _ _ hu ?_
      rw [State.settle_of_frame (hparse.trans hr) fun e => hst (hstalls.1 e), hadv]
    case stalled =>
      obtain ⟨o, ho, -⟩ := parseBytes_decided s.par buf (hr ▸ nofun) (hr ▸ nofun)
      obtain ⟨hle, hdrop⟩ := parseBytes_drop_frame ho hr
      refine ⟨o, hle, hdrop, ho.drop.startsAtFlag, hends _ _ ?_⟩
      rw [State.settle_of_stall (hparse.trans hr) (hstalls.2 hst) (hbuf.symm ▸ ho), hadv]
      rfl

/-- Settles O31: the parse answers the frame, and behind its dispatch the buffer is empty. -/
theorem oneFrameIsDispatched : Obligations.OneFrameIsDispatched := by
  intro s f hm hempty hs hfit hst
  have hall : s.accepting (f.wire s.par) = (f.wire s.par).length := by
    rw [State.accepting, Fifo.free, Fifo.used, hempty, List.length_nil, Nat.sub_zero, Nat.min_eq_left hfit]
  have hbuf : (s.feed (f.wire s.par)).muxRx.data = f.wire s.par := by
    rw [State.feed_muxRx _ hm, hall, List.take_length, hempty, List.nil_append]
  have hparse : parseBytes s.par (s.feed (f.wire s.par)).muxRx.data .any = .frame (f.wire s.par).length f := by
    have h := parseBytes_wire s.par .any f [] hs (maxInfoLen_le s.cfg)
    rw [hbuf]
    rwa [if_pos (show admits .any f.address = true from rfl), List.append_nil] at h
  have hback : (s.feed (f.wire s.par)).advanceRx (f.wire s.par).length = s := by
    rw [State.feed_advanceRx _ hm, hall, List.take_length, hempty, List.nil_append, List.drop_length, ← hempty]
    exact s.setMuxRx_self
  have hrest : (s.dispatch f).2.settle = (.ok, (s.dispatch f).2) := by
    have hnone : parseBytes (s.dispatch f).2.par (s.dispatch f).2.muxRx.data .any = .notFound 0 := by
      rw [s.dispatch_muxRx f, hempty]
      rfl
    rw [State.settle_of_notFound hnone, State.advanceRx_zero]
  have hstalls : ¬(s.feed (f.wire s.par)).Stalls f := by
    unfold State.Stalls
    rw [State.feed_eq, State.setMuxRx_chan]
    exact hst
  rw [exec_onBytesReceived _ hm, State.settle_of_frame hparse hstalls, hback, hrest, State.keepFirst_ok, hall]
  rfl

/-- Settles O33: the frame opens behind the noise, and the loop ends there. -/
theorem stalledFrameStays : Obligations.StalledFrameStays := by
  intro s f noise behind data hm hs hnoise hd hst
  refine ⟨_, exec_onBytesReceived data hm, ?_⟩
  have hbuf : (s.feed data).muxRx.data = noise ++ (f.wire s.par ++ (behind ++ data.take (s.accepting data))) := by
    rw [State.feed_muxRx data hm, hd]
    simp only [List.append_assoc]
  have hopens : OpensIn (f.wire s.par ++ (behind ++ data.take (s.accepting data))) 0 := by
    obtain ⟨ha, -⟩ := addressByte_fields f.address (Nat.lt_succ_of_le hs.1) f.cr
    rw [Frame.wire_eq_delimited]
    exact opensAt_zero _ _ ha
  have hparse : parseBytes s.par (s.feed data).muxRx.data .any = .frame (noise.length + (f.wire s.par).length) f := by
    have hwire := parseBytes_wire s.par .any f (behind ++ data.take (s.accepting data)) hs (maxInfoLen_le s.cfg)
    rw [if_pos (show admits .any f.address = true from rfl)] at hwire
    rw [hbuf, parseBytes_skip s.par .any noise _ ⟨0, hopens.lt, hopens.peek_eq⟩ fun o ho => ho.append_noise hnoise, hwire]
    rfl
  have hplace : OpensIn (s.feed data).muxRx.data noise.length := hbuf ▸ hopens.append_noise hnoise
  have hstalls : (s.feed data).Stalls f := by
    unfold State.Stalls
    rw [State.feed_eq, State.setMuxRx_chan]
    exact hst
  rw [State.settle_of_stall hparse hstalls hplace, State.feed_advanceRx data hm]
  have hdrop : (s.muxRx.data ++ data.take (s.accepting data)).drop noise.length =
      f.wire s.par ++ behind ++ data.take (s.accepting data) := by
    rw [hd, List.append_assoc noise, List.append_assoc noise, List.drop_left]
  rw [hdrop]
  exact ⟨rfl, s.setMuxRx_muxRx (s.enabled_iff_mux_ne_none.2 hm) _, s.setMuxRx_muxHold _, fun n => s.setMuxRx_chan _ n,
    ⟨rfl, rfl, rfl⟩, rfl, rfl⟩

/-- Where the bytes fit, feeding appends all of them. -/
theorem State.feed_of_fits {s : State} {data : List Byte} (h : data.length ≤ s.muxRx.free) :
    s.feed data = s.appendRx data := by
  rw [feed, accepting, Nat.min_eq_left h, List.take_length]
  rfl

/-- An earlier result changes nothing of what settling does to the rest. -/
theorem State.settle_finish (s : State) (st : Status) (o : Output) :
    (s.finish st o).settle.2 = s.settle.2.finish st o := by
  induction s using State.receive_induct with
  | h s ih =>
  have hg := UnseenByDispatch.of_history [] (some ⟨st, o⟩)
  have hpar : parseBytes (s.finish st o).par (s.finish st o).muxRx.data .any = parseBytes s.par s.muxRx.data .any := rfl
  cases hr : parseBytes s.par s.muxRx.data .any with
  | incomplete n => rw [settle_of_incomplete (hpar.trans hr), settle_of_incomplete hr]; rfl
  | notFound n => rw [settle_of_notFound (hpar.trans hr), settle_of_notFound hr]; rfl
  | fcsError n =>
    rw [settle_of_fcsError (hpar.trans hr), settle_of_fcsError hr]
    exact ih ((s.advanceRx n).log .protocolFcsError) (used_advanceRx_lt_of_fcsError hr)
  | malformed n =>
    rw [settle_of_malformed (hpar.trans hr), settle_of_malformed hr]
    exact ih ((s.advanceRx n).log .protocolMalformed) (used_advanceRx_lt_of_malformed hr)
  | frame n f =>
    by_cases hst : s.Stalls f
    · obtain ⟨p, hp, -⟩ := parseBytes_decided s.par s.muxRx.data (hr ▸ nofun) (hr ▸ nofun)
      rw [settle_of_stall (hpar.trans hr) hst hp, settle_of_stall hr hst hp]
      rfl
    · rw [settle_of_frame (hpar.trans hr) hst, settle_of_frame hr hst]
      have hd : ((s.finish st o).advanceRx n).dispatch f =
          Prod.map id (·.finish st o) ((s.advanceRx n).dispatch f) := hg.dispatch (s.advanceRx n) f
      rw [hd]
      exact ih ((s.advanceRx n).dispatch f).2 (by rw [dispatch_muxRx]; exact used_advanceRx_lt_of_frame hr)

/-- Settles O44: what arrives second might have been there from the start (`settle_appendRx`). -/
theorem receiveInPieces : Obligations.ReceiveInPieces := by
  intro s t u v xs ys hm hfit hxs hys hall
  have he := s.enabled_iff_mux_ne_none.2 hm
  have hfree : s.muxRx.free = s.muxRx.cap - s.muxRx.data.length := rfl
  have hfx : s.feed xs = s.appendRx xs := State.feed_of_fits (by omega)
  rw [exec_onBytesReceived xs hm, hfx] at hxs
  obtain rfl := Host.Outcome.next.inj hxs
  have hran : CmuxRan s (s.appendRx xs).settle.2 := by
    have h := s.receive_ran xs
    rwa [State.receive_eq_settle, hfx] at h
  have hmt : ((s.appendRx xs).settle.2.finish (s.appendRx xs).settle.1 (.accepted (s.accepting xs))).mux ≠ none :=
    (State.enabled_iff_mux_ne_none _).1 (hran.enabled.trans he)
  have hroom : ys.length ≤
      ((s.appendRx xs).settle.2.finish (s.appendRx xs).settle.1 (.accepted (s.accepting xs))).muxRx.free := by
    obtain ⟨k, hk⟩ := (s.appendRx xs).settle_muxRx
    rw [State.finish_muxRx, hk, State.appendRx_muxRx he, Fifo.free, Fifo.used, Fifo.advance_data, Fifo.advance_cap,
      Fifo.push_data, Fifo.push_cap, List.length_drop, List.length_append]
    omega
  rw [exec_onBytesReceived ys hmt, State.feed_of_fits hroom] at hys
  rw [exec_onBytesReceived (xs ++ ys) hm, State.feed_of_fits (by rw [List.length_append]; omega)] at hall
  obtain rfl := Host.Outcome.next.inj hys
  obtain rfl := Host.Outcome.next.inj hall
  have htwice : s.appendRx (xs ++ ys) = (s.appendRx xs).appendRx ys := by
    rw [State.appendRx, State.appendRx, State.appendRx_muxRx he, State.appendRx, State.setMuxRx_setMuxRx]
    exact congrArg s.setMuxRx (congrArg (Fifo.mk _) (List.append_assoc _ _ _).symm)
  have hsettled := State.settle_finish ((s.appendRx xs).settle.2.appendRx ys) (s.appendRx xs).settle.1
    (.accepted (s.accepting xs))
  have hpieces := State.settle_appendRx ys (s.appendRx xs) ((s.appendRx_enabled xs).trans he)
  have hall : (s.appendRx (xs ++ ys)).settle.2 = ((s.appendRx xs).settle.2.appendRx ys).settle.2 := by
    rw [htwice, hpieces]
  calc { (s.appendRx (xs ++ ys)).settle.2 with result := none }
      = { ((s.appendRx xs).settle.2.appendRx ys).settle.2 with result := none } := by rw [hall]
    _ = _ := by
      have h := congrArg (fun w : State => { w with result := none }) hsettled
      exact h.symm

end Sys2Proof.Machine

/-! What reception does to the channels and to the trace: how a channel moves (R45), what accounts for a link write that failed
(R176, R271), and what announces a change of a receive flow flag (R182). -/

namespace Sys2Proof.Machine

open Sys2Proof

/-- A channel stays in its state, or is disconnected. -/
def Channel.Moves (c d : Channel) : Prop :=
  d.state = c.state ∨ c.state = .opened ∧ d.state = .openDisconnected

theorem Channel.Moves.trans {c d e : Channel} (h : c.Moves d) (k : d.Moves e) : c.Moves e := by
  rcases h with h | ⟨hc, hd⟩
  · rwa [Moves, h] at k
  · refine .inr ⟨hc, ?_⟩
    rcases k with k | ⟨k, -⟩
    · exact k.trans hd
    · rw [hd] at k
      exact nomatch k

theorem State.setChan_chan_cases (s : State) (n : Nat) (c : Channel) (k : Nat) :
    (s.setChan n c).chan k = s.chan k ∨ k = n ∧ (s.setChan n c).chan k = c := by
  by_cases hk : k = n
  · subst hk
    cases hm : s.mux with
    | none => exact .inl (by simp [State.chan, State.setChan, State.modMux, hm])
    | some m => exact .inr ⟨rfl, s.setChan_chan_same (by simp [State.enabled, hm]) k c⟩
  · exact .inl (s.setChan_chan_ne n k c hk)

/-! ### What goes on without a link write -/

/-- No link write fails, every receive flow flag stays, and a channel is disconnected at most. -/
structure Quiet (s t : State) : Prop where
  cfg : t.cfg = s.cfg
  moves (k : Nat) : (s.chan k).Moves (t.chan k)
  flow (k : Nat) : (t.chan k).rxIsFlowControlledOff = (s.chan k).rxIsFlowControlledOff
  out : ∃ new : List TraceEntry, t.out = s.out ++ new ∧ ∀ e ∈ new, e.linkFailed = false

namespace Quiet

theorem trans {s t u : State} (h : Quiet s t) (k : Quiet t u) : Quiet s u := by
  obtain ⟨new, hout, hnew⟩ := h.out
  obtain ⟨new', hout', hnew'⟩ := k.out
  refine ⟨k.cfg.trans h.cfg, fun i => (h.moves i).trans (k.moves i), fun i => (k.flow i).trans (h.flow i), new ++ new', ?_, ?_⟩
  · rw [hout', hout, List.append_assoc]
  · rw [List.forall_mem_append]
    exact ⟨hnew, hnew'⟩

/-- A change that no channel and no trace shows. -/
theorem of_same {s t : State} (hcfg : t.cfg = s.cfg) (hchan : ∀ k, t.chan k = s.chan k) (hout : t.out = s.out) : Quiet s t :=
  ⟨hcfg, fun k => .inl (congrArg Channel.state (hchan k)), fun k => congrArg Channel.rxIsFlowControlledOff (hchan k),
    [], by rw [hout, List.append_nil], by simp⟩

theorem refl (s : State) : Quiet s s := of_same rfl (fun _ => rfl) rfl

theorem of_emit (s : State) (e : TraceEntry) (he : e.linkFailed = false) : Quiet s (s.emit e) :=
  ⟨rfl, fun _ => .inl rfl, fun _ => rfl, [e], rfl, by simpa using he⟩

theorem of_log (s : State) (e : LogEntry) : Quiet s (s.log e) := of_emit s _ rfl

theorem of_event (s : State) (n : Nat) (m : Byte) : Quiet s (s.event n m) := of_emit s _ rfl

theorem of_setChan (s : State) (n : Nat) (c : Channel) (hc : (s.chan n).Moves c)
    (hflow : c.rxIsFlowControlledOff = (s.chan n).rxIsFlowControlledOff) : Quiet s (s.setChan n c) := by
  refine ⟨rfl, fun k => ?_, fun k => ?_, [], by simp, by simp⟩ <;>
    rcases s.setChan_chan_cases n c k with h | ⟨rfl, h⟩ <;> rw [h]
  · exact .inl rfl
  · exact hc
  · exact hflow

end Quiet

namespace State

variable (s : State)

theorem setMuxRx_quiet (q : Fifo) : Quiet s (s.setMuxRx q) := .of_same rfl (s.setMuxRx_chan q) rfl

theorem setMuxHold_quiet (q : Fifo) : Quiet s (s.setMuxHold q) := .of_same rfl (s.setMuxHold_chan q) rfl

theorem popChan_quiet (n k : Nat) : Quiet s (s.popChan n k) := .of_setChan s n _ (.inl rfl) rfl

theorem store_quiet (n : Nat) (info : List Byte) : Quiet s (s.store n info) := by
  have hpush (d : List Byte) : Quiet s (s.pushChan n d) := .of_setChan s n _ (.inl rfl) rfl
  have hlost (t : State) (l : Nat) : Quiet t (t.overflow n l) :=
    (Quiet.of_setChan t n { t.chan n with overflowCount := (t.chan n).overflowCount + 1 } (.inl rfl) rfl).trans (.of_log _ _)
  have hcounted : Quiet s (s.storeCounted n info) := by
    unfold storeCounted
    dsimp only
    split
    · exact (hpush _).trans (hlost _ _)
    · exact hpush _
  rw [store_eq]
  split
  · exact hcounted.trans (.of_event _ _ _)
  · exact hcounted

theorem peerMsc_quiet (v : List Byte) : Quiet s (s.peerMsc v) := by
  have hset (n : Nat) (b : Bool) : Quiet s (s.setTxFlow n b) := .of_setChan s n _ (.inl rfl) rfl
  unfold peerMsc
  dsimp only
  split
  · split
    · exact hset _ _
    · exact (hset _ _).trans (.of_event _ _ _)
  · exact .of_log s _

theorem answeredChan_moves (f : Frame) : (s.chan f.address).Moves (s.answeredChan f) := by
  unfold answeredChan
  dsimp only
  split
  · next h => exact .inr ⟨((s.disconnects_iff f).1 h).2, rfl⟩
  · split <;> exact .inl rfl

theorem dispatchOther_quiet (f : Frame) : Quiet s (s.dispatchOther f) := by
  have hflow : (s.answeredChan f).rxIsFlowControlledOff = (s.chan f.address).rxIsFlowControlledOff := by
    unfold answeredChan
    dsimp only
    split <;> split <;> rfl
  unfold dispatchOther
  split
  · exact (Quiet.of_setChan s _ _ (s.answeredChan_moves f) hflow).trans (.of_event _ _ _)
  · exact .of_log s _

end State

/-! ### What accounts for the link writes and the changes of a flow flag -/

/-- The trace shows the MSC frame that announces the new value of a receive flow flag, taken whole, and the event. -/
def Announced (p : Params) (n : Nat) (off : Bool) (new : List TraceEntry) : Prop :=
  ∃ b r, TraceEntry.event n 0x02 ∈ new ∧ TraceEntry.linkWrite b r ∈ new ∧ r.covers b.length = true ∧
    b = Frame.wire p ⟨0, true, .uih, false, [0xE3, 0x05, BitVec.ofNat 8 (4 * n + 3), if off then 0x8F else 0x8D]⟩

theorem Announced.mono {p : Params} {n : Nat} {off : Bool} {new all : List TraceEntry} (h : Announced p n off new)
    (hsub : new ⊆ all) : Announced p n off all := by
  obtain ⟨b, r, hevent, hwrite, hrest⟩ := h
  exact ⟨b, r, hsub hevent, hsub hwrite, hrest⟩

theorem FailuresAreLogged.of_none {new : List TraceEntry} (h : ∀ e ∈ new, e.linkFailed = false) : FailuresAreLogged new := by
  intro before e after hnew he
  rw [h e (hnew ▸ List.mem_append_right _ (List.mem_cons_self ..))] at he
  exact nomatch he

/-- A failed write that ends a trace is not logged in it, so that what stands behind a trace does not matter. -/
theorem FailuresAreLogged.append {new more : List TraceEntry} (h : FailuresAreLogged new) (k : FailuresAreLogged more) :
    FailuresAreLogged (new ++ more) := by
  intro before e after hsplit he
  rcases List.append_eq_append_iff.1 hsplit with ⟨mid, rfl, hmore⟩ | ⟨mid, rfl, hafter⟩
  · exact k mid e after hmore he
  · cases mid with
    | nil => exact k [] e after hafter.symm he
    | cons x rest =>
      obtain ⟨rfl, rfl⟩ := List.cons.inj hafter
      have hlogged := h before e rest rfl he
      cases rest with
      | nil => simp at hlogged
      | cons y rest => exact hlogged

/-- The entries `new` account for the way from `s` to `t` with status `st`. -/
structure Accounts (s : State) (st : Status) (t : State) (new : List TraceEntry) : Prop where
  out : t.out = s.out ++ new
  reported : (∃ e ∈ new, e.linkFailed = true) → st = .transportError
  logged : FailuresAreLogged new
  announced (n : Nat) : (t.chan n).rxIsFlowControlledOff ≠ (s.chan n).rxIsFlowControlledOff →
    Announced s.par n (t.chan n).rxIsFlowControlledOff new

/-- What reception does to the channels and to the trace. -/
structure ReceiveDid (s : State) (st : Status) (t : State) : Prop where
  cfg : t.cfg = s.cfg
  moves (k : Nat) : (s.chan k).Moves (t.chan k)
  account : ∃ new, Accounts s st t new

theorem Quiet.did {s t : State} (h : Quiet s t) (st : Status) : ReceiveDid s st t := by
  obtain ⟨new, hout, hnew⟩ := h.out
  refine ⟨h.cfg, h.moves, new, hout, fun ⟨e, he, hfailed⟩ => ?_, .of_none hnew, fun n hn => absurd (h.flow n) hn⟩
  rw [hnew e he] at hfailed
  exact nomatch hfailed

theorem Accounts.trans {s t u : State} {a b : Status} {new more : List TraceEntry} (ha : a = .ok ∨ a = .transportError)
    (hcfg : t.cfg = s.cfg) (h : Accounts s a t new) (k : Accounts t b u more) :
    Accounts s (State.keepFirst a b) u (new ++ more) := by
  refine ⟨by rw [k.out, h.out, List.append_assoc], ?reported, h.logged.append k.logged, fun n hn => ?announced⟩
  case reported =>
    rintro ⟨e, he, hfailed⟩
    rcases List.mem_append.1 he with he | he
    · rw [h.reported ⟨e, he, hfailed⟩]
      rfl
    · rw [k.reported ⟨e, he, hfailed⟩]
      rcases ha with rfl | rfl <;> rfl
  case announced =>
    by_cases hlast : (u.chan n).rxIsFlowControlledOff = (t.chan n).rxIsFlowControlledOff
    · rw [hlast] at hn ⊢
      exact (h.announced n hn).mono (List.subset_append_left _ _)
    · have hsaid := k.announced n hlast
      rw [State.par, hcfg] at hsaid
      exact hsaid.mono (List.subset_append_right _ _)

theorem ReceiveDid.trans {s t u : State} {a b : Status} (ha : a = .ok ∨ a = .transportError) (h : ReceiveDid s a t)
    (k : ReceiveDid t b u) : ReceiveDid s (State.keepFirst a b) u := by
  obtain ⟨new, hnew⟩ := h.account
  obtain ⟨more, hmore⟩ := k.account
  exact ⟨k.cfg.trans h.cfg, fun i => (h.moves i).trans (k.moves i), new ++ more, hnew.trans ha h.cfg hmore⟩

/-- A flow flag that changed was announced. -/
theorem ReceiveDid.announces {s t : State} {st : Status} (h : ReceiveDid s st t) {n : Nat}
    (hne : (t.chan n).rxIsFlowControlledOff ≠ (s.chan n).rxIsFlowControlledOff) :
    ∃ new, t.out = s.out ++ new ∧ Announced s.par n (t.chan n).rxIsFlowControlledOff new := by
  obtain ⟨new, hnew⟩ := h.account
  exact ⟨new, hnew.out, hnew.announced n hne⟩

/-! ### The block's own frames (R183, R186) -/

/-- The channel byte of an MSC message is the address byte of the channel with the C/R bit set, at every channel. -/
theorem mscChannelByte_eq (n : Nat) : mscChannelByte n = BitVec.ofNat 8 (4 * n + 3) :=
  (BitVec.or_assoc ..).symm.trans (addressByte_true n)

theorem mscInfo_eq (n : Nat) (off : Bool) :
    mscInfo n off = [0xE3, 0x05, BitVec.ofNat 8 (4 * n + 3), if off then 0x8F else 0x8D] := by
  rw [mscInfo, mscChannelByte_eq]
  cases off <;> rfl

namespace State

variable (s : State)

/-- A send on the control channel writes its frame once, or fails with nothing on the link (log 10). -/
theorem sendControl_cases (info : List Byte) :
    (∃ r, (s.sendControl info).2.out = s.out ++ [.linkWrite (frameBytes s.par 0 .uih false info) r] ∧
      (s.sendControl info).1 = r.covers (frameBytes s.par 0 .uih false info).length) ∨
    (s.sendControl info).1 = false ∧ (s.sendControl info).2.out = s.out := by
  have hsend (t : State) (hcfg : t.cfg = s.cfg) (hout : t.out = s.out) :
      ∃ r, (t.linkSend (frameBytes t.par 0 .uih false info)).2.out =
          s.out ++ [.linkWrite (frameBytes s.par 0 .uih false info) r] ∧
        (t.linkSend (frameBytes t.par 0 .uih false info)).1 = r.covers (frameBytes s.par 0 .uih false info).length := by
    rw [linkSend_eq_linkSent, par, hcfg, ← hout]
    exact ⟨_, rfl, rfl⟩
  unfold sendControl
  split
  · exact .inl (hsend s rfl rfl)
  · unfold drawBool
    cases Config.freeBool s.env.draws with
    | true => exact .inl (hsend _ rfl rfl)
    | false => exact .inr ⟨rfl, rfl⟩

/-- A send, and behind it the log entry that tells of its failure. -/
theorem sendControl_logged (info : List Byte) (e : LogEntry)
    (he : (∃ n, e = .transportMsc n) ∨ e = .transportMscEcho) : ∃ new,
    ((s.sendControl info).2.log e).out = s.out ++ new ∧ FailuresAreLogged new := by
  rcases s.sendControl_cases info with ⟨r, hout, -⟩ | ⟨-, hout⟩
  · refine ⟨[.linkWrite (frameBytes s.par 0 .uih false info) r, .log e], by rw [log_out, hout, List.append_assoc]; rfl, ?_⟩
    intro before x after hsplit hx
    cases before with
    | nil =>
      obtain ⟨-, rfl⟩ := List.cons.inj hsplit
      rcases he with ⟨n, rfl⟩ | rfl
      · exact .inl ⟨n, rfl⟩
      · exact .inr rfl
    | cons y before =>
      exact FailuresAreLogged.of_none (new := [.log e]) (by simp [TraceEntry.linkFailed]) before x after
        (List.cons.inj hsplit).2 hx
  · exact ⟨[.log e], by rw [log_out, hout], .of_none (by simp [TraceEntry.linkFailed])⟩

/-- A send that failed is reported and logged, and changes no channel. -/
theorem sendControl_logged_did (info : List Byte) (e : LogEntry)
    (he : (∃ n, e = .transportMsc n) ∨ e = .transportMscEcho) :
    ReceiveDid s .transportError ((s.sendControl info).2.log e) := by
  have hran := s.sendControl_ran info
  obtain ⟨new, hout, hlogged⟩ := s.sendControl_logged info e he
  exact ⟨hran.cfg, fun k => .inl (congrArg Channel.state (hran.chan k)), new, hout, fun _ => rfl, hlogged,
    fun n hn => absurd (congrArg Channel.rxIsFlowControlledOff (hran.chan n)) hn⟩

/-- A send that went out whole. -/
theorem sendControl_sent (info : List Byte) (h : (s.sendControl info).1 = true) :
    ∃ r : LinkReply, r.covers (frameBytes s.par 0 .uih false info).length = true ∧
      (s.sendControl info).2.out = s.out ++ [.linkWrite (frameBytes s.par 0 .uih false info) r] := by
  rcases s.sendControl_cases info with ⟨r, hout, hok⟩ | ⟨hno, -⟩
  · exact ⟨r, hok.symm.trans h, hout⟩
  · rw [hno] at h
    exact nomatch h

theorem mscEcho_did (l : Byte) (v : List Byte) : ReceiveDid s (s.mscEcho l v .ok).1 (s.mscEcho l v .ok).2 := by
  unfold mscEcho
  split
  · have hran := s.sendControl_ran ([0xE1, l] ++ v)
    cases hsent : s.sendControl ([0xE1, l] ++ v) with | mk ok s1 =>
    cases ok with
    | true =>
      obtain ⟨r, hr, hout⟩ := s.sendControl_sent _ (congrArg Prod.fst hsent)
      rw [hsent] at hran hout
      refine (Quiet.mk hran.cfg (fun k => .inl (congrArg Channel.state (hran.chan k)))
        (fun k => congrArg Channel.rxIsFlowControlledOff (hran.chan k)) ⟨_, hout, ?_⟩).did .ok
      simpa [TraceEntry.linkFailed] using hr
    | false =>
      have hdid := s.sendControl_logged_did ([0xE1, l] ++ v) .transportMscEcho (.inr rfl)
      rw [hsent] at hdid
      exact hdid
  · exact (Quiet.refl s).did .ok

theorem emitMsc_failed (n : Nat) (off : Bool) (h : (s.emitMsc n off).1 = false) :
    (s.emitMsc n off).2 = (s.sendControl (mscInfo n off)).2.log (.transportMsc n) := by
  unfold emitMsc at h ⊢
  cases hs : s.sendControl (mscInfo n off) with | mk ok s1 =>
  rw [hs] at h
  cases ok
  · rfl
  · exact nomatch h

theorem emitMsc_sent (n : Nat) (off : Bool) (h : (s.emitMsc n off).1 = true) :
    (s.sendControl (mscInfo n off)).1 = true ∧ (s.emitMsc n off).2 = (s.sendControl (mscInfo n off)).2 := by
  unfold emitMsc at h ⊢
  cases hs : s.sendControl (mscInfo n off) with | mk ok s1 =>
  rw [hs] at h
  cases ok
  · exact nomatch h
  · exact ⟨rfl, rfl⟩

/-- The flag changes only behind the frame that announces its new value. -/
theorem evalRxFlow_did (n : Nat) : ReceiveDid s (s.evalRxFlow n).1 (s.evalRxFlow n).2 := by
  rcases s.evalRxFlow_cases n with h | ⟨off, -, ⟨hsent, h⟩ | ⟨hfailed, h⟩⟩ <;> rw [h]
  · exact (Quiet.refl s).did .ok
  · obtain ⟨hok, hstate⟩ := s.emitMsc_sent n off hsent
    obtain ⟨r, hr, hout⟩ := s.sendControl_sent _ hok
    have hran := s.sendControl_ran (mscInfo n off)
    rw [hstate]
    generalize s.sendControl (mscInfo n off) = sent at hout hran
    have hset (k : Nat) := sent.2.setChan_chan_cases n { sent.2.chan n with rxIsFlowControlledOff := off } k
    refine ⟨hran.cfg, fun k => .inl ?moves, [.linkWrite (frameBytes s.par 0 .uih false (mscInfo n off)) r, .event n evFlow],
      ?out, ?reported, .of_none ?unfailed, fun k hk => ?announced⟩
    case moves =>
      rw [event_chan, setRxFlow, ← hran.chan k]
      rcases hset k with hk | ⟨rfl, hk⟩ <;> rw [hk]
    case out => rw [event_out, setRxFlow_out, hout, List.append_assoc]; rfl
    case unfailed => simp [TraceEntry.linkFailed, hr]
    case reported => simp [TraceEntry.linkFailed, hr]
    case announced =>
      rw [event_chan, setRxFlow] at hk ⊢
      rcases hset k with hsame | ⟨rfl, hset⟩
      · rw [hsame, hran.chan k] at hk
        exact absurd rfl hk
      · rw [hset]
        exact ⟨_, r, by simp [evFlow], by simp, hr, by rw [frameBytes_eq_wire, mscInfo_eq]; rfl⟩
  · rw [s.emitMsc_failed n off hfailed]
    exact s.sendControl_logged_did _ _ (.inl ⟨n, rfl⟩)

end State

theorem receiveDid_part : ReceivePart ReceiveDid where
  refl s := (Quiet.refl s).did .ok
  trans := ReceiveDid.trans
  feed s _ := (s.setMuxRx_quiet _).did .ok
  take s _ := (s.setMuxRx_quiet _).did .ok
  stall s _ _ _ := (s.setMuxRx_quiet _).did .stalled
  log s e := (Quiet.of_log s e).did .ok
  hold s q _ _ := (s.setMuxHold_quiet q).did .ok
  peer s v := (s.peerMsc_quiet v).did .ok
  echo := State.mscEcho_did
  deliver s n info _ _ _ := ((s.store_quiet n info).did .ok).trans (.inl rfl) (State.evalRxFlow_did _ n)
  other s f _ := (s.dispatchOther_quiet f).did .ok

end Sys2Proof.Machine

/-! What each CMUX operation does, said once: `CmuxRun` lists the ways it can end. -/

namespace Sys2Proof.Machine

open Sys2Proof

/-- The row of `i` lists the status, and it is not `Timeout` (R270). -/
def Permits (i : Instr) (st : Status) : Prop := (allowedStatuses i).contains st = true ∧ st ≠ .timeout

/-- The operations that send the one frame they are asked for. -/
def sendsOneFrame : Instr → Bool
  | .closeChannel _ => true
  | .write _ _ => true
  | .sendFrame _ _ _ _ _ => true
  | _ => false

/-- `CmuxRun s i st t`: from `s` the operation `i` may return `st` with the state at `t`, the result not yet put in. -/
inductive CmuxRun (s : State) : Instr → Status → State → Prop
  | unchanged {i : Instr} {st : Status} : Permits i st → CmuxRun s i st s
  | enabled : s.mux = none → CmuxRun s .muxEnable .ok { s with mux := some (freshMux s.par) }
  | disabled : CmuxRun s .muxDisable .ok { s with mux := none }
  | opened {n : Nat} : n ≤ s.par.maxChannels → (s.chan n).state = .null →
      CmuxRun s (.openChannel n true) .ok (s.setChan n (openedChannel s.par (s.chan n)))
  | unsent {i : Instr} {b : List Byte} : sendsOneFrame i = true → CmuxRun s i .transportError (s.linkSent b)
  | closed {n : Nat} {b : List Byte} : s.takeLinkReply.1.covers b.length = true → n ≤ s.par.maxChannels →
      (s.chan n).state = .opened → CmuxRun s (.closeChannel n) .ok ((s.linkSent b).setChan n (closedChannel (s.chan n)))
  | written {n : Nat} {data b : List Byte} : s.takeLinkReply.1.covers b.length = true →
      CmuxRun s (.write n data) .ok (s.linkSent b)
  | armed {n : Nat} {t : TypeOperand} {pf : Bool} {info : List Byte} {w : WantedOperand} {b : List Byte}
      {v : Option FrameType} : s.takeLinkReply.1.covers b.length = true → n ≤ s.par.maxChannels →
      CmuxRun s (.sendFrame n t pf info w) .ok ((s.linkSent b).setChan n { s.chan n with wanted := v })
  | received {data : List Byte} : s.mux ≠ none → CmuxRun s (.onBytesReceived data) (s.receive data).1 (s.receive data).2
  | readOpened {n k : Nat} : 1 ≤ n → n ≤ s.par.maxChannels → (s.chan n).state = .opened →
      CmuxRun s (.channelRead n k) ((s.popChan n k).evalRxFlow n).1 ((s.popChan n k).evalRxFlow n).2
  | readDisconnected {n k : Nat} : 1 ≤ n → n ≤ s.par.maxChannels → (s.chan n).state = .openDisconnected →
      CmuxRun s (.channelRead n k) .ok (s.popChan n k)

/-- `CmuxEnds i s`: the operation completes in one of those ways. -/
def CmuxEnds (i : Instr) (s : State) : Prop :=
  ∃ st t o, exec i s = .next (t.finish st o) ∧ CmuxRun s i st t

section
variable (s : State)

/-! ### The codec (R130, R138) -/

theorem encodeFrame_error (p : Params) (a : Nat) (t : FrameType) (pf : Bool) (info : List Byte) (e : Status)
    (h : encodeFrame p a t pf info = .error e) : e = .invalidLength ∨ e = .invalidArgument := by
  unfold encodeFrame at h
  split at h
  · exact .inl (Except.error.inj h).symm
  · split at h
    · exact .inr (Except.error.inj h).symm
    · split at h
      · exact .inr (Except.error.inj h).symm
      · exact nomatch h

theorem encodeOperand_error (p : Params) (a : Nat) (t : TypeOperand) (pf : Bool) (info : List Byte) (e : Status)
    (h : encodeOperand p a t pf info = .error e) : e = .invalidLength ∨ e = .invalidArgument := by
  cases t with
  | legal t => exact encodeFrame_error p a t pf info e h
  | illegal =>
    rw [encodeOperand_illegal] at h
    obtain rfl := Except.error.inj h
    split
    · exact .inl rfl
    · exact .inr rfl

/-- An operation that hands back what the codec answers. -/
theorem cmuxEnds_of_encode (i : Instr) (r : Except Status (List Byte)) (hi : exec i s = .next (s.finishEncode r))
    (herr : ∀ e, r = .error e → e = .invalidLength ∨ e = .invalidArgument)
    (hrow : allowedStatuses i = [.ok, .invalidLength, .invalidArgument]) : CmuxEnds i s := by
  cases r with
  | ok b => exact ⟨.ok, s, _, hi, .unchanged ⟨by rw [hrow]; rfl, nofun⟩⟩
  | error e =>
    refine ⟨e, s, _, hi, .unchanged ?_⟩
    rcases herr e rfl with rfl | rfl
    · exact ⟨by rw [hrow]; rfl, nofun⟩
    · exact ⟨by rw [hrow]; rfl, nofun⟩

theorem cmuxEnds_encode (a : Nat) (t : TypeOperand) (pf : Bool) (info : List Byte) : CmuxEnds (.encode a t pf info) s :=
  cmuxEnds_of_encode s _ _ (exec_encode s a t pf info) (encodeOperand_error s.par a t pf info) rfl

theorem cmuxEnds_frameInstr (t : FrameType) (a : Nat) (pf : Bool) (info : List Byte) :
    CmuxEnds (frameInstr t a pf info) s :=
  cmuxEnds_of_encode s _ _ ((exec_frameInstr t s a pf info).trans (exec_encode_legal s a t pf info))
    (encodeFrame_error s.par a t pf info) (by cases t <;> rfl)

theorem cmuxEnds_parse (buf : List Byte) (w : AddrFilter) : CmuxEnds (.parse buf w) s := by
  refine ⟨_, s, _, exec_parse_of_parseBytes s buf w _ rfl, .unchanged ?_⟩
  cases parseBytes s.par buf w <;> exact ⟨rfl, nofun⟩

/-! ### The context and its channels (R170 to R175, R177, R190) -/

/-- A refusal. -/
theorem cmuxEnds_of_refused {i : Instr} {st : Status} {o : Output} (hi : exec i s = .next (s.finish st o))
    (hst : Permits i st) : CmuxEnds i s := ⟨st, s, o, hi, .unchanged hst⟩

theorem cmuxEnds_muxEnable : CmuxEnds .muxEnable s := by
  by_cases hm : s.mux = none
  · exact ⟨_, _, _, exec_muxEnable_of_no_context s hm, .enabled hm⟩
  · exact cmuxEnds_of_refused s (exec_muxEnable_of_context s hm) ⟨rfl, nofun⟩

theorem cmuxEnds_muxDisable : CmuxEnds .muxDisable s := by
  by_cases hm : s.mux = none
  · exact cmuxEnds_of_refused s (exec_muxDisable_of_no_context s hm) ⟨rfl, nofun⟩
  · exact ⟨_, _, _, exec_muxDisable_of_context s hm, .disabled⟩

theorem cmuxEnds_openChannel (n : Nat) (ok : Bool) : CmuxEnds (.openChannel n ok) s := by
  by_cases hinvalid : s.mux = none ∨ addrMax < n
  · exact cmuxEnds_of_refused s (exec_openChannel_invalid s n ok hinvalid) ⟨rfl, nofun⟩
  obtain ⟨hm, ha⟩ := not_or.1 hinvalid
  by_cases hn : s.par.maxChannels < n
  · exact cmuxEnds_of_refused s (exec_openChannel_exhausted s n ok hm (Nat.le_of_not_lt ha) hn)
      ⟨rfl, nofun⟩
  have hn := Nat.le_of_not_lt hn
  have hexec := exec_openChannel_of_id s n ok hm hn
  by_cases hnull : (s.chan n).state = .null
  · rw [if_neg (not_not.2 hnull)] at hexec
    cases ok with
    | true => exact ⟨_, _, _, hexec, .opened hn hnull⟩
    | false => exact cmuxEnds_of_refused s hexec ⟨rfl, nofun⟩
  · rw [if_pos hnull] at hexec
    exact cmuxEnds_of_refused s hexec ⟨rfl, nofun⟩

theorem cmuxEnds_closeChannel (n : Nat) : CmuxEnds (.closeChannel n) s := by
  by_cases hinvalid : s.handleOk n = false ∨ (s.chan n).state ≠ .opened
  · exact cmuxEnds_of_refused s (exec_closeChannel_invalid s n hinvalid) ⟨rfl, nofun⟩
  obtain ⟨hh, ho⟩ := not_or.1 hinvalid
  have hh := Bool.of_not_eq_false hh
  have ho := not_not.1 ho
  have hexec := exec_closeChannel_opened s n hh ho
  cases hsent : s.takeLinkReply.1.covers (frameBytes s.par n .disc true []).length with
  | true =>
    rw [State.sendThenSetChan_of_covers _ _ _ _ hsent] at hexec
    exact ⟨_, _, _, hexec, .closed hsent ((s.handleOk_iff n).1 hh).2 ho⟩
  | false =>
    rw [State.sendThenSetChan_of_not_covers _ _ _ _ hsent] at hexec
    exact ⟨_, _, _, hexec, .unsent rfl⟩

theorem cmuxEnds_write (n : Nat) (data : List Byte) : CmuxEnds (.write n data) s := by
  by_cases hinvalid : s.dataHandleOk n = false ∨ (s.chan n).state ≠ .opened
  · exact cmuxEnds_of_refused s (exec_write_invalid s n data hinvalid) ⟨rfl, nofun⟩
  obtain ⟨hh, ho⟩ := not_or.1 hinvalid
  have hh := Bool.of_not_eq_false hh
  have ho := not_not.1 ho
  cases hoff : (s.chan n).txIsFlowControlledOff with
  | true => exact cmuxEnds_of_refused s (exec_write_stopped s n data hh ho hoff) ⟨rfl, nofun⟩
  | false =>
    rcases Nat.eq_zero_or_pos (min data.length s.par.maxInfoLen) with hk | hk
    · exact cmuxEnds_of_refused s (exec_write_nothing s n data hh ho hoff hk) ⟨rfl, nofun⟩
    · have hexec := exec_write_sends s n data hh ho hoff _ hk rfl
      cases hsent : s.takeLinkReply.1.covers
          (frameBytes s.par n .uih false (data.take (min data.length s.par.maxInfoLen))).length with
      | true =>
        rw [if_pos hsent] at hexec
        exact ⟨.ok, s.linkSent _, .bytesWritten _, hexec, .written hsent⟩
      | false =>
        rw [if_neg (by simp [hsent])] at hexec
        exact ⟨.transportError, s.linkSent _, .bytesWritten 0, hexec, .unsent rfl⟩

theorem cmuxEnds_sendFrame (n : Nat) (t : TypeOperand) (pf : Bool) (info : List Byte) (w : WantedOperand) :
    CmuxEnds (.sendFrame n t pf info w) s := by
  cases hh : s.handleOk n with
  | false => exact cmuxEnds_of_refused s (exec_sendFrame_invalid s n t pf info w hh) ⟨rfl, nofun⟩
  | true =>
  cases hw : legalWanted w with
  | none =>
    have hillegal : w = .illegal := by cases w <;> simp [legalWanted] at hw ⊢
    subst hillegal
    exact cmuxEnds_of_refused s (exec_sendFrame_illegal_wanted s n t pf info) ⟨rfl, nofun⟩
  | some v =>
    have hexec := exec_sendFrame_of_legal s n t pf info w v hh hw
    cases hb : encodeOperand s.par n t pf info with
    | error e =>
      rw [hb] at hexec
      rcases encodeOperand_error s.par n t pf info e hb with rfl | rfl <;>
        exact cmuxEnds_of_refused s hexec ⟨rfl, nofun⟩
    | ok b =>
      rw [hb] at hexec
      cases hsent : s.takeLinkReply.1.covers b.length with
      | true =>
        dsimp only at hexec
        rw [State.sendThenSetChan_of_covers _ _ _ _ hsent] at hexec
        exact ⟨_, _, _, hexec, .armed hsent ((s.handleOk_iff n).1 hh).2⟩
      | false =>
        dsimp only at hexec
        rw [State.sendThenSetChan_of_not_covers _ _ _ _ hsent] at hexec
        exact ⟨_, _, _, hexec, .unsent rfl⟩

theorem cmuxEnds_onBytesReceived (data : List Byte) : CmuxEnds (.onBytesReceived data) s := by
  by_cases hm : s.mux = none
  · exact cmuxEnds_of_refused s (exec_onBytesReceived_of_no_context s data hm) ⟨rfl, nofun⟩
  · exact ⟨_, _, _, exec_onBytesReceived data hm, .received hm⟩

theorem cmuxEnds_channelRead (n k : Nat) : CmuxEnds (.channelRead n k) s := by
  by_cases hinvalid : s.dataHandleOk n = false ∨ (s.chan n).state = .null
  · exact cmuxEnds_of_refused s (exec_channelRead_invalid s n k hinvalid) ⟨rfl, nofun⟩
  obtain ⟨hh, hnull⟩ := not_or.1 hinvalid
  have hh := Bool.of_not_eq_false hh
  obtain ⟨-, h1, hn⟩ := (s.dataHandleOk_iff n).1 hh
  cases hst : (s.chan n).state with
  | null => exact absurd hst hnull
  | opened => exact ⟨_, _, _, exec_channelRead_opened s n k hh hst, .readOpened h1 hn hst⟩
  | openDisconnected => exact ⟨_, _, _, exec_channelRead_disconnected s n k hh hst, .readDisconnected h1 hn hst⟩

/-- Every CMUX operation completes. -/
theorem cmuxEnds {i : Instr} (hi : isFgInstr i = false) : CmuxEnds i s := by
  cases i with
  | sabm a pf info => exact cmuxEnds_frameInstr s .sabm a pf info
  | ua a pf info => exact cmuxEnds_frameInstr s .ua a pf info
  | dm a pf info => exact cmuxEnds_frameInstr s .dm a pf info
  | disc a pf info => exact cmuxEnds_frameInstr s .disc a pf info
  | uih a pf info => exact cmuxEnds_frameInstr s .uih a pf info
  | ui a pf info => exact cmuxEnds_frameInstr s .ui a pf info
  | muxEnable => exact cmuxEnds_muxEnable s
  | muxDisable => exact cmuxEnds_muxDisable s
  | encode a t pf info => exact cmuxEnds_encode s a t pf info
  | parse buf w => exact cmuxEnds_parse s buf w
  | openChannel n ok => exact cmuxEnds_openChannel s n ok
  | closeChannel n => exact cmuxEnds_closeChannel s n
  | write n data => exact cmuxEnds_write s n data
  | onBytesReceived data => exact cmuxEnds_onBytesReceived s data
  | channelRead n k => exact cmuxEnds_channelRead s n k
  | sendFrame n t pf info w => exact cmuxEnds_sendFrame s n t pf info w
  | _ => exact nomatch hi

end

/-! ### What every way of ending leaves alone, and its status -/

theorem State.linkSent_ran (s : State) (b : List Byte) : LinkRan s (s.linkSent b) := by
  have h := s.linkSend_ran b
  rwa [State.linkSend_eq_linkSent] at h

/-- A CMUX operation leaves the other unit and the parameters alone, and returns a status of its row. -/
structure CmuxDone (s : State) (i : Instr) (st : Status) (t : State) : Prop where
  cfg : t.cfg = s.cfg
  fg : t.fg = s.fg
  requests : t.requests = s.requests
  bus : t.env.bus = s.env.bus
  out : ∃ new : List TraceEntry, t.out = s.out ++ new ∧ ∀ e ∈ new, e.ofCmux = true
  permits : Permits i st

theorem CmuxRan.done {s t : State} {i : Instr} {st : Status} (h : CmuxRan s t) (hst : Permits i st) :
    CmuxDone s i st t := ⟨h.cfg, h.fg, h.requests, h.bus, h.out, hst⟩

theorem CmuxRun.done {s t : State} {i : Instr} {st : Status} (h : CmuxRun s i st t) : CmuxDone s i st t := by
  cases h with
  | unchanged hst => exact (CmuxRan.refl s).done hst
  | enabled => exact ⟨rfl, rfl, rfl, rfl, ⟨[], by simp, by simp⟩, rfl, nofun⟩
  | disabled => exact ⟨rfl, rfl, rfl, rfl, ⟨[], by simp, by simp⟩, rfl, nofun⟩
  | opened => exact (CmuxRan.of_setChan s _ _).done ⟨rfl, nofun⟩
  | unsent hi =>
    refine (s.linkSent_ran _).toCmuxRan.done ?_
    cases i with
    | closeChannel => exact ⟨rfl, nofun⟩
    | write => exact ⟨rfl, nofun⟩
    | sendFrame => exact ⟨rfl, nofun⟩
    | _ => exact nomatch hi
  | closed => exact ((s.linkSent_ran _).toCmuxRan.trans (.of_setChan _ _ _)).done ⟨rfl, nofun⟩
  | written => exact (s.linkSent_ran _).toCmuxRan.done ⟨rfl, nofun⟩
  | armed => exact ((s.linkSent_ran _).toCmuxRan.trans (.of_setChan _ _ _)).done ⟨rfl, nofun⟩
  | @received data hm =>
    obtain ⟨-, h⟩ := receiveStatus_part.receive s data
    refine (s.receive_ran data).done ?_
    rcases h with h | h | ⟨h, -⟩ <;> rw [h] <;> exact ⟨rfl, nofun⟩
  | @readOpened n k =>
    refine ((CmuxRan.of_setChan s n _).trans (State.evalRxFlow_ran _ n)).done ?_
    rcases State.evalRxFlow_status (s.popChan n k) n with h | h <;> rw [h] <;> exact ⟨rfl, nofun⟩
  | readDisconnected => exact (CmuxRan.of_setChan s _ _).done ⟨rfl, nofun⟩

end Sys2Proof.Machine

/-! The FG unit's traces (R246, R247): each part of an operation adds a run of complete transactions, or one that ends at the
transfer that failed. -/

namespace Sys2Proof.Machine

open Sys2Proof

/-! ### Runs of transactions -/

/-- Complete transactions, each with its delay: what stands behind them is judged as if they were not there. -/
structure Settled (p : Params) (new : List TraceEntry) : Prop where
  disciplined_append (rest : List TraceEntry) : disciplined p (new ++ rest) = disciplined p rest
  succeeded : ∀ e ∈ new, e.busFailed = false

/-- Transactions of which the last ends with a failed transfer. -/
structure Stopped (p : Params) (new : List TraceEntry) : Prop where
  disciplined : disciplined p new = true
  last : ∃ before e, new = before ++ [e] ∧ e.busFailed = true ∧ ∀ x ∈ before, x.busFailed = false

/-- What a part adds to the trace, by whether all its transfers succeeded. -/
def Adds (p : Params) : Bool → List TraceEntry → Prop
  | true, new => Settled p new
  | false, new => Stopped p new

theorem Settled.adds_append {p : Params} {ok : Bool} {new more : List TraceEntry} (h : Settled p new) (k : Adds p ok more) :
    Adds p ok (new ++ more) := by
  cases ok with
  | true =>
    refine ⟨fun rest => ?_, List.forall_mem_append.2 ⟨h.succeeded, k.succeeded⟩⟩
    rw [List.append_assoc, h.disciplined_append, k.disciplined_append]
  | false =>
    obtain ⟨hdisciplined, before, e, rfl, he, hbefore⟩ := k
    exact ⟨by rw [h.disciplined_append, hdisciplined], new ++ before, e, (List.append_assoc ..).symm, he,
      List.forall_mem_append.2 ⟨h.succeeded, hbefore⟩⟩

theorem Settled.disciplined {p : Params} {new : List TraceEntry} (h : Settled p new) : disciplined p new = true := by
  rw [← List.append_nil new, h.disciplined_append]
  rfl

theorem settled_nil (p : Params) : Settled p [] := ⟨fun _ => rfl, nofun⟩

theorem settled_log (p : Params) (e : LogEntry) : Settled p [.log e] := ⟨fun _ => rfl, by simp [TraceEntry.busFailed]⟩

section
variable (p : Params) (dev : Byte) (t : Nat) (ht : (settleDelays p).contains t = true)

include ht in
theorem settled_write (b : List Byte) : Settled p [.busWrite dev b true, .delay t] :=
  ⟨fun rest => (congrArg (· && disciplined p rest) ht).trans (Bool.true_and _), by simp [TraceEntry.busFailed]⟩

include ht in
theorem settled_read (b d : List Byte) (n : Nat) : Settled p [.busWrite dev b true, .busRead dev n (some d), .delay t] :=
  ⟨fun rest => (congrArg (· && disciplined p rest) ht).trans (Bool.true_and _), by simp [TraceEntry.busFailed]⟩

theorem stopped_write (b : List Byte) : Stopped p [.busWrite dev b false] := ⟨rfl, [], _, rfl, rfl, nofun⟩

theorem stopped_read (b : List Byte) (n : Nat) : Stopped p [.busWrite dev b true, .busRead dev n none] :=
  ⟨rfl, [.busWrite dev b true], _, rfl, rfl, by simp [TraceEntry.busFailed]⟩

theorem contains_fgTSettle : (settleDelays p).contains p.fgTSettle = true := by simp [settleDelays]

theorem contains_fgTMac : (settleDelays p).contains p.fgTMac = true := by simp [settleDelays]

theorem contains_fgPollMs : (settleDelays p).contains fgPollMs = true := by simp [settleDelays, fgPollMs]

end

/-! ### What each part of an FG operation adds -/

/-- From `s` to `t` a part of an operation went, with all its transfers good if `ok`. -/
structure FgTraced (s : State) (ok : Bool) (t : State) : Prop where
  cfg : t.cfg = s.cfg
  out : ∃ new, t.out = s.out ++ new ∧ Adds s.par ok new

namespace FgTraced

theorem refl (s : State) : FgTraced s true s := ⟨rfl, [], (List.append_nil _).symm, settled_nil s.par⟩

theorem trans {s t u : State} {ok : Bool} (h : FgTraced s true t) (k : FgTraced t ok u) : FgTraced s ok u := by
  obtain ⟨hcfg, new, hout, hnew⟩ := h
  obtain ⟨hcfg', more, hout', hmore⟩ := k
  rw [State.par, hcfg] at hmore
  exact ⟨hcfg'.trans hcfg, new ++ more, by rw [hout', hout, List.append_assoc], hnew.adds_append hmore⟩

theorem of_modFg (s : State) (f : Fg → Fg) : FgTraced s true (s.modFg f) := ⟨rfl, (refl s).out⟩

theorem of_log (s : State) (e : LogEntry) : FgTraced s true (s.log e) := ⟨rfl, [.log e], rfl, settled_log s.par e⟩

end FgTraced

namespace State

variable (s : State)

theorem regWrite_traced (reg : Byte) (d : List Byte) (t : Nat) (ht : (settleDelays s.par).contains t = true) :
    FgTraced s (s.regWrite reg d t).1 (s.regWrite reg d t).2 := by
  unfold regWrite
  rw [busWrite_eq]
  cases ((s.setLastReg reg).takeBusReply 0).1.succeeds with
  | true => exact ⟨rfl, _, List.append_assoc .., settled_write s.par _ t ht _⟩
  | false => exact ⟨rfl, _, rfl, stopped_write s.par _ _⟩

theorem regRead_traced (reg : Byte) (n t : Nat) (ht : (settleDelays s.par).contains t = true) :
    FgTraced s (s.regRead reg n t).1.isSome (s.regRead reg n t).2 := by
  unfold regRead
  rw [busWrite_eq]
  cases ((s.setLastReg reg).takeBusReply 0).1.succeeds with
  | false => exact ⟨rfl, _, rfl, stopped_write s.par _ _⟩
  | true =>
    dsimp only
    rw [busRead_eq]
    generalize (takeBusReply _ n) = answer
    cases answer.1.bytesFor n with
    | some d =>
      refine ⟨rfl, _, ?_, settled_read s.par s.par.fgDevAddr t ht [reg] d n⟩
      simp [par]
    | none =>
      refine ⟨rfl, _, ?_, stopped_read s.par s.par.fgDevAddr [reg] n⟩
      simp [par]

theorem sumLenRead_traced : FgTraced s s.sumLenRead.1.isSome s.sumLenRead.2 := by
  have hsum := s.regRead_traced s.par.fgRegMacSum 1 _ (contains_fgTSettle s.par)
  unfold sumLenRead
  generalize s.regRead s.par.fgRegMacSum 1 s.par.fgTSettle = answer at hsum ⊢
  rcases answer with ⟨_ | a, s1⟩
  · exact hsum
  · have hlen := s1.regRead_traced s1.par.fgRegMacLen 1 _ (contains_fgTSettle s1.par)
    dsimp only
    generalize s1.regRead s1.par.fgRegMacLen 1 s1.par.fgTSettle = answer at hlen ⊢
    rcases answer with ⟨_ | b, s2⟩
    · exact hsum.trans hlen
    · exact hsum.trans hlen

theorem sumLenWrite_traced (sum len : Byte) : FgTraced s (s.sumLenWrite sum len).1 (s.sumLenWrite sum len).2 := by
  have hsum := (FgTraced.of_modFg s _).trans
    ((s.setLastChecksum sum).regWrite_traced s.par.fgRegMacSum [sum] _ (contains_fgTSettle s.par))
  unfold sumLenWrite
  generalize (s.setLastChecksum sum).regWrite s.par.fgRegMacSum [sum] s.par.fgTSettle = answer at hsum ⊢
  rcases answer with ⟨_ | _, s1⟩
  · exact hsum
  · exact hsum.trans (s1.regWrite_traced _ _ _ (contains_fgTSettle s1.par))

theorem checkSumLen_traced (sum len : Byte) : FgTraced s true (s.checkSumLen sum len) := by
  have hsum (t : State) (e : LogEntry) (c : Prop) [Decidable c] : FgTraced t true (if c then t.log e else t) := by
    split
    · exact .of_log t e
    · exact .refl t
  exact (hsum s _ _).trans (hsum _ _ _)

theorem setMacBuf_traced (d : List Byte) : FgTraced s true (s.setMacBuf d) := .of_modFg s _

theorem readExt_traced (sub : U16) (n : Nat) : FgTraced s (s.readExt sub n).1.isSome (s.readExt sub n).2 := by
  have hcmd := s.regWrite_traced s.par.fgRegMacCmd (le16 sub) _ (contains_fgTMac s.par)
  unfold readExt
  generalize s.regWrite s.par.fgRegMacCmd (le16 sub) s.par.fgTMac = answer at hcmd ⊢
  rcases answer with ⟨_ | _, s1⟩
  · exact hcmd
  · have hsums := (hcmd.trans (.of_modFg s1 _)).trans (s1.setLastSubCmd sub).sumLenRead_traced
    dsimp only
    generalize (s1.setLastSubCmd sub).sumLenRead = answer at hsums ⊢
    rcases answer with ⟨_ | v, s2⟩
    · exact hsums
    · have hdata := (hsums.trans (s2.checkSumLen_traced v.1 v.2)).trans
        ((s2.checkSumLen v.1 v.2).regRead_traced s2.par.fgRegMacData n s2.par.fgTSettle
          (by rw [State.par, (s2.checkSumLen_traced v.1 v.2).cfg]; exact contains_fgTSettle s2.par))
      dsimp only
      generalize (s2.checkSumLen v.1 v.2).regRead s2.par.fgRegMacData n s2.par.fgTSettle = answer at hdata ⊢
      rcases answer with ⟨_ | d, s3⟩
      · exact hdata
      · exact hdata.trans (s3.setMacBuf_traced d)

theorem writePayload_traced (sub : U16) (pay : List Byte) :
    FgTraced s (s.writePayload sub pay).1 (s.writePayload sub pay).2 := by
  unfold writePayload
  split
  · exact s.regWrite_traced _ _ _ (contains_fgTSettle s.par)
  · have hcmd := s.regWrite_traced s.par.fgRegMacCmd (le16 sub) _ (contains_fgTSettle s.par)
    generalize s.regWrite s.par.fgRegMacCmd (le16 sub) s.par.fgTSettle = answer at hcmd ⊢
    rcases answer with ⟨_ | _, s1⟩
    · exact hcmd
    · exact hcmd.trans (s1.regWrite_traced _ _ _ (contains_fgTSettle s1.par))

theorem preRead_traced (sub : U16) (preserve : Bool) : FgTraced s (s.preRead sub preserve).1 (s.preRead sub preserve).2 := by
  unfold preRead
  split
  · have hread := s.readExt_traced sub fgMacLen
    generalize s.readExt sub fgMacLen = answer at hread ⊢
    rcases answer with ⟨_ | d, s1⟩ <;> exact hread
  · exact .refl s

/-- The three statuses of a commit; only a failed transfer is `BusError`. -/
theorem commitExt_traced (sub : U16) : FgTraced s ((s.commitExt sub).1 != .transportError) (s.commitExt sub).2 := by
  have hpay := s.writePayload_traced sub s.fg.macBuf.toList
  unfold commitExt
  dsimp only
  generalize s.writePayload sub s.fg.macBuf.toList = answer at hpay ⊢
  rcases answer with ⟨_ | _, s1⟩
  · exact hpay
  · have hsums := (hpay.trans (.of_modFg s1 _)).trans ((s1.setLastSubCmd sub).sumLenWrite_traced
      (fgChecksum s1.par sub s.fg.macBuf.toList) (lengthRegister s1.par))
    dsimp only
    generalize (s1.setLastSubCmd sub).sumLenWrite (fgChecksum s1.par sub s.fg.macBuf.toList) (lengthRegister s1.par) = answer at hsums ⊢
    rcases answer with ⟨_ | _, s2⟩
    · exact hsums
    · have hback := hsums.trans (s2.readExt_traced sub fgMacLen)
      dsimp only
      generalize s2.readExt sub fgMacLen = answer at hback ⊢
      rcases answer with ⟨_ | d, s3⟩
      · exact hback
      · dsimp only
        split
        · exact hback.trans (.of_log s3 _)
        · exact hback

theorem commitExt_status (sub : U16) : (s.commitExt sub).1 = .ok ∨ (s.commitExt sub).1 = .transportError ∨
    (s.commitExt sub).1 = .protocolError := by
  unfold commitExt
  dsimp only
  split
  · exact .inr (.inl rfl)
  · split
    · exact .inr (.inl rfl)
    · split
      · exact .inr (.inl rfl)
      · split
        · exact .inr (.inr rfl)
        · exact .inl rfl

end State

theorem pollLoop_traced (left k : Nat) (s : State) : FgTraced s ((pollLoop left k s).1 != .busError) (pollLoop left k s).2 := by
  induction left generalizing k s with
  | zero => exact .refl s
  | succ left ih =>
    have hread := s.regRead_traced s.par.fgRegControl 2 _ (contains_fgPollMs s.par)
    unfold pollLoop
    generalize s.regRead s.par.fgRegControl 2 fgPollMs = answer at hread ⊢
    rcases answer with ⟨_ | d, s1⟩
    · exact hread
    · have hset := hread.trans (.of_modFg s1 fun g => { g with lastCtrl := rd16 d })
      dsimp only
      split
      · exact hset
      · exact hset.trans (ih _ _)

theorem readBlocks_traced (bases : List Byte) (s : State) :
    FgTraced s (readBlocks bases s).1.isSome (readBlocks bases s).2 := by
  induction bases generalizing s with
  | nil => exact .refl s
  | cons b rest ih =>
    have hread := s.regRead_traced b fgBlockLen _ (contains_fgTSettle s.par)
    unfold readBlocks
    generalize s.regRead b fgBlockLen s.par.fgTSettle = answer at hread ⊢
    rcases answer with ⟨_ | d, s1⟩
    · exact hread
    · have hrest := hread.trans (ih s1)
      dsimp only
      generalize readBlocks rest s1 = answer at hrest ⊢
      rcases answer with ⟨_ | t, s2⟩
      · exact hrest
      · exact hrest

theorem writeModeWords_traced (words : List U16) (s : State) :
    FgTraced s (writeModeWords words s).1 (writeModeWords words s).2 := by
  induction words generalizing s with
  | nil => exact .refl s
  | cons w rest ih =>
    have hword := s.regWrite_traced s.par.fgRegControl (le16 w) _ (contains_fgTSettle s.par)
    unfold writeModeWords
    generalize s.regWrite s.par.fgRegControl (le16 w) s.par.fgTSettle = answer at hword ⊢
    rcases answer with ⟨_ | _, s1⟩
    · exact hword
    · exact (hword.trans (.of_modFg s1 _)).trans (ih _)

theorem State.setRaw_traced (s : State) (d : List Byte) : FgTraced s true (s.setRaw d) := .of_modFg s _

theorem State.scrambleRaw_out (s : State) : s.scrambleRaw.out = s.out := by
  simp only [State.scrambleRaw, State.drawBytes, State.setRaw_out]

/-! ### Whole operations -/

/-- The entries `new` keep the delay discipline, and say whether the status is `BusError`. -/
structure FgAccounts (p : Params) (st : Status) (new : List TraceEntry) : Prop where
  disciplined : disciplined p new = true
  reported : st = .transportError ↔ ∃ e ∈ new, e.busFailed = true
  last : st = .transportError → ∃ before e, new = before ++ [e] ∧ e.busFailed = true ∧ ∀ x ∈ before, x.busFailed = false

theorem not_exists_failed {new : List TraceEntry} (h : ∀ e ∈ new, e.busFailed = false) : ¬∃ e ∈ new, e.busFailed = true := by
  rintro ⟨e, he, hfailed⟩
  rw [h e he] at hfailed
  exact nomatch hfailed

theorem Stopped.accounts {p : Params} {new : List TraceEntry} (h : Stopped p new) : FgAccounts p .transportError new := by
  obtain ⟨hdisciplined, before, e, rfl, he, hbefore⟩ := h
  exact ⟨hdisciplined, iff_of_true rfl ⟨e, List.mem_append_right _ (List.mem_cons_self ..), he⟩,
    fun _ => ⟨before, e, rfl, he, hbefore⟩⟩

theorem Settled.accounts {p : Params} {st : Status} {new : List TraceEntry} (h : Settled p new) (hst : st ≠ .transportError) :
    FgAccounts p st new :=
  ⟨h.disciplined, iff_of_false hst (not_exists_failed h.succeeded), fun e => absurd e hst⟩

/-- `FG_SEAL` and its like end with the long delay. -/
theorem Settled.accounts_mode {p : Params} {new : List TraceEntry} (h : Settled p new) :
    FgAccounts p .ok (new ++ [.delay p.fgTMode]) := by
  refine ⟨by rw [h.disciplined_append]; exact beq_self_eq_true _, iff_of_false nofun (not_exists_failed ?_), nofun⟩
  exact List.forall_mem_append.2 ⟨h.succeeded, by simp [TraceEntry.busFailed]⟩

/-- The operation completes with a status of its row and a trace that accounts for it; the other unit is left alone. -/
def FgEnds (i : Instr) (s : State) : Prop :=
  ∃ st t o, exec i s = .next (t.finish st o) ∧ FgRan s t ∧ Permits i st ∧
    ∃ new, t.out = s.out ++ new ∧ FgAccounts s.par st new

section
variable {i : Instr} {s t : State} {o : Output}

theorem fgEnds_ok {st : Status} (hi : exec i s = .next (t.finish st o)) (hran : FgRan s t) (h : FgTraced s true t)
    (hst : Permits i st) (hne : st ≠ .transportError) : FgEnds i s := by
  obtain ⟨new, hout, hnew⟩ := h.out
  exact ⟨st, t, o, hi, hran, hst, new, hout, hnew.accounts hne⟩

theorem fgEnds_stopped (hi : exec i s = .next (t.finish .transportError o)) (hran : FgRan s t) (h : FgTraced s false t)
    (hst : Permits i .transportError) : FgEnds i s := by
  obtain ⟨new, hout, hnew⟩ := h.out
  exact ⟨.transportError, t, o, hi, hran, hst, new, hout, hnew.accounts⟩

/-- An operand outside its range is logged and refused. -/
theorem fgEnds_refused {e : LogEntry} (hi : exec i s = .next ((s.log e).finish .invalidArgument o))
    (hst : Permits i .invalidArgument) : FgEnds i s :=
  fgEnds_ok hi (.of_log s e) (.of_log s e) hst nofun

theorem fgEnds_mode (words : List U16) (hi : exec i s = .next (modeCommand words s)) (hok : Permits i .ok)
    (hbad : Permits i .transportError) : FgEnds i s := by
  have htraced := writeModeWords_traced words s
  have hran := writeModeWords_ran words s
  unfold modeCommand at hi
  generalize writeModeWords words s = answer at htraced hran hi
  rcases answer with ⟨_ | _, s1⟩
  · exact fgEnds_stopped hi hran htraced hbad
  · obtain ⟨hcfg, new, hout, hnew⟩ := htraced
    refine ⟨_, _, _, hi, hran.trans (.of_delay _ _), hok, new ++ [.delay s.par.fgTMode], ?_, hnew.accounts_mode⟩
    rw [State.delay_out, hout, List.append_assoc, State.par, hcfg]

end

section
variable (s : State)

theorem fgEnds_fgRegRead (reg : Byte) (n : Nat) : FgEnds (.fgRegRead reg n) s := by
  have hexec : exec (.fgRegRead reg n) s = execFgRegRead reg n s := rfl
  unfold execFgRegRead at hexec
  split at hexec
  · exact fgEnds_refused hexec ⟨rfl, nofun⟩
  · have htraced := s.regRead_traced reg n _ (contains_fgTSettle s.par)
    have hran := s.regRead_ran reg n s.par.fgTSettle
    generalize s.regRead reg n s.par.fgTSettle = answer at hexec htraced hran
    rcases answer with ⟨_ | d, s1⟩
    · exact fgEnds_stopped hexec hran htraced ⟨rfl, nofun⟩
    · exact fgEnds_ok hexec hran htraced ⟨rfl, nofun⟩ nofun

theorem fgEnds_fgRegWrite (reg : Byte) (d : List Byte) : FgEnds (.fgRegWrite reg d) s := by
  have hexec : exec (.fgRegWrite reg d) s = execFgRegWrite reg d s := rfl
  unfold execFgRegWrite at hexec
  split at hexec
  · exact fgEnds_refused hexec ⟨rfl, nofun⟩
  · have htraced := s.regWrite_traced reg d _ (contains_fgTSettle s.par)
    have hran := s.regWrite_ran reg d s.par.fgTSettle
    generalize s.regWrite reg d s.par.fgTSettle = answer at hexec htraced hran
    rcases answer with ⟨_ | _, s1⟩
    · exact fgEnds_stopped hexec hran htraced ⟨rfl, nofun⟩
    · exact fgEnds_ok hexec hran htraced ⟨rfl, nofun⟩ nofun

theorem fgEnds_fgSumlenRead : FgEnds .fgSumlenRead s := by
  have hexec : exec .fgSumlenRead s = execFgSumlenRead s := rfl
  have htraced := s.sumLenRead_traced
  have hran := s.sumLenRead_ran
  unfold execFgSumlenRead at hexec
  generalize s.sumLenRead = answer at hexec htraced hran
  rcases answer with ⟨_ | v, s1⟩
  · exact fgEnds_stopped hexec hran htraced ⟨rfl, nofun⟩
  · exact fgEnds_ok hexec hran htraced ⟨rfl, nofun⟩ nofun

theorem fgEnds_fgSumlenWrite (sum len : Byte) : FgEnds (.fgSumlenWrite sum len) s := by
  have hexec : exec (.fgSumlenWrite sum len) s = execFgSumlenWrite sum len s := rfl
  have htraced := s.sumLenWrite_traced sum len
  have hran := s.sumLenWrite_ran sum len
  unfold execFgSumlenWrite at hexec
  generalize s.sumLenWrite sum len = answer at hexec htraced hran
  rcases answer with ⟨_ | _, s1⟩
  · exact fgEnds_stopped hexec hran htraced ⟨rfl, nofun⟩
  · exact fgEnds_ok hexec hran htraced ⟨rfl, nofun⟩ nofun

theorem fgEnds_fgSendSubcommand (cmd : U16) : FgEnds (.fgSendSubcommand cmd) s := by
  have hexec : exec (.fgSendSubcommand cmd) s = execFgSendSubcommand cmd s := rfl
  have htraced := s.regWrite_traced s.par.fgRegControl (le16 cmd) _ (contains_fgTSettle s.par)
  have hran := s.regWrite_ran s.par.fgRegControl (le16 cmd) s.par.fgTSettle
  unfold execFgSendSubcommand at hexec
  generalize s.regWrite s.par.fgRegControl (le16 cmd) s.par.fgTSettle = answer at hexec htraced hran
  rcases answer with ⟨_ | _, s1⟩
  · exact fgEnds_stopped hexec hran htraced ⟨rfl, nofun⟩
  · have htraced := (htraced.trans (.of_modFg s1 _)).trans (pollLoop_traced fgPollMax 1 (s1.setLastSubCmd cmd))
    have hran := (hran.trans (.of_modFg s1 _)).trans (pollLoop_ran fgPollMax 1 (s1.setLastSubCmd cmd))
    dsimp only at hexec
    generalize pollLoop fgPollMax 1 (s1.setLastSubCmd cmd) = answer at htraced hran hexec
    rcases answer with ⟨_ | k | _, s2⟩
    · exact fgEnds_stopped hexec hran htraced ⟨rfl, nofun⟩
    · exact fgEnds_ok hexec hran htraced ⟨rfl, nofun⟩ nofun
    · exact fgEnds_ok hexec (hran.trans (.of_log s2 _)) (htraced.trans (.of_log s2 _)) ⟨rfl, nofun⟩ nofun

theorem fgEnds_fgReadStd : FgEnds .fgReadStd s := by
  have hexec : exec .fgReadStd s = execFgReadStd s := rfl
  have htraced := readBlocks_traced (blockBases s.par) s
  have hran := readBlocks_ran (blockBases s.par) s
  unfold execFgReadStd at hexec
  generalize readBlocks (blockBases s.par) s = answer at hexec htraced hran
  rcases answer with ⟨_ | t, s1⟩
  · have hscramble : FgTraced s false s1.scrambleRaw :=
      ⟨s1.scrambleRaw_ran.cfg.trans htraced.cfg, by rw [s1.scrambleRaw_out]; exact htraced.out⟩
    exact fgEnds_stopped hexec (hran.trans s1.scrambleRaw_ran) hscramble ⟨rfl, nofun⟩
  · exact fgEnds_ok hexec (hran.trans (s1.setRaw_ran t)) (htraced.trans (s1.setRaw_traced t)) ⟨rfl, nofun⟩ nofun

theorem fgEnds_fgReadExt (sub : U16) (n : Nat) : FgEnds (.fgReadExt sub n) s := by
  have hexec : exec (.fgReadExt sub n) s = execFgReadExt sub n s := rfl
  unfold execFgReadExt at hexec
  split at hexec
  · exact fgEnds_refused hexec ⟨rfl, nofun⟩
  · have htraced := s.readExt_traced sub n
    have hran := s.readExt_ran sub n
    generalize s.readExt sub n = answer at hexec htraced hran
    rcases answer with ⟨_ | d, s1⟩
    · exact fgEnds_stopped hexec hran htraced ⟨rfl, nofun⟩
    · exact fgEnds_ok hexec hran htraced ⟨rfl, nofun⟩ nofun

theorem fgEnds_fgWriteExt (sub : U16) (data : U32) (q : Nat) (preserve : Bool) : FgEnds (.fgWriteExt sub data q preserve) s := by
  have hexec : exec (.fgWriteExt sub data q preserve) s = execFgWriteExt sub data q preserve s := rfl
  unfold execFgWriteExt at hexec
  split at hexec
  · exact fgEnds_refused hexec ⟨rfl, nofun⟩
  · have htraced := s.preRead_traced sub preserve
    have hran := s.preRead_ran sub preserve
    generalize s.preRead sub preserve = answer at hexec htraced hran
    rcases answer with ⟨_ | _, s1⟩
    · exact fgEnds_stopped hexec hran htraced ⟨rfl, nofun⟩
    · have htraced := (htraced.trans (.of_modFg s1 _)).trans ((s1.setMacBuf (scalarBytes data q)).commitExt_traced sub)
      have hran := (hran.trans (s1.setMacBuf_ran _)).trans ((s1.setMacBuf (scalarBytes data q)).commitExt_ran sub)
      have hstatus := (s1.setMacBuf (scalarBytes data q)).commitExt_status sub
      dsimp only at hexec
      generalize (s1.setMacBuf (scalarBytes data q)).commitExt sub = ended at hexec htraced hran hstatus
      obtain ⟨st, s2⟩ := ended
      rcases hstatus with rfl | rfl | rfl
      · exact fgEnds_ok hexec hran htraced ⟨rfl, nofun⟩ nofun
      · exact fgEnds_stopped hexec hran htraced ⟨rfl, nofun⟩
      · exact fgEnds_ok hexec hran htraced ⟨rfl, nofun⟩ nofun

/-- Every FG operation completes. -/
theorem fgEnds {i : Instr} (hi : isFgInstr i = true) : FgEnds i s := by
  cases i with
  | fgRegRead reg n => exact fgEnds_fgRegRead s reg n
  | fgRegWrite reg d => exact fgEnds_fgRegWrite s reg d
  | fgSumlenRead => exact fgEnds_fgSumlenRead s
  | fgSumlenWrite sum len => exact fgEnds_fgSumlenWrite s sum len
  | fgSendSubcommand cmd => exact fgEnds_fgSendSubcommand s cmd
  | fgReadStd => exact fgEnds_fgReadStd s
  | fgReadExt sub n => exact fgEnds_fgReadExt s sub n
  | fgWriteExt sub data q preserve => exact fgEnds_fgWriteExt s sub data q preserve
  | fgSeal => exact fgEnds_mode _ rfl ⟨rfl, nofun⟩ ⟨rfl, nofun⟩
  | fgUnseal => exact fgEnds_mode _ rfl ⟨rfl, nofun⟩ ⟨rfl, nofun⟩
  | fgEnterCfgUpdate => exact fgEnds_mode _ rfl ⟨rfl, nofun⟩ ⟨rfl, nofun⟩
  | fgReset => exact fgEnds_mode _ rfl ⟨rfl, nofun⟩ ⟨rfl, nofun⟩
  | _ => exact nomatch hi

end

/-- Settles O56: what an FG operation adds is a run of complete transactions, or one stopped at a failure, or such a run and the
long delay. -/
theorem delaysFollowTransactions : Obligations.DelaysFollowTransactions := by
  intro i s t hi h
  obtain ⟨st, u, o, hexec, -, -, new, hout, hnew⟩ := fgEnds s hi
  obtain rfl := Host.Outcome.next.inj (hexec.symm.trans h)
  exact ⟨new, hout, hnew.disciplined⟩

end Sys2Proof.Machine

/-! The whole block: what holds of every operation, from the ways in which the operations of the two units end. -/

namespace Sys2Proof.Machine

open Sys2Proof

section
variable {i : Instr} {s t : State}

theorem exec_fg (hi : isFgInstr i = true) (h : exec i s = .next t) : ∃ st u o, t = u.finish st o ∧ FgRan s u ∧
    Permits i st ∧ ∃ new, u.out = s.out ++ new ∧ FgAccounts s.par st new := by
  obtain ⟨st, u, o, hexec, hends⟩ := fgEnds s hi
  exact ⟨st, u, o, Host.Outcome.next.inj (h.symm.trans hexec), hends⟩

theorem exec_cmux (hi : isFgInstr i = false) (h : exec i s = .next t) : ∃ st u o, t = u.finish st o ∧ CmuxRun s i st u := by
  obtain ⟨st, u, o, hexec, hrun⟩ := cmuxEnds s hi
  exact ⟨st, u, o, Host.Outcome.next.inj (h.symm.trans hexec), hrun⟩

end

/-! ### Every operation completes, in its own unit (R2, R270) -/

/-- Settles O60: each unit's operations complete with a status of their row. -/
theorem everyOperationReturnsOneStatus : Obligations.EveryOperationReturnsOneStatus := by
  intro i s
  cases hi : isFgInstr i with
  | true =>
    obtain ⟨st, t, o, hexec, hran, ⟨hst, hne⟩, -⟩ := fgEnds s hi
    exact ⟨_, st, o, hexec, rfl, List.contains_iff_mem.1 hst, hne, hran.cfg⟩
  | false =>
    obtain ⟨st, t, o, hexec, hrun⟩ := cmuxEnds s hi
    obtain ⟨hst, hne⟩ := hrun.done.permits
    exact ⟨_, st, o, hexec, rfl, List.contains_iff_mem.1 hst, hne, hrun.done.cfg⟩

/-- Settles O58: neither unit reaches the other's state, answers or entries. -/
theorem unitsAreIndependent : Obligations.UnitsAreIndependent := by
  intro i s t h
  cases hi : isFgInstr i with
  | true =>
    obtain ⟨st, u, o, rfl, hran, -⟩ := exec_fg hi h
    obtain ⟨new, hout, hnew⟩ := hran.out
    exact ⟨new, hout, fun _ => ⟨hran.mux, hran.link, hnew⟩, nofun⟩
  | false =>
    obtain ⟨st, u, o, rfl, hrun⟩ := exec_cmux hi h
    obtain ⟨new, hout, hnew⟩ := hrun.done.out
    exact ⟨new, hout, nofun, fun _ => ⟨hrun.done.fg, hrun.done.bus, hnew⟩⟩

/-- No operation takes a request of its own. -/
theorem exec_requests {i : Instr} {s t : State} (h : exec i s = .next t) : t.requests = s.requests := by
  cases hi : isFgInstr i with
  | true =>
    obtain ⟨st, u, o, rfl, hran, -⟩ := exec_fg hi h
    exact hran.requests
  | false =>
    obtain ⟨st, u, o, rfl, hrun⟩ := exec_cmux hi h
    exact hrun.done.requests

/-- Settles O5: the decoder decides, and every instruction completes. -/
theorem stepAnswersEveryRequest : Obligations.StepAnswersEveryRequest := by
  intro s
  refine ⟨step_of_no_requests, fun r rest hr => ?_⟩
  cases hd : decode r.port r.bytes with
  | ok i =>
    obtain ⟨t, st, o, hexec, hresult, -, -, hcfg⟩ := everyOperationReturnsOneStatus i { s with requests := rest }
    rw [if_neg (by rintro (h | h) <;> exact nomatch h), step_of_instr hr hd]
    exact ⟨t, _, hexec, hcfg, exec_requests hexec, hresult⟩
  | error e =>
    rw [step_of_error hr hd]
    cases e with
    | truncated => exact (if_pos (Or.inl rfl)).mpr rfl
    | notABit => exact (if_pos (Or.inr rfl)).mpr rfl
    | unassignedOpSelect c =>
      rw [if_neg (by rintro (h | h) <;> exact nomatch h)]
      exact ⟨_, _, rfl, rfl, rfl, rfl⟩
    | unknownFrameType c =>
      rw [if_neg (by rintro (h | h) <;> exact nomatch h)]
      exact ⟨_, _, rfl, rfl, rfl, rfl⟩

/-! ### Channels and flow flags (R45, R182) -/

theorem State.evalRxFlow_state (s : State) (n k : Nat) : ((s.evalRxFlow n).2.chan k).state = (s.chan k).state := by
  rcases s.evalRxFlow_cases n with h | ⟨off, -, ⟨-, h⟩ | ⟨-, h⟩⟩ <;> rw [h]
  · have hran := s.emitMsc_ran n off
    rw [event_chan, setRxFlow, ← hran.chan k]
    rcases (s.emitMsc n off).2.setChan_chan_cases n { (s.emitMsc n off).2.chan n with rxIsFlowControlledOff := off } k
      with hk | ⟨rfl, hk⟩ <;> rw [hk]
  · exact congrArg Channel.state ((s.emitMsc_ran n off).chan k)

theorem State.popChan_state (s : State) (n len k : Nat) : ((s.popChan n len).chan k).state = (s.chan k).state := by
  rw [popChan]
  rcases s.setChan_chan_cases n { s.chan n with rx := (s.chan n).rx.advance len } k with h | ⟨rfl, h⟩ <;> rw [h]

/-- Settles O41: `OPEN_CHANNEL` opens, `CLOSE_CHANNEL` and reception disconnect, nothing else moves a channel. -/
theorem channelStatesFollowTheTable : Obligations.ChannelStatesFollowTheTable := by
  intro i s t n h hs ht
  cases hi : isFgInstr i with
  | true =>
    obtain ⟨st, u, o, rfl, hran, -⟩ := exec_fg hi h
    exact .inl (congrArg Channel.state (State.chan_eq_of_mux_eq hran.mux n))
  | false =>
    obtain ⟨st, u, o, rfl, hrun⟩ := exec_cmux hi h
    rw [State.finish_chan]
    cases hrun with
    | unchanged => exact .inl rfl
    | enabled hm => exact absurd hm hs
    | disabled => exact absurd rfl ht
    | @opened k _ hnull =>
      rcases s.setChan_chan_cases k (openedChannel s.par (s.chan k)) n with hc | ⟨rfl, hc⟩ <;> rw [hc]
      · exact .inl rfl
      · exact .inr (.inl ⟨rfl, hnull, rfl⟩)
    | unsent => exact .inl rfl
    | @closed k b _ _ ho =>
      rcases (s.linkSent b).setChan_chan_cases k (closedChannel (s.chan k)) n with hc | ⟨rfl, hc⟩ <;> rw [hc]
      · exact .inl rfl
      · exact .inr (.inr ⟨.inl rfl, ho, rfl⟩)
    | written => exact .inl rfl
    | @armed k _ _ _ _ b v =>
      rcases (s.linkSent b).setChan_chan_cases k { s.chan k with wanted := v } n with hc | ⟨rfl, hc⟩ <;> rw [hc]
      · exact .inl rfl
      · exact .inl rfl
    | @received data =>
      rcases (receiveDid_part.receive s data).moves n with hc | hc
      · exact .inl hc
      · exact .inr (.inr ⟨.inr ⟨data, rfl⟩, hc⟩)
    | @readOpened k len =>
      exact .inl (((s.popChan k len).evalRxFlow_state k n).trans (s.popChan_state k len n))
    | @readDisconnected k len => exact .inl (s.popChan_state k len n)

theorem State.linkSent_setChan_flow (s : State) (b : List Byte) (k : Nat) (c : Channel)
    (hc : c.rxIsFlowControlledOff = (s.chan k).rxIsFlowControlledOff) (n : Nat) :
    (((s.linkSent b).setChan k c).chan n).rxIsFlowControlledOff = (s.chan n).rxIsFlowControlledOff := by
  rcases (s.linkSent b).setChan_chan_cases k c n with h | ⟨rfl, h⟩ <;> rw [h]
  · rfl
  · exact hc

/-- Settles O42: reception and reading account for each change, and no other operation makes one. -/
theorem rxFlowChangesAreAnnounced : Obligations.RxFlowChangesAreAnnounced := by
  intro i s t n h henable hdisable hopen hchanged
  suffices h : ∃ new, t.out = s.out ++ new ∧ Announced s.par n (t.chan n).rxIsFlowControlledOff new by
    obtain ⟨new, hout, b, r, hannounced⟩ := h
    exact ⟨new, b, r, hout, hannounced⟩
  cases hi : isFgInstr i with
  | true =>
    obtain ⟨st, u, o, rfl, hran, -⟩ := exec_fg hi h
    exact absurd (congrArg Channel.rxIsFlowControlledOff (State.chan_eq_of_mux_eq hran.mux n)) hchanged
  | false =>
    obtain ⟨st, u, o, rfl, hrun⟩ := exec_cmux hi h
    cases hrun with
    | unchanged => exact absurd rfl hchanged
    | enabled => exact absurd rfl henable
    | disabled => exact absurd rfl hdisable
    | @opened k =>
      rcases s.setChan_chan_cases k (openedChannel s.par (s.chan k)) n with hc | ⟨rfl, -⟩
      · exact absurd (congrArg Channel.rxIsFlowControlledOff hc) hchanged
      · exact absurd rfl (hopen true)
    | unsent => exact absurd rfl hchanged
    | @closed k b => exact absurd (s.linkSent_setChan_flow b k (closedChannel (s.chan k)) rfl n) hchanged
    | written => exact absurd rfl hchanged
    | @armed k _ _ _ _ b v => exact absurd (s.linkSent_setChan_flow b k { s.chan k with wanted := v } rfl n) hchanged
    | @received data => exact (receiveDid_part.receive s data).announces hchanged
    | @readOpened k len =>
      exact (((s.popChan_quiet k len).did .ok).trans (.inl rfl) (State.evalRxFlow_did _ k)).announces hchanged
    | @readDisconnected k len => exact absurd ((s.popChan_quiet k len).flow n) hchanged

/-! ### Failed transfers (R176, R247, R271, R286) -/

/-- The operations that log a failed write where it happens. -/
def OwnAccount (i : Instr) : Prop := (∃ d, i = .onBytesReceived d) ∨ ∃ h k, i = .channelRead h k

/-- A failed link write in `new` is reported: where it happened, or as all the operation did. -/
def FailuresAreReported (s : State) (i : Instr) (st : Status) (t : State) (new : List TraceEntry) : Prop :=
  (∃ e ∈ new, e.linkFailed = true) → st = .transportError ∧
    (OwnAccount i → FailuresAreLogged new) ∧ (¬OwnAccount i → t.mux = s.mux ∧ ∃ e, new = [e])

theorem failuresAreReported_of_none {s t : State} {i : Instr} {st : Status} {new : List TraceEntry}
    (h : ∀ e ∈ new, e.linkFailed = false) : FailuresAreReported s i st t new := by
  rintro ⟨e, he, hfailed⟩
  rw [h e he] at hfailed
  exact nomatch hfailed

theorem not_ownAccount_of_sendsOneFrame {i : Instr} (h : sendsOneFrame i = true) : ¬OwnAccount i := by
  rintro (⟨d, rfl⟩ | ⟨n, k, rfl⟩) <;> exact nomatch h

theorem ReceiveDid.reports {s t : State} {i : Instr} {st : Status} (h : ReceiveDid s st t) (hi : OwnAccount i) :
    ∃ new, t.out = s.out ++ new ∧ FailuresAreReported s i st t new := by
  obtain ⟨new, hnew⟩ := h.account
  exact ⟨new, hnew.out, fun hfailed => ⟨hnew.reported hfailed, fun _ => hnew.logged, absurd hi⟩⟩

theorem CmuxRun.reports {s t : State} {i : Instr} {st : Status} (h : CmuxRun s i st t) :
    ∃ new, t.out = s.out ++ new ∧ FailuresAreReported s i st t new := by
  have hsilent : ∃ new, s.out = s.out ++ new ∧ FailuresAreReported s i st t new :=
    ⟨[], (List.append_nil _).symm, failuresAreReported_of_none nofun⟩
  have hwhole {b : List Byte} (hb : s.takeLinkReply.1.covers b.length = true) :
      ∃ new, s.out ++ [.linkWrite b s.takeLinkReply.1] = s.out ++ new ∧ FailuresAreReported s i st t new :=
    ⟨_, rfl, failuresAreReported_of_none (by simpa [TraceEntry.linkFailed] using hb)⟩
  cases h with
  | unchanged => exact hsilent
  | enabled => exact hsilent
  | disabled => exact hsilent
  | opened => exact hsilent
  | unsent hi => exact ⟨_, rfl, fun _ => ⟨rfl, fun hown => absurd hown (not_ownAccount_of_sendsOneFrame hi), fun _ => ⟨rfl, _, rfl⟩⟩⟩
  | closed hb => exact hwhole hb
  | written hb => exact hwhole hb
  | armed hb => exact hwhole hb
  | @received data => exact (receiveDid_part.receive s data).reports (.inl ⟨data, rfl⟩)
  | @readOpened k len =>
    exact (((s.popChan_quiet k len).did .ok).trans (.inl rfl) (State.evalRxFlow_did _ k)).reports (.inr ⟨k, len, rfl⟩)
  | readDisconnected => exact hsilent

/-- Settles O57: an FG trace holds no link write and tells of its failure; a CMUX trace is one write at most, or accounted for
part by part. -/
theorem transportFailuresAreReturned : Obligations.TransportFailuresAreReturned := by
  intro i s t h
  cases hi : isFgInstr i with
  | true =>
    obtain ⟨st, u, o, rfl, hran, -, new, hout, hnew⟩ := exec_fg hi h
    obtain ⟨new', hout', hfg⟩ := hran.out
    obtain rfl := List.append_cancel_left (hout.symm.trans hout')
    refine ⟨new, st, o, hout, rfl, fun _ => ⟨hnew.reported, hnew.last⟩, failuresAreReported_of_none (i := i) fun e he => ?_⟩
    have hmine := hfg e he
    cases e with
    | linkWrite => exact nomatch hmine
    | _ => rfl
  | false =>
    obtain ⟨st, u, o, rfl, hrun⟩ := exec_cmux hi h
    obtain ⟨new, hout, hnew⟩ := hrun.reports
    exact ⟨new, st, o, hout, rfl, nofun, hnew⟩

/-! ### The receive buffer between operations (R23, R177) -/

theorem State.muxRx_eq_of_mux_eq {s t : State} (h : t.mux = s.mux) : t.muxRx = s.muxRx := by rw [muxRx, muxRx, h]

theorem State.evalRxFlow_muxRx (s : State) (n : Nat) : (s.evalRxFlow n).2.muxRx = s.muxRx := by
  rcases s.evalRxFlow_cases n with h | ⟨off, -, ⟨-, h⟩ | ⟨-, h⟩⟩ <;> rw [h]
  · rw [event_muxRx, setRxFlow_muxRx, (s.emitMsc_ran n off).muxRx]
  · exact (s.emitMsc_ran n off).muxRx

/-- Reception settles the buffer; every other operation leaves it, or makes or destroys the context. -/
theorem CmuxRun.startsAtFlag {s t : State} {i : Instr} {st : Status} (h : CmuxRun s i st t)
    (hs : StartsAtFlag s.muxRx.data) : StartsAtFlag t.muxRx.data := by
  cases h with
  | unchanged => exact hs
  | enabled => exact .inl rfl
  | disabled => exact .inl rfl
  | opened => rwa [State.setChan_muxRx]
  | unsent => exact hs
  | closed => rwa [State.setChan_muxRx, (s.linkSent_ran _).muxRx]
  | written => exact hs
  | armed => rwa [State.setChan_muxRx, (s.linkSent_ran _).muxRx]
  | @received data => exact (s.feed data).settle_rxSettled.1
  | @readOpened k len =>
    rwa [State.evalRxFlow_muxRx, State.popChan, State.setChan_muxRx]
  | readDisconnected => rwa [State.popChan, State.setChan_muxRx]

/-- Settles O43: the loop ends settled, and every operation keeps what the buffer starts with. -/
theorem receiveBufferSettles : Obligations.ReceiveBufferSettles := by
  refine ⟨fun s t data hm h => ?received, fun i s t h hs => ?kept⟩
  case received =>
    obtain rfl := Host.Outcome.next.inj ((exec_onBytesReceived data hm).symm.trans h)
    exact (s.feed data).settle_rxSettled
  case kept =>
    cases hi : isFgInstr i with
    | true =>
      obtain ⟨st, u, o, rfl, hran, -⟩ := exec_fg hi h
      rwa [State.finish_muxRx, State.muxRx_eq_of_mux_eq hran.mux]
    | false =>
      obtain ⟨st, u, o, rfl, hrun⟩ := exec_cmux hi h
      exact hrun.startsAtFlag hs

end Sys2Proof.Machine

/-! The invariant of the context (R45) under every step. -/

namespace Sys2Proof.Machine

open Sys2Proof

/-! ### Entries in order -/

/-- What is written to an entry keeps it in order: its buffer stays within its capacity, and where it changes, or where the entry
may be flow controlled, it is not `NULL`. -/
theorem ChannelOk.of_data {p : Params} {n : Nat} {c d : Channel} (h : ChannelOk p n c) (hid : d.id = c.id)
    (hc : c.state ≠ .null) (hd : d.state ≠ .null) (hcap : d.rx.cap = c.rx.cap) (hwf : d.rx.wf = true)
    (hempty : n = 0 → d.rx.data = []) : ChannelOk p n d := by
  obtain ⟨hn, -, -, hused, -⟩ := h
  exact ⟨hid.trans hn, hwf, fun e => absurd e hd, fun _ => hcap.trans (hused hc), hempty⟩

/-- A change outside the buffer and the flow flag that moves the channel at most from `OPEN` to `OPEN_DISCONNECTED`. -/
theorem ChannelOk.of_moves {p : Params} {n : Nat} {c d : Channel} (h : ChannelOk p n c) (hid : d.id = c.id)
    (hrx : d.rx = c.rx) (hflow : d.rxIsFlowControlledOff = c.rxIsFlowControlledOff) (hmoves : c.Moves d) :
    ChannelOk p n d := by
  obtain ⟨hn, hwf, hnull, hused, hempty⟩ := h
  rcases hmoves with hstate | ⟨hc, hd⟩
  · exact ⟨hid.trans hn, hrx ▸ hwf, fun e => hrx ▸ hflow ▸ hnull (hstate ▸ e), fun e => hrx ▸ hused (hstate ▸ e),
      fun e => hrx ▸ hempty e⟩
  · exact ⟨hid.trans hn, hrx ▸ hwf, fun e => (nomatch hd.symm.trans e), fun _ => hrx ▸ hused (by simp [hc]),
      fun e => hrx ▸ hempty e⟩

theorem ChannelOk.opened {p : Params} {n : Nat} {c : Channel} (h : ChannelOk p n c) :
    ChannelOk p n (openedChannel p c) :=
  ⟨h.1, Fifo.empty_wf _, nofun, fun _ => rfl, fun _ => rfl⟩

namespace State

section
variable {s : State} (hs : s.Inv)

include hs

theorem Inv.of_emit (e : TraceEntry) : (s.emit e).Inv := hs.of_same rfl rfl

theorem Inv.of_finish (st : Status) (o : Output) : (s.finish st o).Inv := hs.of_same rfl rfl

/-- A change of an entry outside its buffer and its flow flag. -/
theorem Inv.of_setChan_moves {n : Nat} {c : Channel} (hn : n ≤ s.par.maxChannels) (hid : c.id = (s.chan n).id)
    (hrx : c.rx = (s.chan n).rx) (hflow : c.rxIsFlowControlledOff = (s.chan n).rxIsFlowControlledOff)
    (hmoves : (s.chan n).Moves c) : (s.setChan n c).Inv :=
  hs.of_setChan n c hn fun he => (hs.chan he n hn).of_moves hid hrx hflow hmoves

/-! ### What reception and reading do -/

theorem Inv.of_feed (bytes : List Byte) : (s.feed bytes).Inv :=
  hs.of_setMuxRx _ fun _ => ⟨rfl, Fifo.push_wf _ _ hs.muxRx_wf
    ((List.length_take_le _ _).trans (Nat.min_le_right _ _))⟩

theorem Inv.of_advanceRx (n : Nat) : (s.advanceRx n).Inv :=
  hs.of_setMuxRx _ fun _ => ⟨rfl, Fifo.advance_wf _ n hs.muxRx_wf⟩

theorem Inv.of_peerMsc (v : List Byte) : (s.peerMsc v).Inv := by
  unfold peerMsc
  dsimp only
  split
  · next hd =>
    have hset (b : Bool) := hs.of_setChan_moves (n := ((v.getD 0 0) >>> 2).toNat)
      (c := { s.chan ((v.getD 0 0) >>> 2).toNat with txIsFlowControlledOff := b }) hd.2 rfl rfl rfl (.inl rfl)
    split
    · exact hset _
    · exact (hset _).of_emit _
  · exact hs.of_emit _

theorem Inv.of_dispatchOther (f : Frame) (hn : f.address ≤ s.par.maxChannels) : (s.dispatchOther f).Inv := by
  have hsame : (s.answeredChan f).id = (s.chan f.address).id ∧ (s.answeredChan f).rx = (s.chan f.address).rx ∧
      (s.answeredChan f).rxIsFlowControlledOff = (s.chan f.address).rxIsFlowControlledOff := by
    unfold answeredChan
    dsimp only
    split <;> split <;> exact ⟨rfl, rfl, rfl⟩
  obtain ⟨hid, hrx, hflow⟩ := hsame
  unfold dispatchOther
  split
  · exact (hs.of_setChan_moves hn hid hrx hflow (s.answeredChan_moves f)).of_emit _
  · exact hs.of_emit _

theorem Inv.of_popChan {n k : Nat} (hn : n ≤ s.par.maxChannels) (h1 : 1 ≤ n) (hstate : (s.chan n).state ≠ .null) :
    (s.popChan n k).Inv :=
  hs.of_setChan n _ hn fun he => (hs.chan he n hn).of_data rfl hstate hstate rfl
    (Fifo.advance_wf _ k (hs.chan he n hn).2.1) fun h0 => absurd h0 (Nat.ne_of_gt h1)

theorem Inv.of_pushChan {n : Nat} {d : List Byte} (hn : n ≤ s.par.maxChannels) (h1 : 1 ≤ n)
    (hstate : (s.chan n).state ≠ .null) (hd : d.length ≤ (s.chan n).rx.free) : (s.pushChan n d).Inv :=
  hs.of_setChan n _ hn fun he => (hs.chan he n hn).of_data rfl hstate hstate rfl
    (Fifo.push_wf _ d (hs.chan he n hn).2.1 hd) fun h0 => absurd h0 (Nat.ne_of_gt h1)

theorem Inv.of_overflow {n lost : Nat} (hn : n ≤ s.par.maxChannels) : (s.overflow n lost).Inv :=
  (hs.of_setChan_moves (c := { s.chan n with overflowCount := (s.chan n).overflowCount + 1 }) hn rfl rfl rfl
    (.inl rfl)).of_emit _

theorem Inv.of_store {n : Nat} {info : List Byte} (hn : n ≤ s.par.maxChannels) (h1 : 1 ≤ n)
    (hstate : (s.chan n).state ≠ .null) : (s.store n info).Inv := by
  have hpush : (s.pushChan n (info.take (s.fitting n info))).Inv :=
    hs.of_pushChan hn h1 hstate ((List.length_take_le _ _).trans (Nat.min_le_right _ _))
  have hcounted : (s.storeCounted n info).Inv := by
    unfold storeCounted
    dsimp only
    split
    · exact hpush.of_overflow hn
    · exact hpush
  rw [store_eq]
  split
  · exact hcounted.of_emit _
  · exact hcounted

theorem Inv.of_setRxFlow {n : Nat} {b : Bool} (hn : n ≤ s.par.maxChannels) (hstate : (s.chan n).state ≠ .null) :
    (s.setRxFlow n b).Inv :=
  hs.of_setChan n _ hn fun he => (hs.chan he n hn).of_data rfl hstate hstate rfl (hs.chan he n hn).2.1
    (hs.chan he n hn).2.2.2.2

theorem Inv.of_evalRxFlow {n : Nat} (hn : n ≤ s.par.maxChannels) (hstate : (s.chan n).state ≠ .null) :
    (s.evalRxFlow n).2.Inv := by
  rcases s.evalRxFlow_cases n with h | ⟨off, -, ⟨-, h⟩ | ⟨-, h⟩⟩ <;> rw [h]
  · exact hs
  · have hran := s.emitMsc_ran n off
    have hsent := hs.of_link hran
    refine (hsent.of_setRxFlow ?_ ?_).of_emit _
    · rwa [State.par, hran.cfg]
    · rwa [hran.chan]
  · exact hs.of_link (s.emitMsc_ran n off)

end

theorem store_state (s : State) (n k : Nat) (info : List Byte) (ho : (s.chan k).state = .opened) :
    ((s.store n info).chan k).state ≠ .null := by
  rcases (s.store_quiet n info).moves k with h | ⟨-, h⟩
  · rw [h, ho]
    nofun
  · rw [h]
    nofun

end State

theorem inv_part : ReceivePart fun s _ t => s.Inv → t.Inv where
  refl _ := id
  trans _ h k := k ∘ h
  feed _ bytes hs := hs.of_feed bytes
  take _ n hs := hs.of_advanceRx n
  stall _ _ n _ hs := hs.of_advanceRx n
  log _ _ hs := hs.of_emit _
  hold _ q hcap hwf hs := hs.of_setMuxHold q fun _ => ⟨hcap, hwf hs.muxHold_wf⟩
  peer _ v hs := hs.of_peerMsc v
  echo s l v hs := hs.of_link (s.mscEcho_ran l v .ok)
  deliver s n info h1 hn ho hs := by
    refine (hs.of_store hn h1 (by simp [ho])).of_evalRxFlow ?_ (s.store_state n n info ho)
    rwa [State.par, (s.store_ran n info).cfg]
  other _ f hn hs := hs.of_dispatchOther f hn

/-! ### Every operation, every step -/

theorem freshMux_ok (p : Params) : MuxOk p (freshMux p) := by
  refine ⟨rfl, Fifo.empty_wf _, rfl, Fifo.empty_wf _, freshTable_length _, fun n _ => ?_⟩
  rw [Mux.chan, freshMux, freshTable_getD]
  exact ⟨rfl, Fifo.empty_wf _, fun _ => ⟨rfl, rfl⟩, nofun, fun _ => rfl⟩

theorem CmuxRun.inv {s t : State} {i : Instr} {st : Status} (h : CmuxRun s i st t) (hs : s.Inv) : t.Inv := by
  cases h with
  | unchanged => exact hs
  | enabled =>
    intro m hm
    obtain rfl := Option.some.inj hm
    exact freshMux_ok s.par
  | disabled => exact nofun
  | opened hn => exact hs.of_setChan _ _ hn fun he => (hs.chan he _ hn).opened
  | unsent => exact hs.of_link (s.linkSent_ran _)
  | @closed n b _ hn ho =>
    exact (hs.of_link (s.linkSent_ran b)).of_setChan_moves (c := closedChannel (s.chan n)) hn rfl rfl rfl (.inr ⟨ho, rfl⟩)
  | written => exact hs.of_link (s.linkSent_ran _)
  | @armed n _ _ _ _ b v _ hn =>
    exact (hs.of_link (s.linkSent_ran b)).of_setChan_moves (c := { s.chan n with wanted := v }) hn rfl rfl rfl (.inl rfl)
  | @received data => exact inv_part.receive s data hs
  | @readOpened n k h1 hn ho =>
    exact (hs.of_popChan hn h1 (by simp [ho])).of_evalRxFlow hn (by rw [s.popChan_state n k n, ho]; nofun)
  | readDisconnected h1 hn hd => exact hs.of_popChan hn h1 (by simp [hd])

theorem exec_inv {i : Instr} {s t : State} (h : exec i s = .next t) (hs : s.Inv) : t.Inv := by
  cases hi : isFgInstr i with
  | true =>
    obtain ⟨st, u, o, rfl, hran, -⟩ := exec_fg hi h
    exact (hs.of_same hran.mux hran.cfg).of_finish st o
  | false =>
    obtain ⟨st, u, o, rfl, hrun⟩ := exec_cmux hi h
    exact (hrun.inv hs).of_finish st o

/-- Settles O39: a step waits, refuses a request, or runs an operation, and each keeps the invariant. -/
theorem stepKeepsInvariant : Obligations.StepKeepsInvariant := by
  intro s t hs h
  cases hr : s.requests with
  | nil =>
    obtain rfl := Host.Outcome.next.inj ((step_of_no_requests hr).symm.trans h)
    exact hs
  | cons r rest =>
    have htaken : ({ s with requests := rest } : State).Inv := hs.of_same rfl rfl
    cases hd : decode r.port r.bytes with
    | ok i => exact exec_inv ((step_of_instr hr hd).symm.trans h) htaken
    | error e =>
      rw [step_of_error hr hd] at h
      cases e with
      | truncated => exact nomatch h
      | notABit => exact nomatch h
      | _ =>
        obtain rfl := Host.Outcome.next.inj h
        exact htaken.of_finish _ _

end Sys2Proof.Machine

/-! Nothing reads the trace or the earlier result (R6, R279): every operation does the same with another history, entry for
entry. -/

namespace Sys2Proof.Machine

open Sys2Proof

namespace State

/-- `s` with the entries `before` put before its trace, and `r` as the earlier result. -/
def withHistory (before : List TraceEntry) (r : Option Result) (s : State) : State :=
  { s with out := before ++ s.out, result := r }

/-- `t` with the entries `before` put before its trace. -/
def recalled (before : List TraceEntry) (t : State) : State := { t with out := before ++ t.out }

section
variable (before : List TraceEntry) (r : Option Result) (s : State)

theorem unseen_withHistory : UnseenByDispatch (withHistory before r) := UnseenByDispatch.of_history before r

/-! ### What reads the state alone -/

theorem withHistory_enabled : (s.withHistory before r).enabled = s.enabled := rfl

theorem withHistory_par : (s.withHistory before r).par = s.par := rfl

theorem withHistory_chan (n : Nat) : (s.withHistory before r).chan n = s.chan n := rfl

theorem withHistory_muxRx : (s.withHistory before r).muxRx = s.muxRx := rfl

theorem withHistory_handleOk (n : Nat) : (s.withHistory before r).handleOk n = s.handleOk n := rfl

theorem withHistory_dataHandleOk (n : Nat) : (s.withHistory before r).dataHandleOk n = s.dataHandleOk n := rfl

theorem withHistory_log (e : LogEntry) : (s.withHistory before r).log e = (s.log e).withHistory before r :=
  (unseen_withHistory before r).log s e

theorem withHistory_delay (t : Nat) : (s.withHistory before r).delay t = (s.delay t).withHistory before r :=
  (unseen_withHistory before r).emit s _

/-! ### Reception (R177) -/

theorem rxLoop_withHistory (k : Nat) (st : Status) :
    rxLoop k st (s.withHistory before r) = Prod.map id (withHistory before r) (rxLoop k st s) := by
  induction k generalizing st s with
  | zero => rfl
  | succ k ih =>
    have hadvance (n : Nat) : (s.withHistory before r).advanceRx n = (s.advanceRx n).withHistory before r := rfl
    have hparse : parseFifo (s.withHistory before r).par (s.withHistory before r).muxRx .any =
      parseFifo s.par s.muxRx .any := rfl
    unfold rxLoop
    rw [hparse]
    cases parseFifo s.par s.muxRx .any with
    | incomplete n => rfl
    | notFound n =>
      dsimp only
      rw [hadvance, withHistory_muxRx, ih]
      split <;> rfl
    | fcsError n =>
      dsimp only
      rw [hadvance, withHistory_log, ih]
    | malformed n =>
      dsimp only
      rw [hadvance, withHistory_log, ih]
    | frame n f =>
      dsimp only
      rw [(unseen_withHistory before r).mustStall, hadvance, hadvance, (unseen_withHistory before r).dispatch]
      split
      · rfl
      · exact ih _ _

theorem receive_withHistory (data : List Byte) :
    (s.withHistory before r).receive data = Prod.map id (withHistory before r) (s.receive data) :=
  rxLoop_withHistory before r (s.feed data) _ _

/-! ### Register transactions and what is made of them (R220 to R245) -/

theorem busWrite_withHistory (b : List Byte) :
    (s.withHistory before r).busWrite b = Prod.map id (withHistory before r) (s.busWrite b) := by
  obtain ⟨hreply, henv⟩ := s.takeBusReply_congr 0 (s.withHistory before r) rfl
  rw [busWrite_eq, busWrite_eq, hreply, henv]
  simp [withHistory, par]

theorem busRead_withHistory (n : Nat) :
    (s.withHistory before r).busRead n = Prod.map id (withHistory before r) (s.busRead n) := by
  obtain ⟨hreply, henv⟩ := s.takeBusReply_congr n (s.withHistory before r) rfl
  rw [busRead_eq, busRead_eq, hreply, henv]
  simp [withHistory, par]

theorem regWrite_withHistory (reg : Byte) (d : List Byte) (t : Nat) :
    (s.withHistory before r).regWrite reg d t = Prod.map id (withHistory before r) (s.regWrite reg d t) := by
  have hbus := busWrite_withHistory before r (s.setLastReg reg) (reg :: d)
  unfold regWrite
  rw [show (s.withHistory before r).setLastReg reg = (s.setLastReg reg).withHistory before r from rfl, hbus]
  rcases (s.setLastReg reg).busWrite (reg :: d) with ⟨_ | _, s1⟩
  · rfl
  · exact congrArg (Prod.mk true) (withHistory_delay before r s1 t)

theorem regRead_withHistory (reg : Byte) (n t : Nat) :
    (s.withHistory before r).regRead reg n t = Prod.map id (withHistory before r) (s.regRead reg n t) := by
  have hbus := busWrite_withHistory before r (s.setLastReg reg) [reg]
  unfold regRead
  rw [show (s.withHistory before r).setLastReg reg = (s.setLastReg reg).withHistory before r from rfl, hbus]
  rcases (s.setLastReg reg).busWrite [reg] with ⟨_ | _, s1⟩
  · rfl
  · dsimp only [Prod.map, id]
    rw [busRead_withHistory]
    rcases s1.busRead n with ⟨_ | d, s2⟩
    · rfl
    · exact congrArg (Prod.mk (some d)) (withHistory_delay before r s2 t)

theorem sumLenRead_withHistory : (s.withHistory before r).sumLenRead = Prod.map id (withHistory before r) s.sumLenRead := by
  unfold sumLenRead
  rw [regRead_withHistory, withHistory_par]
  rcases s.regRead s.par.fgRegMacSum 1 s.par.fgTSettle with ⟨_ | a, s1⟩
  · rfl
  · dsimp only [Prod.map, id]
    rw [regRead_withHistory, withHistory_par]
    rcases s1.regRead s1.par.fgRegMacLen 1 s1.par.fgTSettle with ⟨_ | b, s2⟩ <;> rfl

theorem sumLenWrite_withHistory (sum len : Byte) :
    (s.withHistory before r).sumLenWrite sum len = Prod.map id (withHistory before r) (s.sumLenWrite sum len) := by
  unfold sumLenWrite
  rw [show (s.withHistory before r).setLastChecksum sum = (s.setLastChecksum sum).withHistory before r from rfl,
    regWrite_withHistory, withHistory_par]
  rcases (s.setLastChecksum sum).regWrite s.par.fgRegMacSum [sum] s.par.fgTSettle with ⟨_ | _, s1⟩
  · rfl
  · exact regWrite_withHistory before r s1 _ _ _

theorem checkSumLen_withHistory (sum len : Byte) :
    (s.withHistory before r).checkSumLen sum len = (s.checkSumLen sum len).withHistory before r := by
  unfold checkSumLen
  dsimp only
  rw [withHistory_log, withHistory_par, show (s.withHistory before r).fg = s.fg from rfl]
  by_cases hsum : sum = s.fg.lastChecksum
  · rw [if_neg (not_not.2 hsum), if_neg (not_not.2 hsum), withHistory_log]
    split <;> rfl
  · rw [if_pos hsum, if_pos hsum, withHistory_log]
    split <;> rfl

theorem setMacBuf_withHistory (d : List Byte) :
    (s.withHistory before r).setMacBuf d = (s.setMacBuf d).withHistory before r := by
  simp only [setMacBuf, modFg, withHistory]

theorem setRaw_withHistory (d : List Byte) :
    (s.withHistory before r).setRaw d = (s.setRaw d).withHistory before r := by
  simp only [setRaw, modFg, withHistory]

theorem readExt_withHistory (sub : U16) (n : Nat) :
    (s.withHistory before r).readExt sub n = Prod.map id (withHistory before r) (s.readExt sub n) := by
  unfold readExt
  rw [regWrite_withHistory, withHistory_par]
  rcases s.regWrite s.par.fgRegMacCmd (le16 sub) s.par.fgTMac with ⟨_ | _, s1⟩
  · rfl
  · dsimp only [Prod.map, id]
    rw [show (s1.withHistory before r).setLastSubCmd sub = (s1.setLastSubCmd sub).withHistory before r from rfl,
      sumLenRead_withHistory]
    rcases (s1.setLastSubCmd sub).sumLenRead with ⟨_ | v, s2⟩
    · rfl
    · dsimp only [Prod.map, id]
      rw [checkSumLen_withHistory, regRead_withHistory, withHistory_par]
      rcases (s2.checkSumLen v.1 v.2).regRead s2.par.fgRegMacData n s2.par.fgTSettle with ⟨_ | d, s3⟩
      · rfl
      · exact congrArg (Prod.mk (some d)) (setMacBuf_withHistory before r s3 d)

theorem writePayload_withHistory (sub : U16) (pay : List Byte) :
    (s.withHistory before r).writePayload sub pay = Prod.map id (withHistory before r) (s.writePayload sub pay) := by
  unfold writePayload
  rw [regWrite_withHistory, regWrite_withHistory, withHistory_par]
  split
  · rfl
  · rcases s.regWrite s.par.fgRegMacCmd (le16 sub) s.par.fgTSettle with ⟨_ | _, s1⟩
    · rfl
    · exact regWrite_withHistory before r s1 _ _ _

theorem preRead_withHistory (sub : U16) (preserve : Bool) :
    (s.withHistory before r).preRead sub preserve = Prod.map id (withHistory before r) (s.preRead sub preserve) := by
  unfold preRead
  rw [readExt_withHistory]
  split
  · rcases s.readExt sub fgMacLen with ⟨_ | d, s1⟩ <;> rfl
  · rfl

theorem commitExt_withHistory (sub : U16) :
    (s.withHistory before r).commitExt sub = Prod.map id (withHistory before r) (s.commitExt sub) := by
  unfold commitExt
  dsimp only
  rw [writePayload_withHistory, show (s.withHistory before r).fg = s.fg from rfl]
  rcases s.writePayload sub s.fg.macBuf.toList with ⟨_ | _, s1⟩
  · rfl
  · dsimp only [Prod.map, id]
    rw [show (s1.withHistory before r).setLastSubCmd sub = (s1.setLastSubCmd sub).withHistory before r from rfl,
      sumLenWrite_withHistory, withHistory_par]
    rcases (s1.setLastSubCmd sub).sumLenWrite (fgChecksum s1.par sub s.fg.macBuf.toList) (lengthRegister s1.par)
      with ⟨_ | _, s2⟩
    · rfl
    · dsimp only [Prod.map, id]
      rw [readExt_withHistory]
      rcases s2.readExt sub fgMacLen with ⟨_ | d, s3⟩
      · rfl
      · dsimp only [Prod.map, id]
        rw [withHistory_log]
        split <;> rfl

theorem pollLoop_withHistory (left k : Nat) :
    pollLoop left k (s.withHistory before r) = Prod.map id (withHistory before r) (pollLoop left k s) := by
  induction left generalizing k s with
  | zero => rfl
  | succ left ih =>
    unfold pollLoop
    rw [regRead_withHistory, withHistory_par]
    rcases s.regRead s.par.fgRegControl 2 fgPollMs with ⟨_ | d, s1⟩
    · rfl
    · dsimp only [Prod.map, id]
      rw [show (s1.withHistory before r).setLastCtrl (rd16 d) = (s1.setLastCtrl (rd16 d)).withHistory before r from rfl]
      split
      · rfl
      · exact ih _ _

theorem readBlocks_withHistory (bases : List Byte) :
    readBlocks bases (s.withHistory before r) = Prod.map id (withHistory before r) (readBlocks bases s) := by
  induction bases generalizing s with
  | nil => rfl
  | cons b rest ih =>
    unfold readBlocks
    rw [regRead_withHistory, withHistory_par]
    rcases s.regRead b fgBlockLen s.par.fgTSettle with ⟨_ | d, s1⟩
    · rfl
    · dsimp only [Prod.map, id]
      rw [ih]
      rcases readBlocks rest s1 with ⟨_ | t, s2⟩ <;> rfl

theorem writeModeWords_withHistory (words : List U16) :
    writeModeWords words (s.withHistory before r) = Prod.map id (withHistory before r) (writeModeWords words s) := by
  induction words generalizing s with
  | nil => rfl
  | cons w rest ih =>
    unfold writeModeWords
    rw [regWrite_withHistory, withHistory_par]
    rcases s.regWrite s.par.fgRegControl (le16 w) s.par.fgTSettle with ⟨_ | _, s1⟩
    · rfl
    · exact ih (s1.setLastSubCmd w)

theorem scrambleRaw_withHistory : (s.withHistory before r).scrambleRaw = s.scrambleRaw.withHistory before r := by
  simp only [scrambleRaw, drawBytes, withHistory, setRaw, modFg]

theorem modeCommand_withHistory (words : List U16) :
    modeCommand words (s.withHistory before r) = (modeCommand words s).recalled before := by
  unfold modeCommand
  rw [writeModeWords_withHistory]
  rcases writeModeWords words s with ⟨_ | _, s1⟩
  · rfl
  · dsimp only [Prod.map, id]
    rw [withHistory_delay]
    rfl

end

end State

/-! ### Whole operations -/

/-- The entries `before` put before the trace of the state that is answered. -/
def recalledOutcome (before : List TraceEntry) :
    Host.Outcome State Fault Refusal → Host.Outcome State Fault Refusal
  | .next t => .next (t.recalled before)
  | o => o

section
variable (before : List TraceEntry) (r : Option Result) (s : State)

open State

theorem execMuxEnable_withHistory :
    execMuxEnable (s.withHistory before r) = recalledOutcome before (execMuxEnable s) := by
  unfold execMuxEnable
  rw [withHistory_enabled]
  split <;> rfl

theorem execMuxDisable_withHistory :
    execMuxDisable (s.withHistory before r) = recalledOutcome before (execMuxDisable s) := by
  unfold execMuxDisable
  rw [withHistory_enabled]
  split <;> rfl

theorem finishEncode_withHistory (e : Except Status (List Byte)) :
    (s.withHistory before r).finishEncode e = (s.finishEncode e).recalled before := by
  cases e <;> rfl

theorem execOpenChannel_withHistory (n : Nat) (ok : Bool) :
    execOpenChannel n ok (s.withHistory before r) = recalledOutcome before (execOpenChannel n ok s) := by
  refine congrArg Host.Outcome.next ?_
  rw [withHistory_enabled, withHistory_par, withHistory_chan]
  repeat' split
  all_goals rfl

theorem execCloseChannel_withHistory (n : Nat) :
    execCloseChannel n (s.withHistory before r) = recalledOutcome before (execCloseChannel n s) := by
  refine congrArg Host.Outcome.next ?_
  rw [withHistory_handleOk, withHistory_chan, (unseen_withHistory before r).linkSend, withHistory_par]
  split
  · rfl
  · split
    · rfl
    · rcases s.linkSend (frameBytes s.par n .disc true []) with ⟨_ | _, s1⟩ <;> rfl

theorem execWrite_withHistory (n : Nat) (data : List Byte) :
    execWrite n data (s.withHistory before r) = recalledOutcome before (execWrite n data s) := by
  refine congrArg Host.Outcome.next ?_
  dsimp only
  rw [withHistory_dataHandleOk, withHistory_chan, (unseen_withHistory before r).linkSend, withHistory_par]
  split
  · rfl
  · split
    · rfl
    · split
      · rfl
      · split
        · rfl
        · rcases s.linkSend _ with ⟨_ | _, s1⟩ <;> rfl

theorem execSendFrame_withHistory (n : Nat) (t : TypeOperand) (pf : Bool) (info : List Byte) (w : WantedOperand) :
    execSendFrame n t pf info w (s.withHistory before r) = recalledOutcome before (execSendFrame n t pf info w s) := by
  refine congrArg Host.Outcome.next ?_
  rw [withHistory_handleOk, withHistory_par]
  split
  · rfl
  · cases legalWanted w with
    | none => rfl
    | some v =>
      cases encodeOperand s.par n t pf info with
      | error e => rfl
      | ok b =>
        dsimp only
        rw [(unseen_withHistory before r).linkSend]
        rcases s.linkSend b with ⟨_ | _, s1⟩ <;> rfl

theorem execOnBytesReceived_withHistory (data : List Byte) :
    execOnBytesReceived data (s.withHistory before r) = recalledOutcome before (execOnBytesReceived data s) := by
  refine congrArg Host.Outcome.next ?_
  rw [withHistory_enabled, receive_withHistory]
  split
  · rfl
  · rcases s.receive data with ⟨st, s1⟩
    rfl

theorem execChannelRead_withHistory (n k : Nat) :
    execChannelRead n k (s.withHistory before r) = recalledOutcome before (execChannelRead n k s) := by
  have hpop : (s.withHistory before r).popChan n k = (s.popChan n k).withHistory before r := rfl
  refine congrArg Host.Outcome.next ?_
  dsimp only
  rw [withHistory_dataHandleOk, withHistory_chan, hpop, (unseen_withHistory before r).evalRxFlow]
  split
  · rfl
  · split
    · rfl
    · split
      · rcases (s.popChan n k).evalRxFlow n with ⟨st, s1⟩
        rfl
      · rfl

theorem execFgRegRead_withHistory (reg : Byte) (n : Nat) :
    execFgRegRead reg n (s.withHistory before r) = recalledOutcome before (execFgRegRead reg n s) := by
  refine congrArg Host.Outcome.next ?_
  rw [withHistory_log, regRead_withHistory, withHistory_par]
  split
  · rfl
  · rcases s.regRead reg n s.par.fgTSettle with ⟨_ | d, s1⟩ <;> rfl

theorem execFgRegWrite_withHistory (reg : Byte) (d : List Byte) :
    execFgRegWrite reg d (s.withHistory before r) = recalledOutcome before (execFgRegWrite reg d s) := by
  refine congrArg Host.Outcome.next ?_
  rw [withHistory_log, regWrite_withHistory, withHistory_par]
  split
  · rfl
  · rcases s.regWrite reg d s.par.fgTSettle with ⟨_ | _, s1⟩ <;> rfl

theorem execFgSumlenRead_withHistory :
    execFgSumlenRead (s.withHistory before r) = recalledOutcome before (execFgSumlenRead s) := by
  refine congrArg Host.Outcome.next ?_
  rw [sumLenRead_withHistory]
  rcases s.sumLenRead with ⟨_ | v, s1⟩ <;> rfl

theorem execFgSumlenWrite_withHistory (sum len : Byte) :
    execFgSumlenWrite sum len (s.withHistory before r) = recalledOutcome before (execFgSumlenWrite sum len s) := by
  refine congrArg Host.Outcome.next ?_
  rw [sumLenWrite_withHistory]
  rcases s.sumLenWrite sum len with ⟨_ | _, s1⟩ <;> rfl

theorem execFgSendSubcommand_withHistory (cmd : U16) :
    execFgSendSubcommand cmd (s.withHistory before r) = recalledOutcome before (execFgSendSubcommand cmd s) := by
  refine congrArg Host.Outcome.next ?_
  rw [regWrite_withHistory, withHistory_par]
  rcases s.regWrite s.par.fgRegControl (le16 cmd) s.par.fgTSettle with ⟨_ | _, s1⟩
  · rfl
  · dsimp only [Prod.map, id]
    rw [show (s1.withHistory before r).setLastSubCmd cmd = (s1.setLastSubCmd cmd).withHistory before r from rfl,
      pollLoop_withHistory]
    rcases pollLoop fgPollMax 1 (s1.setLastSubCmd cmd) with ⟨_ | k | _, s2⟩
    · rfl
    · rfl
    · dsimp only [Prod.map, id]
      rw [withHistory_log]
      rfl

theorem execFgReadStd_withHistory :
    execFgReadStd (s.withHistory before r) = recalledOutcome before (execFgReadStd s) := by
  refine congrArg Host.Outcome.next ?_
  rw [readBlocks_withHistory, withHistory_par]
  rcases readBlocks (blockBases s.par) s with ⟨_ | t, s1⟩
  · dsimp only [Prod.map, id]
    rw [scrambleRaw_withHistory]
    generalize s1.scrambleRaw = s2
    rfl
  · dsimp only [Prod.map, id]
    rw [setRaw_withHistory]
    generalize s1.setRaw t = s2
    rfl

theorem execFgReadExt_withHistory (sub : U16) (n : Nat) :
    execFgReadExt sub n (s.withHistory before r) = recalledOutcome before (execFgReadExt sub n s) := by
  refine congrArg Host.Outcome.next ?_
  rw [withHistory_log, readExt_withHistory]
  split
  · rfl
  · rcases s.readExt sub n with ⟨_ | d, s1⟩ <;> rfl

theorem execFgWriteExt_withHistory (sub : U16) (data : U32) (q : Nat) (preserve : Bool) :
    execFgWriteExt sub data q preserve (s.withHistory before r) =
      recalledOutcome before (execFgWriteExt sub data q preserve s) := by
  refine congrArg Host.Outcome.next ?_
  rw [withHistory_log, preRead_withHistory]
  split
  · rfl
  · rcases s.preRead sub preserve with ⟨_ | _, s1⟩
    · rfl
    · dsimp only [Prod.map, id]
      rw [setMacBuf_withHistory, commitExt_withHistory]
      rcases (s1.setMacBuf (scalarBytes data q)).commitExt sub with ⟨st, s2⟩
      rfl

/-- Every operation does the same with another history. -/
theorem exec_withHistory (i : Instr) : exec i (s.withHistory before r) = recalledOutcome before (exec i s) := by
  have hmode (words : List U16) : (.next (modeCommand words (s.withHistory before r)) : Host.Outcome State Fault Refusal) =
      .next ((modeCommand words s).recalled before) := congrArg _ (modeCommand_withHistory before r s words)
  have hencode (e : Except Status (List Byte)) :
      (.next ((s.withHistory before r).finishEncode e) : Host.Outcome State Fault Refusal) =
      .next ((s.finishEncode e).recalled before) := congrArg _ (finishEncode_withHistory before r s e)
  cases i with
  | sabm => exact hencode _
  | ua => exact hencode _
  | dm => exact hencode _
  | disc => exact hencode _
  | uih => exact hencode _
  | ui => exact hencode _
  | muxEnable => exact execMuxEnable_withHistory before r s
  | muxDisable => exact execMuxDisable_withHistory before r s
  | encode => exact hencode _
  | parse => rfl
  | openChannel n ok => exact execOpenChannel_withHistory before r s n ok
  | closeChannel n => exact execCloseChannel_withHistory before r s n
  | write n data => exact execWrite_withHistory before r s n data
  | onBytesReceived data => exact execOnBytesReceived_withHistory before r s data
  | channelRead n k => exact execChannelRead_withHistory before r s n k
  | sendFrame n t pf info w => exact execSendFrame_withHistory before r s n t pf info w
  | fgRegRead reg n => exact execFgRegRead_withHistory before r s reg n
  | fgRegWrite reg d => exact execFgRegWrite_withHistory before r s reg d
  | fgSumlenRead => exact execFgSumlenRead_withHistory before r s
  | fgSumlenWrite sum len => exact execFgSumlenWrite_withHistory before r s sum len
  | fgSendSubcommand cmd => exact execFgSendSubcommand_withHistory before r s cmd
  | fgReadStd => exact execFgReadStd_withHistory before r s
  | fgReadExt sub n => exact execFgReadExt_withHistory before r s sub n
  | fgWriteExt sub data q preserve => exact execFgWriteExt_withHistory before r s sub data q preserve
  | fgSeal => exact hmode _
  | fgUnseal => exact hmode _
  | fgEnterCfgUpdate => exact hmode _
  | fgReset => exact hmode _

end

/-- Settles O59: the answer with another history is the answer without it, the history put before it. -/
theorem traceIsNeverRead : Obligations.TraceIsNeverRead := by
  intro i s t before r h
  exact (exec_withHistory before r s i).trans (congrArg (recalledOutcome before) h)

end Sys2Proof.Machine

/-! Receive flow control (R182) and the control channel (R184 to R186), row by row and message by message. -/

namespace Sys2Proof.Machine

open Sys2Proof

namespace State

/-! ### The block's own frames, where they fit (R183, R186) -/

section
variable (s : State)

theorem sendControl_of_le {info : List Byte} (h : info.length ≤ s.par.maxInfoLen) : s.sendControl info =
    (s.takeLinkReply.1.covers (frameBytes s.par 0 .uih false info).length, s.linkSent (frameBytes s.par 0 .uih false info)) :=
  (if_pos h).trans (s.linkSend_eq_linkSent _)

/-- `ENCODE` builds the same frame. -/
theorem exec_encode_control {info : List Byte} (h : info.length ≤ s.par.maxInfoLen) :
    exec (.encode 0 (.legal .uih) false info) s =
      .next { s with result := some ⟨.ok, .bytes (frameBytes s.par 0 .uih false info)⟩ } :=
  exec_encode_of_sendable s 0 .uih false info ⟨Nat.zero_le _, h, nofun⟩

/-! ### The four rows of R182 -/

/-- The frame that announces the value `off` of entry `n`'s receive flow flag. -/
def mscFrame (n : Nat) (off : Bool) : List Byte := frameBytes s.par 0 .uih false (mscInfo n off)

theorem emitMsc_eq (n : Nat) (off : Bool) (h : 4 ≤ s.par.maxInfoLen) : s.emitMsc n off =
    if s.takeLinkReply.1.covers (s.mscFrame n off).length then (true, s.linkSent (s.mscFrame n off))
    else (false, (s.linkSent (s.mscFrame n off)).log (.transportMsc n)) := by
  rw [emitMsc, s.sendControl_of_le (info := mscInfo n off) h, ← mscFrame]
  cases s.takeLinkReply.1.covers (s.mscFrame n off).length <;> rfl

/-- What follows an MSC frame (R182): the flag and its event, or the log entry. -/
def announced (n : Nat) (off : Bool) : Status × State :=
  if s.takeLinkReply.1.covers (s.mscFrame n off).length then
    (.ok, ((s.linkSent (s.mscFrame n off)).setRxFlow n off).event n evFlow)
  else (.transportError, (s.linkSent (s.mscFrame n off)).log (.transportMsc n))

variable (n : Nat)

theorem evalRxFlow_of_filled (h : 4 ≤ s.par.maxInfoLen) (hoff : (s.chan n).rxIsFlowControlledOff = false)
    (hmark : s.atHighMark n = true) : s.evalRxFlow n = s.announced n true := by
  rw [evalRxFlow, if_pos ⟨hoff, hmark⟩, s.emitMsc_eq n true h, announced]
  cases s.takeLinkReply.1.covers (s.mscFrame n true).length <;> rfl

theorem evalRxFlow_of_emptied (h : 4 ≤ s.par.maxInfoLen) (hoff : (s.chan n).rxIsFlowControlledOff = true)
    (hmark : s.atLowMark n = true) : s.evalRxFlow n = s.announced n false := by
  rw [evalRxFlow, if_neg (by simp [hoff]), if_pos ⟨hoff, hmark⟩, s.emitMsc_eq n false h, announced]
  cases s.takeLinkReply.1.covers (s.mscFrame n false).length <;> rfl

theorem evalRxFlow_of_between (hhigh : (s.chan n).rxIsFlowControlledOff = false → s.atHighMark n = false)
    (hlow : (s.chan n).rxIsFlowControlledOff = true → s.atLowMark n = false) : s.evalRxFlow n = (.ok, s) := by
  rw [evalRxFlow, if_neg (by rintro ⟨hoff, hmark⟩; rw [hhigh hoff] at hmark; exact nomatch hmark),
    if_neg (by rintro ⟨hoff, hmark⟩; rw [hlow hoff] at hmark; exact nomatch hmark)]

/-- What an announcement does, by the link's answer. -/
theorem announced_frame (he : s.enabled = true) (off : Bool) : ∃ st t, s.announced n off = (st, t) ∧
    t.env = s.takeLinkReply.2.env ∧ t.result = s.result ∧ s.SameButChannel t n ∧ s.SameOutsideCmux t ∧
    (s.takeLinkReply.1.covers (s.mscFrame n off).length = true → st = .ok ∧
      t.chan n = { s.chan n with rxIsFlowControlledOff := off } ∧
      t.out = s.out ++ [.linkWrite (s.mscFrame n off) s.takeLinkReply.1, .event n 0x02]) ∧
    (s.takeLinkReply.1.covers (s.mscFrame n off).length = false → st = .transportError ∧ t.chan n = s.chan n ∧
      t.out = s.out ++ [.linkWrite (s.mscFrame n off) s.takeLinkReply.1, .log (.transportMsc n)]) := by
  have hout (e : TraceEntry) : s.out ++ [.linkWrite (s.mscFrame n off) s.takeLinkReply.1] ++ [e] =
      s.out ++ [.linkWrite (s.mscFrame n off) s.takeLinkReply.1, e] := List.append_assoc ..
  unfold announced
  cases hsent : s.takeLinkReply.1.covers (s.mscFrame n off).length with
  | true =>
    refine ⟨_, _, if_pos rfl, rfl, rfl, ?_, ⟨rfl, rfl, rfl⟩, fun _ => ⟨rfl, ?_, hout _⟩, nofun⟩
    · exact (SameButChannel.of_mux_eq (s.linkSent_mux _) n).trans
        ((sameButChannel_setChan _ n _).trans (.of_mux_eq rfl n))
    · exact setChan_chan_same (s.linkSent _) he n _
  | false =>
    exact ⟨_, _, if_neg nofun, rfl, rfl, .of_mux_eq rfl n, ⟨rfl, rfl, rfl⟩, nofun, fun _ => ⟨rfl, rfl, hout _⟩⟩

end

end State

/-- Settles O34: the rows are the three equations of the evaluation, and an announcement does the same in both directions. -/
theorem rxFlowFollowsTheTable : Obligations.RxFlowFollowsTheTable := by
  intro s n hm hlen off fill high low
  refine ⟨fun h => s.evalRxFlow_of_between n ?high ?low, fun h => ?announced⟩
  case high =>
    intro hoff
    rcases h with ⟨-, h⟩ | ⟨h, -⟩
    · exact decide_eq_false (Nat.not_le.2 h)
    · exact nomatch hoff.symm.trans h
  case low =>
    intro hoff
    rcases h with ⟨h, -⟩ | ⟨-, h⟩
    · exact nomatch hoff.symm.trans h
    · exact decide_eq_false (Nat.not_le.2 h)
  case announced =>
    have heval : s.evalRxFlow n = s.announced n !off := by
      rcases h with ⟨hoff, h⟩ | ⟨hoff, h⟩
      · rw [hoff]
        exact s.evalRxFlow_of_filled n hlen hoff (decide_eq_true h)
      · rw [hoff]
        exact s.evalRxFlow_of_emptied n hlen hoff (decide_eq_true h)
    have hinfo : mscInfo n (!off) = [0xE3, 0x05, BitVec.ofNat 8 (4 * n + 3), if off then 0x8D else 0x8F] := by
      rw [mscInfo_eq]
      cases off <;> rfl
    obtain ⟨st, t, hann, hframe⟩ := s.announced_frame n (s.enabled_iff_mux_ne_none.2 hm) !off
    exact ⟨s.mscFrame n !off, t, st, hinfo ▸ s.exec_encode_control (info := mscInfo n !off) hlen, heval.trans hann, hframe⟩

/-! ### The control loop (R184) -/

namespace State

section
variable {s : State}

theorem setMuxHold_setMuxHold (s : State) (p q : Fifo) : (s.setMuxHold p).setMuxHold q = s.setMuxHold q := by
  rcases s with ⟨cfg, mux, fg, env, requests, result, out⟩
  cases mux <;> rfl

theorem setMuxHold_self (s : State) : s.setMuxHold s.muxHold = s := by
  rcases s with ⟨cfg, mux, fg, env, requests, result, out⟩
  cases mux <;> rfl

/-- Each round takes two bytes at least, so that more rounds than bytes change nothing. -/
theorem controlLoop_succ (k : Nat) (st : Status) (h : s.muxHold.used ≤ k) :
    controlLoop (k + 1) st s = controlLoop k st s := by
  induction k generalizing st s with
  | zero =>
    have hshort : s.muxHold.used < 2 := Nat.lt_of_le_of_lt h (by decide)
    rw [controlLoop, controlLoop]
    exact if_pos hshort
  | succ k ih =>
    rw [controlLoop]
    conv_rhs => rw [controlLoop]
    dsimp only
    split
    · rfl
    · split
      · rfl
      · split
        · rfl
        · next hshort _ _ =>
          refine ih _ ?_
          have he : s.enabled = true := by
            by_contra hno
            have hnone : s.mux = none := s.enabled_eq_false_iff.1 (Bool.eq_false_iff.2 hno)
            exact hshort (by simp [muxHold, hnone])
          rw [controlMessage_muxHold, s.setMuxHold_muxHold he, Fifo.used, Fifo.advance_data, List.length_drop]
          unfold Fifo.used at h
          omega

theorem controlLoop_of_le {k : Nat} (st : Status) (h : s.muxHold.used ≤ k) :
    controlLoop k st s = controlLoop s.muxHold.used st s := by
  induction k, h using Nat.le_induction with
  | base => rfl
  | succ k hk ih => rw [controlLoop_succ k st hk, ih]

end

/-! ### Control data by what the holding buffer then holds (R184) -/

section
variable {s : State} {info : List Byte} (he : s.enabled = true)

theorem controlData_of_overflow (h : s.muxHold.cap - s.muxHold.data.length < info.length) :
    s.controlData info = (.ok, (s.setMuxHold ⟨s.muxHold.cap, []⟩).log .holdOverflow) := if_pos h

variable {d : List Byte} (hd : s.muxHold.data ++ info = d) (hfit : d.length ≤ s.muxHold.cap)

include hd hfit in
theorem controlData_of_fits : s.controlData info = controlLoop d.length .ok (s.setMuxHold ⟨s.muxHold.cap, d⟩) := by
  subst hd
  rw [List.length_append] at hfit
  refine if_neg (Nat.not_lt.2 ?_)
  rw [Fifo.free, Fifo.used]
  omega

omit he in
theorem controlData_nil (h : s.muxHold.data = []) : s.controlData [] = (.ok, s) := by
  have hself : s.setMuxHold ⟨s.muxHold.cap, []⟩ = s := h ▸ s.setMuxHold_self
  have hfits := controlData_of_fits (s := s) (info := []) (d := []) (by rw [h]; rfl) (Nat.zero_le _)
  rw [hfits, hself]
  rfl

include he hd hfit in
theorem controlData_of_short (h : d.length < 2) : s.controlData info = (.ok, s.setMuxHold ⟨s.muxHold.cap, d⟩) := by
  rw [controlData_of_fits hd hfit]
  cases hk : d.length with
  | zero => rfl
  | succ k =>
    rw [controlLoop]
    dsimp only
    rw [s.setMuxHold_muxHold he]
    exact if_pos h

variable {t l : Byte} {v : List Byte} (hv : d = t :: l :: v)

include he hd hfit hv

/-- One round on a type and a length byte. -/
theorem controlData_of_round : s.controlData info =
    if t.getLsbD 0 = false ∨ l.getLsbD 0 = false then (.ok, (s.setMuxHold ⟨s.muxHold.cap, []⟩).log .ctrlFormat)
    else if v.length < l.toNat / 2 then (.ok, s.setMuxHold ⟨s.muxHold.cap, d⟩)
    else controlLoop (v.length + 1)
      ((s.setMuxHold ⟨s.muxHold.cap, v.drop (l.toNat / 2)⟩).controlMessage t l (v.take (l.toNat / 2)) .ok).1
      ((s.setMuxHold ⟨s.muxHold.cap, v.drop (l.toNat / 2)⟩).controlMessage t l (v.take (l.toNat / 2)) .ok).2 := by
  rw [controlData_of_fits hd hfit]
  subst hv
  have hdrop : Fifo.advance ⟨s.muxHold.cap, t :: l :: v⟩ (2 + l.toNat / 2) = ⟨s.muxHold.cap, v.drop (l.toNat / 2)⟩ := by
    rw [Fifo.advance, Nat.add_comm 2]
    rfl
  have hused : (Fifo.mk s.muxHold.cap (t :: l :: v)).used = v.length + 2 := rfl
  rw [List.length_cons, List.length_cons, controlLoop]
  dsimp only
  rw [s.setMuxHold_muxHold he, setMuxHold_setMuxHold, setMuxHold_setMuxHold, hused, if_neg (by omega)]
  refine if_congr Iff.rfl rfl (if_congr ?_ rfl ?_)
  · change v.length + 2 < 2 + l.toNat / 2 ↔ _
    omega
  · exact congrArg (fun q => controlLoop (v.length + 1)
      ((s.setMuxHold q).controlMessage t l (v.take (l.toNat / 2)) .ok).1
      ((s.setMuxHold q).controlMessage t l (v.take (l.toNat / 2)) .ok).2) hdrop

theorem controlData_of_format (h : t.getLsbD 0 = false ∨ l.getLsbD 0 = false) :
    s.controlData info = (.ok, (s.setMuxHold ⟨s.muxHold.cap, []⟩).log .ctrlFormat) :=
  (controlData_of_round he hd hfit hv).trans (if_pos h)

variable (ht : t.getLsbD 0 = true) (hl : l.getLsbD 0 = true)
include ht hl

theorem controlData_of_waiting (h : v.length < l.toNat / 2) :
    s.controlData info = (.ok, s.setMuxHold ⟨s.muxHold.cap, d⟩) := by
  rw [controlData_of_round he hd hfit hv, if_neg (by simp [ht, hl]), if_pos h]

/-- A complete message is handled with the holding buffer empty; the bytes behind it are control data of their own. -/
theorem controlData_of_message {val more : List Byte} (hsplit : v = val ++ more) (hval : val.length = l.toNat / 2)
    {st : Status} {u : State}
    (hmessage : (s.setMuxHold ⟨s.muxHold.cap, []⟩).controlMessage t l val .ok = (st, u)) :
    s.controlData info = (keepFirst st (u.controlData more).1, (u.controlData more).2) := by
  have hu : u.muxHold = ⟨s.muxHold.cap, []⟩ := by
    have h := (s.setMuxHold ⟨s.muxHold.cap, []⟩).controlMessage_muxHold t l val .ok
    rwa [hmessage, s.setMuxHold_muxHold he] at h
  have hue : u.enabled = true := by
    have h := ((s.setMuxHold ⟨s.muxHold.cap, []⟩).controlMessage_ran t l val .ok).enabled
    rwa [hmessage, setMuxHold_enabled, he] at h
  have hst : st = .ok ∨ st = .transportError := by
    have h := (s.setMuxHold ⟨s.muxHold.cap, []⟩).controlMessage_ok_status t l val
    rwa [hmessage] at h
  have hround : (s.setMuxHold ⟨s.muxHold.cap, more⟩).controlMessage t l val .ok =
      (st, u.setMuxHold ⟨s.muxHold.cap, more⟩) := by
    have h := (Unseen.of_setMuxHold ⟨s.muxHold.cap, more⟩).controlMessage (s.setMuxHold ⟨s.muxHold.cap, []⟩) t l val .ok
    rw [setMuxHold_setMuxHold, hmessage] at h
    exact h
  have hlengths : d.length = val.length + more.length + 2 := by rw [hv, hsplit]; simp
  have hrest : u.controlData more = controlLoop more.length .ok (u.setMuxHold ⟨s.muxHold.cap, more⟩) := by
    have hfits : more.length ≤ u.muxHold.cap := by rw [hu]; dsimp only; omega
    have h := controlData_of_fits (s := u) (info := more) (d := more) (by rw [hu]; rfl) hfits
    rwa [hu] at h
  have hused : (u.setMuxHold ⟨s.muxHold.cap, more⟩).muxHold.used = more.length := by rw [u.setMuxHold_muxHold hue]; rfl
  rw [controlData_of_round he hd hfit hv, if_neg (by simp [ht, hl]), if_neg (by rw [hsplit, List.length_append]; omega),
    hsplit, ← hval, List.take_left, List.drop_left, hround, controlLoop_keepFirst _ _ _ hst, hrest,
    controlLoop_of_le .ok (k := (val ++ more).length + 1) (by rw [hused, List.length_append]; omega), hused]

end

/-! ### The messages (R184 to R186) -/

section
variable (s : State) (t l : Byte) (v : List Byte)

theorem controlMessage_unsupported (h : (t ≠ 0xE1 ∧ t ≠ 0xE3) ∨ v.length < 2) :
    s.controlMessage t l v .ok = (.ok, s.log (.ctrlUnsupported t)) := by
  have hmsc : ∀ t : Byte, t &&& 0xFD = 0xE1 → t = 0xE1 ∨ t = 0xE3 := by decide
  refine if_neg ?_
  rintro ⟨htype, hlen⟩
  rcases h with ⟨h1, h3⟩ | h
  · exact (hmsc t htype).elim h1 h3
  · exact Nat.not_lt.2 hlen h

theorem controlMessage_response (h : 2 ≤ v.length) : s.controlMessage 0xE1 l v .ok = (.ok, s) := by
  rw [controlMessage, if_pos ⟨by decide, h⟩, if_neg (by decide)]

theorem controlMessage_command (h : 2 ≤ v.length) : s.controlMessage 0xE3 l v .ok = (s.peerMsc v).mscEcho l v .ok := by
  rw [controlMessage, if_pos ⟨by decide, h⟩, if_pos rfl]

end

end State

/-- Settles O36: the rows are the equations of `ControlData`; a message that is dropped leaves its log entry, or nothing. -/
theorem otherControlDataIsDropped : Obligations.OtherControlDataIsDropped := by
  intro s info hm after
  have he : s.enabled = true := s.enabled_iff_mux_ne_none.2 hm
  have hsilent (d : List Byte) : s.setMuxHold ⟨s.muxHold.cap, d⟩ = after d [] := by
    dsimp only [after]
    rw [List.append_nil]
    rfl
  refine ⟨State.controlData_nil, State.controlData_of_overflow, fun hfit => ⟨fun hshort => ?short, fun t l v hd =>
    ⟨State.controlData_of_format he rfl hfit hd, fun ht hl => ⟨fun hwait => ?waits, fun val more hsplit hval =>
      ⟨fun hother => ?unsupported, fun hresponse hlen => ?response⟩⟩⟩⟩⟩
  case short => rw [State.controlData_of_short he rfl hfit hshort, hsilent]
  case waits => rw [State.controlData_of_waiting he rfl hfit hd ht hl hwait, hd, hsilent]
  case unsupported =>
    exact State.controlData_of_message he rfl hfit hd ht hl hsplit hval (State.controlMessage_unsupported _ t l val hother)
  case response =>
    subst hresponse
    rw [← hsilent]
    exact State.controlData_of_message he rfl hfit hd ht hl hsplit hval (State.controlMessage_response _ l val hlen)

/-! ### A peer's MSC command (R185, R186) -/

namespace State

section
variable (s : State)

theorem peerMsc_of_channel {v : List Byte} {d : Nat} {fc : Bool} (hd : ((v.getD 0 0) >>> 2).toNat = d)
    (hfc : (v.getD 1 0).getLsbD 1 = fc) (h : 1 ≤ d ∧ d ≤ s.par.maxChannels) : s.peerMsc v =
      { s.setTxFlow d fc with
        out := s.out ++ if (s.chan d).txIsFlowControlledOff = fc then [] else [.event d 0x02] } := by
  unfold peerMsc
  dsimp only
  rw [hd, hfc, if_pos h]
  split
  · rw [List.append_nil]
    rfl
  · rfl

theorem peerMsc_of_bad {v : List Byte} {d : Nat} (hd : ((v.getD 0 0) >>> 2).toNat = d)
    (h : d = 0 ∨ s.par.maxChannels < d) : s.peerMsc v = s.log (.ctrlChannelId d) := by
  unfold peerMsc
  dsimp only
  rw [hd, if_neg (by omega)]

/-- What a command does to the channels and to the trace; nothing else changes but the flag. -/
theorem peerMsc_frame (he : s.enabled = true) (v0 v1 : Byte) (vs : List Byte) :
    let t := s.peerMsc (v0 :: v1 :: vs)
    let d := v0.toNat / 4
    t.muxRx = s.muxRx ∧ t.muxHold = s.muxHold ∧ t.env = s.env ∧ (∀ k, k ≠ d → t.chan k = s.chan k) ∧
    (1 ≤ d ∧ d ≤ s.par.maxChannels → t.chan d = { s.chan d with txIsFlowControlledOff := v1.getLsbD 1 } ∧
      t.out = s.out ++ if (s.chan d).txIsFlowControlledOff = v1.getLsbD 1 then [] else [.event d 0x02]) ∧
    (d = 0 ∨ s.par.maxChannels < d → t.chan d = s.chan d ∧ t.out = s.out ++ [.log (.ctrlChannelId d)]) := by
  intro t d
  have hd : (((v0 :: v1 :: vs).getD 0 0) >>> 2).toNat = d := toNat_addressField v0
  by_cases h : 1 ≤ d ∧ d ≤ s.par.maxChannels
  · have ht : t = _ := s.peerMsc_of_channel hd rfl h
    rw [ht]
    exact ⟨s.setTxFlow_muxRx d _, s.setTxFlow_muxHold d _, rfl, fun k hk => s.setChan_chan_ne d k _ hk,
      fun _ => ⟨s.setChan_chan_same he d _, rfl⟩, fun hbad => by omega⟩
  · have ht : t = _ := s.peerMsc_of_bad hd (by omega)
    rw [ht]
    exact ⟨rfl, rfl, rfl, fun _ _ => rfl, fun hgood => absurd hgood h, fun _ => ⟨rfl, rfl⟩⟩

theorem mscEcho_of_no_echo (l : Byte) (v : List Byte) (h : s.par.mscEcho = false) : s.mscEcho l v .ok = (.ok, s) :=
  if_neg (by simp [h])

theorem mscEcho_of_echo (l : Byte) (v : List Byte) (h : s.par.mscEcho = true) (hfit : 2 + v.length ≤ s.par.maxInfoLen) :
    s.mscEcho l v .ok =
      if s.takeLinkReply.1.covers (frameBytes s.par 0 .uih false ([0xE1, l] ++ v)).length then
        (.ok, s.linkSent (frameBytes s.par 0 .uih false ([0xE1, l] ++ v)))
      else (.transportError, (s.linkSent (frameBytes s.par 0 .uih false ([0xE1, l] ++ v))).log .transportMscEcho) := by
  rw [mscEcho, if_pos h, s.sendControl_of_le (by rw [List.length_append]; exact hfit)]
  cases s.takeLinkReply.1.covers (frameBytes s.par 0 .uih false ([0xE1, l] ++ v)).length <;> rfl

end

end State

/-- Settles O35: the command is a complete message; `PeerMsc` does its part, then the echo, then the bytes behind it. -/
theorem peerMscSetsTransmitFlag : Obligations.PeerMscSetsTransmitFlag := by
  intro s info l v0 v1 vs more hm hl hlen hfit hd hcap d fc
  have he : s.enabled = true := s.enabled_iff_mux_ne_none.2 hm
  have hcleared : (s.setMuxHold ⟨s.muxHold.cap, []⟩).enabled = true := (s.setMuxHold_enabled _).trans he
  obtain ⟨hrx, hhold, henv, hothers, hgood, hbad⟩ := (s.setMuxHold ⟨s.muxHold.cap, []⟩).peerMsc_frame hcleared v0 v1 vs
  have hran := (s.setMuxHold ⟨s.muxHold.cap, []⟩).peerMsc_ran (v0 :: v1 :: vs)
  generalize ht : (s.setMuxHold ⟨s.muxHold.cap, []⟩).peerMsc (v0 :: v1 :: vs) = t at hrx hhold henv hothers hgood hbad hran
  simp only [State.setMuxHold_muxRx, State.setMuxHold_chan, State.setMuxHold_muxHold s he] at hrx hhold hothers hgood hbad
  have hmessage : (s.setMuxHold ⟨s.muxHold.cap, []⟩).controlMessage 0xE3 l (v0 :: v1 :: vs) .ok =
      ((t.mscEcho l (v0 :: v1 :: vs) .ok).1, (t.mscEcho l (v0 :: v1 :: vs) .ok).2) := by
    rw [State.controlMessage_command _ l (v0 :: v1 :: vs) (Nat.le_add_left 2 vs.length), ht]
  have hrun := State.controlData_of_message he rfl hcap hd (by decide) hl (val := v0 :: v1 :: vs) (more := more) rfl
    (by rw [hlen, Nat.add_comm]; rfl) hmessage
  refine ⟨t, (t.mscEcho l (v0 :: v1 :: vs) .ok).2, (t.mscEcho l (v0 :: v1 :: vs) .ok).1, hrx, hhold,
    hran.enabled.trans hcleared, ⟨hran.cfg, hran.fg, hran.requests⟩, henv, hran.result, hothers, hgood, hbad,
    fun hno => ?noEcho, fun hecho => ?echo, fun hmore => ?alone, hrun⟩
  case noEcho =>
    have hpar : t.par.mscEcho = false := (congrArg (·.params.mscEcho) hran.cfg).trans hno
    rw [t.mscEcho_of_no_echo l _ hpar]
    exact ⟨rfl, rfl⟩
  case echo =>
    have hpar : t.par = s.par := congrArg Config.params hran.cfg
    have hinfo : ([0xE1, l, v0, v1] ++ vs).length ≤ s.par.maxInfoLen := by
      rw [List.length_append]
      exact hfit
    obtain ⟨hreply, hleft⟩ := s.takeLinkReply_congr t henv
    refine ⟨_, s.exec_encode_control (info := [0xE1, l, v0, v1] ++ vs) hinfo, ?_⟩
    have hrest := t.mscEcho_of_echo l (v0 :: v1 :: vs) (hpar ▸ hecho) (by rw [hpar, List.length_cons, List.length_cons]; omega)
    have hbytes : [0xE1, l] ++ v0 :: v1 :: vs = [0xE1, l, v0, v1] ++ vs := rfl
    rw [State.linkSent, hpar, hreply, hleft, hbytes] at hrest
    rw [hrest]
    cases s.takeLinkReply.1.covers (frameBytes s.par 0 .uih false ([0xE1, l, v0, v1] ++ vs)).length with
    | true => rfl
    | false => simp [State.log, State.emit]
  case alone =>
    have hnil : (t.mscEcho l (v0 :: v1 :: vs) .ok).2.controlData [] = (.ok, (t.mscEcho l (v0 :: v1 :: vs) .ok).2) := by
      refine State.controlData_nil ?_
      rw [(t.mscEcho_ran l (v0 :: v1 :: vs) .ok).muxHold, hhold]
    rw [hrun, hmore, hnil, State.keepFirst_ok]

end Sys2Proof.Machine

/-! The snapshot of the standard registers (R227), block by block, each answered, or up to the transfer that fails. -/

namespace Sys2Proof.Machine

open Sys2Proof

/-- The answers to the reads of `blocks`, each a base offset with the block found there. -/
def blockReplies (blocks : List (Byte × List Byte)) : List BusReply := blocks.flatMap fun b => [.ok [], .ok b.2]

/-- The trace of those reads. -/
def blockTrace (p : Params) (blocks : List (Byte × List Byte)) : List TraceEntry := blocks.flatMap fun b =>
  [.busWrite p.fgDevAddr [b.1] true, .busRead p.fgDevAddr 32 (some b.2), .delay p.fgTSettle]

section
variable (s : State) (g : Fg) (new : List TraceEntry) (rest : List BusReply)

/-- Blocks that are answered are read one after another. -/
theorem readBlocks_answered (blocks : List (Byte × List Byte)) (h : ∀ b ∈ blocks, b.2.length = fgBlockLen) :
    readBlocks (blocks.map Prod.fst) (s.during g (blockReplies blocks ++ rest) new) = (some (blocks.flatMap Prod.snd),
      s.during { g with lastReg := (blocks.map Prod.fst).getLastD g.lastReg } rest (new ++ blockTrace s.par blocks)) := by
  induction blocks generalizing g new with
  | nil =>
    rw [show blockTrace s.par [] = [] from rfl, List.append_nil]
    rfl
  | cons b blocks ih =>
    obtain ⟨hb, hblocks⟩ := List.forall_mem_cons.1 h
    have hreplies : blockReplies (b :: blocks) ++ rest = .ok [] :: .ok b.2 :: (blockReplies blocks ++ rest) := rfl
    rw [List.map_cons, readBlocks, hreplies, State.during_par, State.during_regRead_ok _ _ _ _ _ _ _ _ _ hb]
    dsimp only
    rw [ih _ _ hblocks, List.getLastD_cons, List.append_assoc]
    rfl

/-- The transfer number `j` fails: what was read before it is lost. -/
theorem readBlocks_stopped (blocks : List (Byte × List Byte)) (h : ∀ b ∈ blocks, b.2.length = fgBlockLen) (j : Nat)
    (hj : j < 2 * blocks.length) :
    readBlocks (blocks.map Prod.fst) (s.during g ((blockReplies blocks).take j ++ .error :: rest) new) =
      (none, s.during { g with lastReg := (blocks.map Prod.fst).getD (j / 2) 0 } rest
        (new ++ stoppedAt (blockTrace s.par blocks) j)) := by
  induction blocks generalizing g new j with
  | nil => exact absurd hj (Nat.not_lt_zero j)
  | cons b blocks ih =>
    obtain ⟨hb, hblocks⟩ := List.forall_mem_cons.1 h
    rw [List.map_cons, readBlocks, State.during_par]
    match j with
    | 0 =>
      rw [List.take_zero, List.nil_append, State.during_regRead_write_error]
      rfl
    | 1 =>
      have htake : (blockReplies (b :: blocks)).take 1 ++ .error :: rest = .ok [] :: .error :: rest := rfl
      rw [htake, State.during_regRead_read_error]
      rfl
    | j + 2 =>
      have htake : (blockReplies (b :: blocks)).take (j + 2) ++ .error :: rest =
        .ok [] :: .ok b.2 :: ((blockReplies blocks).take j ++ .error :: rest) := rfl
      rw [htake, State.during_regRead_ok _ _ _ _ _ _ _ _ _ hb]
      dsimp only
      rw [ih _ _ hblocks j (by rw [List.length_cons] at hj; omega), List.append_assoc, Nat.add_div_right j (by decide)]
      rfl

end

/-- The snapshot is what was read, where that is the whole of it. -/
theorem State.setRaw_toList (s : State) (t : List Byte) (ht : t.length = 128) : (s.setRaw t).fg.raw.toList = t := by
  refine List.ext_getElem (by simp [ht]) fun i hi hi' => ?_
  simp [State.setRaw, State.modFg, hi']

theorem State.during_setRaw (s : State) (g : Fg) (bus : List BusReply) (new : List TraceEntry) (t : List Byte) :
    (s.during g bus new).setRaw t = s.during { g with raw := (s.setRaw t).fg.raw } bus new := by
  simp only [State.setRaw, State.modFg, State.during]

/-- A draw of the snapshot changes the snapshot and the count of draws (log 7). -/
theorem State.scrambleRaw_eq (s : State) : ∃ (raw : Vector Byte 128) (k : Nat), s.scrambleRaw =
    { s with fg := { s.fg with raw := raw }, env := { s.env with draws := k } } := ⟨_, _, rfl⟩

/-- Settles O49: the operation reads the four blocks. -/
theorem standardRegistersAreRead : Obligations.StandardRegistersAreRead := by
  intro s d0 d1 d2 d3 rest h0 h1 h2 h3 p bases replies block full
  let blocks := [(p.fgBlockBase0, d0), (p.fgBlockBase1, d1), (p.fgBlockBase2, d2), (p.fgBlockBase3, d3)]
  have hblocks : ∀ b ∈ blocks, b.2.length = fgBlockLen := by simp [blocks, h0, h1, h2, h3, fgBlockLen]
  refine ⟨fun hbus => ?answered, fun j hj hbus => ?stopped⟩
  case answered =>
    have hread := readBlocks_answered s s.fg [] rest blocks hblocks
    have hdata : blocks.flatMap Prod.snd = d0 ++ d1 ++ d2 ++ d3 := by simp [blocks]
    have hlen : (d0 ++ d1 ++ d2 ++ d3).length = 128 := by simp [h0, h1, h2, h3]
    rw [hdata] at hread
    refine ⟨(s.setRaw (d0 ++ d1 ++ d2 ++ d3)).fg.raw, s.setRaw_toList _ hlen, ?_⟩
    rw [State.exec_of_listed hbus]
    refine congrArg Host.Outcome.next ?_
    rw [show blockBases (s.during s.fg (replies ++ rest) []).par = blocks.map Prod.fst from rfl,
      show replies = blockReplies blocks from rfl, hread]
    dsimp only
    rw [State.during_setRaw, List.nil_append]
    generalize (s.setRaw (d0 ++ d1 ++ d2 ++ d3)).fg.raw = raw
    rfl
  case stopped =>
    have hread := readBlocks_stopped s s.fg [] rest blocks hblocks j hj
    obtain ⟨raw, k, hraw⟩ := State.scrambleRaw_eq (s.during { s.fg with lastReg := bases.getD (j / 2) 0 } rest
      ([] ++ stoppedAt full j))
    refine ⟨raw, k, ?_⟩
    rw [State.exec_of_listed hbus]
    refine congrArg Host.Outcome.next ?_
    rw [show blockBases (s.during s.fg (replies.take j ++ .error :: rest) []).par = blocks.map Prod.fst from rfl,
      show replies = blockReplies blocks from rfl, hread]
    exact congrArg (State.fail · .transportError) hraw

end Sys2Proof.Machine

/-! The echo device (R248): what an operation finds when its transfers are answered as such a device answers them. -/

namespace Sys2Proof.Machine

open Sys2Proof

/-! ### The device's memory -/

/-- The memory `m` after `d` is written from address `r` on. -/
def echoStore (m : Nat → Byte) (r : Byte) (d : List Byte) : Nat → Byte :=
  fun a => if r.toNat ≤ a ∧ a < r.toNat + d.length then d.getD (a - r.toNat) 0 else m a

/-- The `n` bytes of the memory from address `r` on. -/
def echoBytes (m : Nat → Byte) (r : Byte) (n : Nat) : List Byte := (List.range n).map fun i => m (r.toNat + i)

theorem echoStore_nil (m : Nat → Byte) (r : Byte) : echoStore m r [] = m :=
  funext fun _ => if_neg fun h => Nat.not_lt.2 h.1 h.2

theorem echoStore_of_outside (m : Nat → Byte) (r : Byte) (d : List Byte) (a : Nat) (h : a < r.toNat ∨ r.toNat + d.length ≤ a) :
    echoStore m r d a = m a := if_neg (by omega)

theorem echoStore_of_inside (m : Nat → Byte) (r : Byte) (d : List Byte) (i : Nat) (h : i < d.length) :
    echoStore m r d (r.toNat + i) = d.getD i 0 := by
  rw [echoStore, if_pos (by omega), Nat.add_sub_cancel_left]

/-! ### Runs that an echo device answers -/

/-- What is traced from `s` to `t`, and `rest` behind it, is answered by an echo device with memory `m` and pointer `ptr`. -/
def Answered (s : State) (m : Nat → Byte) (ptr : Nat) (t : State) (rest : List TraceEntry) : Prop :=
  ∃ added, t.out = s.out ++ added ∧ echoAnswers m ptr (added ++ rest) = true

/-- No log entry is made from `s` to `t`. -/
def Unlogged (s t : State) : Prop := ∃ added, t.out = s.out ++ added ∧ ∀ e ∈ added, e.isLog = false

theorem Unlogged.trans {s t u : State} (h : Unlogged s t) (k : Unlogged t u) : Unlogged s u := by
  obtain ⟨added, hout, hadded⟩ := h
  obtain ⟨more, hout', hmore⟩ := k
  exact ⟨added ++ more, by rw [hout', hout, List.append_assoc], List.forall_mem_append.2 ⟨hadded, hmore⟩⟩

/-- A run in two parts is answered in two parts. -/
theorem Answered.split {s t u : State} {m : Nat → Byte} {ptr : Nat} {rest : List TraceEntry} (h : Answered s m ptr u rest)
    (hst : FgRan s t) (htu : FgRan t u) : ∃ behind, Answered s m ptr t behind ∧
      ∀ m' ptr', echoAnswers m' ptr' behind = true → Answered t m' ptr' u rest := by
  obtain ⟨added, hout, hans⟩ := h
  obtain ⟨first, hfirst, -⟩ := hst.out
  obtain ⟨second, hsecond, -⟩ := htu.out
  have hadded : added = first ++ second := by
    rw [hsecond, hfirst, List.append_assoc] at hout
    exact (List.append_cancel_left hout).symm
  subst hadded
  rw [List.append_assoc] at hans
  exact ⟨second ++ rest, ⟨first, hfirst, hans⟩, fun m' ptr' hrest => ⟨second, hsecond, hrest⟩⟩

/-- What an answered part leaves: the device's memory and pointer, and the gauge's state. -/
structure Left (s : State) (t : State) (g : Fg) (m : Nat → Byte) (ptr : Nat) (rest : List TraceEntry) : Prop where
  cfg : t.cfg = s.cfg
  fg : t.fg = g
  answers : echoAnswers m ptr rest = true

namespace State

section
variable {s : State} {m : Nat → Byte} {ptr : Nat} {rest : List TraceEntry}

/-- A register write succeeds and is stored. -/
theorem regWrite_answered (reg : Byte) (d : List Byte) (t : Nat) (h : Answered s m ptr (s.regWrite reg d t).2 rest) :
    (s.regWrite reg d t).1 = true ∧
    Left s (s.regWrite reg d t).2 { s.fg with lastReg := reg } (echoStore m reg d) reg.toNat rest ∧
    Unlogged s (s.regWrite reg d t).2 := by
  obtain ⟨added, hout, hans⟩ := h
  unfold regWrite at hout ⊢
  rw [busWrite_eq] at hout ⊢
  cases hok : ((s.setLastReg reg).takeBusReply 0).1.succeeds with
  | true =>
    rw [hok] at hout
    have hadded := List.append_cancel_left ((List.append_assoc ..).symm.trans hout)
    subst hadded
    exact ⟨rfl, ⟨rfl, rfl, hans⟩, _, List.append_assoc .., by simp [TraceEntry.isLog]⟩
  | false =>
    rw [hok] at hout
    have hadded := List.append_cancel_left hout
    subst hadded
    exact nomatch hans

/-- A register read succeeds and finds what is stored. -/
theorem regRead_answered (reg : Byte) (n t : Nat) (h : Answered s m ptr (s.regRead reg n t).2 rest) :
    (s.regRead reg n t).1 = some (echoBytes m reg n) ∧
    Left s (s.regRead reg n t).2 { s.fg with lastReg := reg } m reg.toNat rest ∧
    Unlogged s (s.regRead reg n t).2 := by
  obtain ⟨added, hout, hans⟩ := h
  unfold regRead at hout ⊢
  rw [busWrite_eq] at hout ⊢
  cases hok : ((s.setLastReg reg).takeBusReply 0).1.succeeds with
  | false =>
    rw [hok] at hout
    have hadded := List.append_cancel_left hout
    subst hadded
    exact nomatch hans
  | true =>
    rw [hok] at hout
    dsimp only at hout ⊢
    rw [busRead_eq] at hout ⊢
    generalize (takeBusReply _ n) = answer at hout ⊢
    cases hd : answer.1.bytesFor n with
    | none =>
      rw [hd] at hout
      have hadded := List.append_cancel_left ((List.append_assoc ..).symm.trans hout)
      subst hadded
      exact nomatch hans
    | some d =>
      rw [hd] at hout
      have hadded := List.append_cancel_left
        ((List.append_assoc ..).symm.trans ((List.append_assoc ..).symm.trans hout)) (bs := [_, _, _])
      subst hadded
      have hread : (decide (some d = some (echoBytes (echoStore m reg []) reg n)) &&
          echoAnswers (echoStore m reg []) reg.toNat rest) = true := hans
      rw [echoStore_nil, Bool.and_eq_true, decide_eq_true_eq] at hread
      exact ⟨hread.1, ⟨rfl, rfl, hread.2⟩, _, (List.append_assoc ..).trans (List.append_assoc ..), by simp [TraceEntry.isLog]⟩

/-- Both registers are found as they are stored. -/
theorem sumLenRead_answered (h : Answered s m ptr s.sumLenRead.2 rest) :
    s.sumLenRead.1 = some (m s.par.fgRegMacSum.toNat, m s.par.fgRegMacLen.toNat) ∧
    Left s s.sumLenRead.2 { s.fg with lastReg := s.par.fgRegMacLen } m s.par.fgRegMacLen.toNat rest ∧
    Unlogged s s.sumLenRead.2 := by
  have hsum {rest} := regRead_answered (s := s) (m := m) (ptr := ptr) (rest := rest) s.par.fgRegMacSum 1 s.par.fgTSettle
  have hran := s.regRead_ran s.par.fgRegMacSum 1 s.par.fgTSettle
  unfold sumLenRead at h ⊢
  generalize s.regRead s.par.fgRegMacSum 1 s.par.fgTSettle = answer at h hsum hran ⊢
  rcases answer with ⟨_ | a, s1⟩
  · exact nomatch (hsum h).1
  · have hlen {rest} := regRead_answered (s := s1) (m := m) (ptr := s.par.fgRegMacSum.toNat) (rest := rest)
      s1.par.fgRegMacLen 1 s1.par.fgTSettle
    have hran' := s1.regRead_ran s1.par.fgRegMacLen 1 s1.par.fgTSettle
    dsimp only at h ⊢
    generalize s1.regRead s1.par.fgRegMacLen 1 s1.par.fgTSettle = answer at h hlen hran' ⊢
    rcases answer with ⟨_ | b, s2⟩
    · obtain ⟨behind, hfirst, hsecond⟩ := h.split hran hran'
      exact nomatch (hlen (hsecond _ _ (hsum hfirst).2.1.answers)).1
    · obtain ⟨behind, hfirst, hsecond⟩ := h.split hran hran'
      obtain ⟨ha, hleft, hquiet⟩ := hsum hfirst
      obtain ⟨hb, hleft', hquiet'⟩ := hlen (hsecond _ _ hleft.answers)
      have hpar : s1.par = s.par := congrArg Config.params hleft.cfg
      obtain rfl := Option.some.inj ha
      obtain rfl := Option.some.inj hb
      rw [hpar] at hleft' ⊢
      refine ⟨rfl, ⟨hleft'.cfg.trans hleft.cfg, hleft'.fg.trans ?_, hleft'.answers⟩, hquiet.trans hquiet'⟩
      rw [hleft.fg]

/-- Both registers are stored. -/
theorem sumLenWrite_answered (sum len : Byte) (h : Answered s m ptr (s.sumLenWrite sum len).2 rest) :
    (s.sumLenWrite sum len).1 = true ∧
    Left s (s.sumLenWrite sum len).2 { s.fg with lastReg := s.par.fgRegMacLen, lastChecksum := sum }
      (echoStore (echoStore m s.par.fgRegMacSum [sum]) s.par.fgRegMacLen [len]) s.par.fgRegMacLen.toNat rest := by
  have hsum {rest} := regWrite_answered (s := s.setLastChecksum sum) (m := m) (ptr := ptr) (rest := rest)
    s.par.fgRegMacSum [sum] s.par.fgTSettle
  have hran := (s.setLastChecksum sum).regWrite_ran s.par.fgRegMacSum [sum] s.par.fgTSettle
  unfold sumLenWrite at h ⊢
  generalize (s.setLastChecksum sum).regWrite s.par.fgRegMacSum [sum] s.par.fgTSettle = answer at h hsum hran ⊢
  rcases answer with ⟨_ | _, s1⟩
  · exact nomatch (hsum h).1
  · have h' : Answered (s.setLastChecksum sum) m ptr (s1.regWrite s1.par.fgRegMacLen [len] s1.par.fgTSettle).2 rest := h
    obtain ⟨behind, hfirst, hsecond⟩ := h'.split hran (s1.regWrite_ran s1.par.fgRegMacLen [len] s1.par.fgTSettle)
    obtain ⟨-, hleft, -⟩ := hsum hfirst
    obtain ⟨hok, hleft', -⟩ := regWrite_answered _ _ _ (hsecond _ _ hleft.answers)
    have hpar : s1.par = s.par := congrArg Config.params hleft.cfg
    rw [hpar] at hleft' hok
    dsimp only
    rw [hpar]
    refine ⟨hok, hleft'.cfg.trans hleft.cfg, hleft'.fg.trans ?_, hleft'.answers⟩
    rw [hleft.fg]
    rfl

/-- The comparisons make log entries, or none where both registers agree. -/
theorem checkSumLen_answered (sum len : Byte) (h : Answered s m ptr (s.checkSumLen sum len) rest) :
    Left s (s.checkSumLen sum len) s.fg m ptr rest ∧
    (sum = s.fg.lastChecksum → len = lengthRegister s.par → Unlogged s (s.checkSumLen sum len)) := by
  obtain ⟨added, hout, hans⟩ := h
  rw [checkSumLen_eq] at hout ⊢
  have hadded := List.append_cancel_left ((List.append_assoc ..).symm.trans hout)
  refine ⟨⟨rfl, rfl, ?_⟩, fun hsum hlen => ⟨[], ?_, nofun⟩⟩
  · subst hadded
    split at hans <;> split at hans <;> exact hans
  · rw [if_neg (not_not.2 hsum), if_neg (not_not.2 hlen), List.append_nil]

/-- The window is read behind the header that was written; where the two registers agree nothing is logged. -/
theorem readExt_answered (sub : U16) (n : Nat) (h : Answered s m ptr (s.readExt sub n).2 rest) :
    let stored := echoStore m s.par.fgRegMacCmd (le16 sub)
    (s.readExt sub n).1 = some (echoBytes stored s.par.fgRegMacData n) ∧
    (s.readExt sub n).2.cfg = s.cfg ∧ (s.readExt sub n).2.fg.lastChecksum = s.fg.lastChecksum ∧
    echoAnswers stored s.par.fgRegMacData.toNat rest = true ∧
    (stored s.par.fgRegMacSum.toNat = s.fg.lastChecksum → stored s.par.fgRegMacLen.toNat = lengthRegister s.par →
      Unlogged s (s.readExt sub n).2) := by
  intro stored
  have hcmd {rest} := regWrite_answered (s := s) (m := m) (ptr := ptr) (rest := rest) s.par.fgRegMacCmd (le16 sub)
    s.par.fgTMac
  have hran := s.regWrite_ran s.par.fgRegMacCmd (le16 sub) s.par.fgTMac
  unfold readExt at h ⊢
  generalize s.regWrite s.par.fgRegMacCmd (le16 sub) s.par.fgTMac = answer at h hcmd hran ⊢
  rcases answer with ⟨_ | _, s1⟩
  · exact nomatch (hcmd h).1
  have hsums {rest} := sumLenRead_answered (s := s1.setLastSubCmd sub) (m := stored) (ptr := s.par.fgRegMacCmd.toNat)
    (rest := rest)
  have hransums : FgRan s1 (s1.setLastSubCmd sub).sumLenRead.2 := (FgRan.of_modFg s1 _).trans (sumLenRead_ran _)
  dsimp only at h ⊢
  generalize (s1.setLastSubCmd sub).sumLenRead = answer at h hsums hransums ⊢
  rcases answer with ⟨_ | v, s2⟩
  · obtain ⟨behind, hfirst, hsecond⟩ := h.split hran hransums
    exact nomatch (hsums (hsecond _ _ (hcmd hfirst).2.1.answers)).1
  have hchecks {ptr rest} := checkSumLen_answered (s := s2) (m := stored) (ptr := ptr) (rest := rest) v.1 v.2
  have hranchecks := s2.checkSumLen_ran v.1 v.2
  dsimp only at h ⊢
  generalize s2.checkSumLen v.1 v.2 = s2' at h hchecks hranchecks ⊢
  have hdata {ptr rest} := regRead_answered (s := s2') (m := stored) (ptr := ptr) (rest := rest)
    s2.par.fgRegMacData n s2.par.fgTSettle
  have hrandata := s2'.regRead_ran s2.par.fgRegMacData n s2.par.fgTSettle
  generalize s2'.regRead s2.par.fgRegMacData n s2.par.fgTSettle = answer at h hdata hrandata ⊢
  have hlast : Answered s m ptr answer.2 rest := by
    obtain ⟨added, hout, hans⟩ := h
    refine ⟨added, ?_, hans⟩
    rcases answer with ⟨_ | d, s3⟩
    · exact hout
    · rw [← hout, setMacBuf_out]
  obtain ⟨behind, h1, hnext⟩ := hlast.split hran (hransums.trans (hranchecks.trans hrandata))
  obtain ⟨-, hleft1, hquiet1⟩ := hcmd h1
  obtain ⟨behind, h2, hnext⟩ := (hnext _ _ hleft1.answers).split hransums (hranchecks.trans hrandata)
  have hpar1 : s1.par = s.par := congrArg Config.params hleft1.cfg
  obtain ⟨hv, hleft2, hquiet2⟩ := hsums h2
  have hpar2 : s2.par = s.par := congrArg Config.params (hleft2.cfg.trans hleft1.cfg)
  obtain ⟨behind, h3, hnext⟩ := (hnext _ _ hleft2.answers).split hranchecks hrandata
  obtain ⟨hleft3, hquiet3⟩ := hchecks h3
  obtain ⟨hd, hleft4, hquiet4⟩ := hdata (hnext _ _ hleft3.answers)
  rcases answer with ⟨d | d, s3⟩
  · exact nomatch hd
  obtain rfl := Option.some.inj hd
  obtain rfl := Option.some.inj hv
  have hchecksum : s2.fg.lastChecksum = s.fg.lastChecksum := by
    rw [hleft2.fg, setLastSubCmd_fg, hleft1.fg]
  dsimp only at hchecks hquiet3 hleft4 ⊢
  rw [hpar2] at hleft4 hquiet3 ⊢
  refine ⟨rfl, ?cfg, ?checksum, hleft4.answers, fun hsum hlen => ?quiet⟩
  case cfg => rw [setMacBuf_cfg, hleft4.cfg, hleft3.cfg, hleft2.cfg, setLastSubCmd_cfg, hleft1.cfg]
  case checksum =>
    have hbuf : (s3.setMacBuf (echoBytes stored s.par.fgRegMacData n)).fg.lastChecksum = s3.fg.lastChecksum := by
      simp only [setMacBuf, modFg]
    rw [hbuf, hleft4.fg, hleft3.fg, hchecksum]
  case quiet =>
    rw [hchecksum] at hquiet3
    have hall := hquiet1.trans (Unlogged.trans (t := s2) hquiet2 ((hquiet3 ?_ ?_).trans hquiet4))
    · obtain ⟨added, hout, hadded⟩ := hall
      exact ⟨added, by rw [setMacBuf_out, hout], hadded⟩
    · rw [show (s1.setLastSubCmd sub).par = s.par from hpar1]
      exact hsum
    · rw [show (s1.setLastSubCmd sub).par = s.par from hpar1]
      exact hlen

end

end State

/-! ### What an extended write leaves in the device -/

/-- The device holds the window `pay` with its checksum `sum` and the length that goes with it. -/
structure EchoHolds (p : Params) (m : Nat → Byte) (sum : Byte) (pay : List Byte) : Prop where
  sum : m p.fgRegMacSum.toNat = sum
  len : m p.fgRegMacLen.toNat = lengthRegister p
  window : ∀ i < pay.length, m (p.fgRegMacData.toNat + i) = pay.getD i 0

section
variable {p : Params} {m : Nat → Byte} {sum : Byte} {pay : List Byte} (hp : EchoMap p)

include hp

/-- A header does not reach the window or the two registers. -/
theorem EchoHolds.of_header (h : EchoHolds p m sum pay) (sub : U16) :
    EchoHolds p (echoStore m p.fgRegMacCmd (le16 sub)) sum pay := by
  obtain ⟨hdata, hsum, hlen, -⟩ := hp
  have hheader : (le16 sub).length = 2 := rfl
  refine ⟨?_, ?_, fun i hi => ?_⟩ <;> rw [echoStore_of_outside _ _ _ _ (by omega)]
  · exact h.sum
  · exact h.len
  · exact h.window i hi

/-- The payload behind its header, then the two registers. -/
theorem echoHolds_of_writes (sub : U16) (hpay : pay.length = 32) : EchoHolds p
    (echoStore (echoStore (echoStore m p.fgRegMacCmd (le16 sub ++ pay)) p.fgRegMacSum [sum]) p.fgRegMacLen [lengthRegister p])
    sum pay := by
  obtain ⟨hdata, hsum, hlen, hne⟩ := hp
  have hregs : p.fgRegMacSum.toNat ≠ p.fgRegMacLen.toNat := fun h => hne (BitVec.eq_of_toNat_eq h)
  have hone (b : Byte) : [b].length = 1 := rfl
  have hheader : (le16 sub ++ pay).length = 34 := by rw [List.length_append, hpay]; rfl
  refine ⟨?_, ?_, fun i hi => ?_⟩
  · rw [echoStore_of_outside _ p.fgRegMacLen _ _ (by rw [hone]; omega)]
    exact echoStore_of_inside _ p.fgRegMacSum [sum] 0 Nat.one_pos
  · exact echoStore_of_inside _ p.fgRegMacLen [lengthRegister p] 0 Nat.one_pos
  · rw [echoStore_of_outside _ p.fgRegMacLen _ _ (by rw [hone]; omega),
      echoStore_of_outside _ p.fgRegMacSum _ _ (by rw [hone]; omega), hdata, Nat.add_assoc,
      echoStore_of_inside _ _ _ _ (by omega), Nat.add_comm 2 i]
    rfl

omit hp in
/-- What is read from the window is the front of what it holds. -/
theorem EchoHolds.echoBytes_eq (h : EchoHolds p m sum pay) {n : Nat} (hn : n ≤ pay.length) :
    echoBytes m p.fgRegMacData n = pay.take n := by
  refine List.ext_getElem (by simp [echoBytes, hn]) fun i hi hi' => ?_
  have hip : i < pay.length := lt_of_lt_of_le (by simpa [echoBytes] using hi) hn
  simp only [echoBytes, List.getElem_map, List.getElem_range, List.getElem_take]
  rw [h.window i hip, List.getD_eq_getElem _ _ hip]

end

namespace State

section
variable {s : State} {m : Nat → Byte} {ptr : Nat} {rest : List TraceEntry}

theorem preRead_answered (sub : U16) (preserve : Bool) (h : Answered s m ptr (s.preRead sub preserve).2 rest) :
    (s.preRead sub preserve).1 = true ∧ (s.preRead sub preserve).2.cfg = s.cfg ∧
    ∃ m' ptr', echoAnswers m' ptr' rest = true := by
  unfold preRead at h ⊢
  cases preserve with
  | false =>
    obtain ⟨added, hout, hans⟩ := h
    obtain rfl := List.append_right_eq_self.1 (Eq.symm hout)
    exact ⟨rfl, rfl, m, ptr, hans⟩
  | true =>
    have hread := readExt_answered (s := s) (m := m) (ptr := ptr) (rest := rest) sub fgMacLen
    dsimp only at h hread ⊢
    generalize s.readExt sub fgMacLen = answer at h hread ⊢
    rcases answer with ⟨_ | d, s1⟩
    · exact nomatch (hread h).1
    · obtain ⟨-, hcfg, -, hans, -⟩ := hread h
      exact ⟨rfl, hcfg, _, _, hans⟩

/-- On an echo device the confirmation finds what was written. -/
theorem commitExt_answered (hp : EchoMap s.par) (sub : U16) (h : Answered s m ptr (s.commitExt sub).2 rest) :
    (s.commitExt sub).1 = .ok ∧ (s.commitExt sub).2.cfg = s.cfg ∧ ∃ m' ptr', echoAnswers m' ptr' rest = true ∧
      EchoHolds s.par m' (s.commitExt sub).2.fg.lastChecksum s.fg.macBuf.toList := by
  have hpay {rest} := regWrite_answered (s := s) (m := m) (ptr := ptr) (rest := rest) s.par.fgRegMacCmd
    (le16 sub ++ s.fg.macBuf.toList) s.par.fgTSettle
  have hranpay := s.regWrite_ran s.par.fgRegMacCmd (le16 sub ++ s.fg.macBuf.toList) s.par.fgTSettle
  unfold commitExt writePayload at h ⊢
  dsimp only at h ⊢
  rw [if_pos hp.1] at h ⊢
  generalize s.regWrite s.par.fgRegMacCmd (le16 sub ++ s.fg.macBuf.toList) s.par.fgTSettle = answer at h hpay hranpay ⊢
  rcases answer with ⟨_ | _, s1⟩
  · exact nomatch (hpay h).1
  have hsums {ptr rest} := sumLenWrite_answered (s := s1.setLastSubCmd sub) (ptr := ptr) (rest := rest)
    (m := echoStore m s.par.fgRegMacCmd (le16 sub ++ s.fg.macBuf.toList))
    (fgChecksum s1.par sub s.fg.macBuf.toList) (lengthRegister s1.par)
  have hransums : FgRan s1 ((s1.setLastSubCmd sub).sumLenWrite (fgChecksum s1.par sub s.fg.macBuf.toList)
    (lengthRegister s1.par)).2 := (FgRan.of_modFg s1 _).trans (sumLenWrite_ran _ _ _)
  dsimp only at h ⊢
  generalize (s1.setLastSubCmd sub).sumLenWrite (fgChecksum s1.par sub s.fg.macBuf.toList) (lengthRegister s1.par) = answer
    at h hsums hransums ⊢
  rcases answer with ⟨_ | _, s2⟩
  · obtain ⟨behind, h1, hnext⟩ := h.split hranpay hransums
    exact nomatch (hsums (hnext _ _ (hpay h1).2.1.answers)).1
  have hread {m ptr rest} := readExt_answered (s := s2) (m := m) (ptr := ptr) (rest := rest) sub fgMacLen
  have hranread := s2.readExt_ran sub fgMacLen
  dsimp only at h ⊢
  generalize s2.readExt sub fgMacLen = answer at h hread hranread ⊢
  have hfacts {behind} (h : Answered s m ptr answer.2 behind) : answer.1 = some s.fg.macBuf.toList ∧
      answer.2.cfg = s.cfg ∧ ∃ m' ptr', echoAnswers m' ptr' behind = true ∧
        EchoHolds s.par m' answer.2.fg.lastChecksum s.fg.macBuf.toList := by
    obtain ⟨_, h1, hnext⟩ := h.split hranpay (hransums.trans hranread)
    obtain ⟨-, hleft1, -⟩ := hpay h1
    obtain ⟨_, h2, hnext⟩ := (hnext _ _ hleft1.answers).split hransums hranread
    obtain ⟨-, hleft2⟩ := hsums h2
    obtain ⟨hd, hcfg, hchecksum, hans, -⟩ := hread (hnext _ _ hleft2.answers)
    have hpar1 : s1.par = s.par := congrArg Config.params hleft1.cfg
    have hcfg2 : s2.cfg = s.cfg := hleft2.cfg.trans hleft1.cfg
    have hpar2 : s2.par = s.par := congrArg Config.params hcfg2
    have hlen : s.fg.macBuf.toList.length = 32 := Vector.length_toList
    rw [hpar2, show (s1.setLastSubCmd sub).par = s.par from hpar1, hpar1] at hd hans
    have hholds := (echoHolds_of_writes (m := m) (sum := fgChecksum s.par sub s.fg.macBuf.toList) hp sub hlen).of_header hp sub
    rw [hholds.echoBytes_eq (n := fgMacLen) (by rw [hlen]; decide), List.take_of_length_le (by rw [hlen]; decide)] at hd
    rw [hchecksum, hleft2.fg, hpar1]
    exact ⟨hd, hcfg.trans hcfg2, _, _, hans, hholds⟩
  rcases answer with ⟨_ | d, s3⟩
  · exact nomatch (hfacts h).1
  dsimp only at h hfacts ⊢
  by_cases hd : d = s.fg.macBuf.toList
  · rw [if_neg (not_not.2 hd)] at h ⊢
    exact ⟨rfl, (hfacts h).2⟩
  · rw [if_pos hd] at h
    obtain ⟨_, h3, -⟩ := h.split (hranpay.trans (hransums.trans hranread)) (.of_log _ _)
    exact absurd (Option.some.inj (hfacts h3).1) hd

end

end State

/-- Settles O55: the write leaves the window and its registers in the device, and the read finds them there. -/
theorem extendedWriteThenRead : Obligations.ExtendedWriteThenRead := by
  intro s t u sub data q preserve m ptr new new' hq hp hwrite hread hout hout' hans
  have hq32 : q ≤ 32 := by omega
  have hwritten : t.result = some ⟨.ok, .none⟩ ∧ t.cfg = s.cfg ∧ ∃ m' ptr' pay, echoAnswers m' ptr' new' = true ∧
      EchoHolds s.par m' t.fg.lastChecksum pay ∧ pay.length = 32 ∧ pay.take q = scalarBytes data q := by
    have hexec : execFgWriteExt sub data q preserve s = .next t := hwrite
    unfold execFgWriteExt at hexec
    rw [if_neg (by rw [(legalQuantity_iff q).2 hq]; nofun)] at hexec
    have hpre {rest} := State.preRead_answered (s := s) (m := m) (ptr := ptr) (rest := rest) sub preserve
    have hranpre := s.preRead_ran sub preserve
    generalize s.preRead sub preserve = answer at hexec hpre hranpre
    rcases answer with ⟨_ | _, s1⟩
    · obtain rfl := Host.Outcome.next.inj hexec
      exact nomatch (hpre ⟨new, hout, hans⟩).1
    · obtain rfl := Host.Outcome.next.inj hexec
      have hranbuf := s1.setMacBuf_ran (scalarBytes data q)
      have houtbuf := s1.setMacBuf_out (scalarBytes data q)
      have hbuf := s1.setMacBuf_toList (scalarBytes data q) (by rw [length_scalarBytes]; exact hq32)
      dsimp only at hout hread hout' ⊢
      generalize s1.setMacBuf (scalarBytes data q) = s2 at hout hread hout' hranbuf houtbuf hbuf ⊢
      have h : Answered s m ptr (s2.commitExt sub).2 new' := ⟨new, hout, hans⟩
      obtain ⟨_, h1, hnext⟩ := h.split hranpre (hranbuf.trans (s2.commitExt_ran sub))
      obtain ⟨-, hcfg, m', ptr', hans'⟩ := hpre h1
      obtain ⟨added, hadded, hcommit⟩ := hnext _ _ hans'
      have hcfg2 : s2.cfg = s.cfg := hranbuf.cfg.trans hcfg
      have hpar2 : s2.par = s.par := congrArg Config.params hcfg2
      obtain ⟨hst, hcfg3, m'', ptr'', hans'', hholds⟩ := State.commitExt_answered (s := s2) (hpar2.symm ▸ hp) sub
        ⟨added, by rw [hadded, houtbuf], hcommit⟩
      rw [hpar2] at hholds
      refine ⟨?_, hcfg3.trans hcfg2, m'', ptr'', _, hans'', hholds, Vector.length_toList, ?_⟩
      · rw [State.fail_result, hst]
      · rw [hbuf, List.take_left' (length_scalarBytes data q)]
  obtain ⟨hresult, hcfg, m', ptr', pay, hans', hholds, hlen, hfront⟩ := hwritten
  have hpar : t.par = s.par := congrArg Config.params hcfg
  have hexec : execFgReadExt sub q t = .next u := hread
  unfold execFgReadExt at hexec
  rw [if_neg (by rw [legalReadLength_eq_false_iff]; omega)] at hexec
  have hfound {rest} := State.readExt_answered (s := t) (m := m') (ptr := ptr') (rest := rest) sub q
  rw [hpar] at hfound
  generalize t.readExt sub q = answer at hexec hfound
  rcases answer with ⟨_ | d, s3⟩
  · obtain rfl := Host.Outcome.next.inj hexec
    exact nomatch (hfound (rest := []) ⟨new', hout', by rw [List.append_nil]; exact hans'⟩).1
  · obtain rfl := Host.Outcome.next.inj hexec
    obtain ⟨hd, -, -, -, hquiet⟩ := hfound (rest := []) ⟨new', hout', by rw [List.append_nil]; exact hans'⟩
    have hstored := hholds.of_header hp sub
    rw [hstored.echoBytes_eq (by rw [hlen]; exact hq32), hfront, scalarBytes_eq] at hd
    obtain rfl := Option.some.inj hd
    obtain ⟨added, hadded, hunlogged⟩ := hquiet hstored.sum hstored.len
    obtain rfl := List.append_cancel_left (hadded.symm.trans hout')
    exact ⟨hresult, rfl, hunlogged⟩

end Sys2Proof.Machine
